-- ==== Sys2Proof/Word.lean ====
section
/-! DEFINITION. The two widths the wire fixes (00_scope R8): a byte is 8 bits, the checksum and the 2-byte header
fields are 16 bits. All values are unsigned (R9). -/

namespace Sys2Proof

/-- A byte, 8 bits everywhere (00_scope R8, 20_memory R60). -/
abbrev Byte := BitVec 8

/-- A 16-bit value: transaction id, protocol id, length, checksum (00_scope R8). -/
abbrev Half := BitVec 16

end Sys2Proof
end

