-- ==== Sys2Proof/Config.lean ====
section
/-! DEFINITION. The parameters a model takes (00_scope R7) and the constants the document fixes. The open ones are
the fields of `Config`, the parameter of the step relation, which no operation writes (10_state R20, R40, log 4). -/

namespace Sys2Proof

/-- `CRC_PARAMS` (00_scope R7, 40_frame_codec_crc R124). -/
structure CrcParams where
  poly   : Half
  init   : Half
  refin  : Bool
  refout : Bool
  xorout : Half
  deriving DecidableEq, Repr

/-- The default `CRC_PARAMS`, CRC-16/MODBUS: the spec's decision D1, which the spec marks as general knowledge
(log 5). -/
def CrcParams.modbus : CrcParams :=
  { poly := 0x8005, init := 0xFFFF, refin := true, refout := true, xorout := 0x0000 }

/-- `RX_STALE`: what becomes of serial bytes received outside a read window or beyond the count it asks
(00_scope R7, 70_reset_and_hazards R302). -/
inductive RxStale where
  | refuse | flush | keep
  deriving DecidableEq, Repr

/-- `SHORT_REQ`: what becomes of a client frame shorter than its length field says (00_scope R7,
43_connection_handler R202). -/
inductive ShortReq where
  | refuse | close
  deriving DecidableEq, Repr

/-- The open parameters of 00_scope R7 and the configuration record `CFG` of 10_state R40. -/
structure Config where
  crc         : CrcParams
  /-- How many client ports there are beside the first: `NCLIENTS` is at least 1 (decision D3). -/
  moreClients : Nat
  rxStale     : RxStale
  shortReq    : ShortReq
  /-- `CFG.T_SER`, the serial read timeout in milliseconds. -/
  tSer        : BitVec 32
  /-- `CFG.T_IFD`, the inter-frame delay in milliseconds. -/
  tIfd        : BitVec 32
  deriving DecidableEq, Repr

/-- The parameters `State.reset` has: R7's defaults where it gives one; `NCLIENTS`, `T_SER` and `T_IFD` are open
there, and their values here are a DESIGN CHOICE (log 4). -/
def Config.default : Config :=
  { crc := CrcParams.modbus, moreClients := 1, rxStale := .refuse, shortReq := .refuse, tSer := 1000, tIfd := 10 }

/-- `NCLIENTS`, the number of client ports, at least 1 (00_scope R7, decision D3). -/
def Config.nclients (c : Config) : Nat := c.moreClients + 1

/-- `QDEPTH = NCLIENTS` (00_scope R7, decision D4). -/
def Config.qdepth (c : Config) : Nat := c.nclients

/-- `REQ_MAX`, the bound of the client receive buffer (00_scope R7, decision D6). -/
def reqMax : Nat := 256
/-- `FRAME_MAX`, the largest RTU request frame (00_scope R7). -/
def frameMax : Nat := 252
/-- `REPLY_MAX`, the largest RTU reply (00_scope R7). -/
def replyMax : Nat := 260
/-- `LEN_MIN` (00_scope R7, 41 R142). -/
def lenMin : Nat := 6
/-- `LEN_MAX` (00_scope R7, 41 R142). -/
def lenMax : Nat := 250
/-- `EXC_CODE`, the one exception code the gateway sends (00_scope R7, 44 R241). -/
def excCode : Byte := 0x0B

end Sys2Proof
end

