-- ==== Sys2Proof/Machine/Bytes.lean ====
section
/-! DEFINITION. Byte order and byte sequences: `lo8`, `hi8`, `u16be` (00_scope R9), slices (R10), `MemRead` and
`MemWrite` on a named buffer (R11). Byte order is decided here once. -/

namespace Sys2Proof

/-- `lo8(v) = v[7:0]` (00_scope R9). -/
def lo8 (v : Half) : Byte := v.setWidth 8

/-- `hi8(v) = v[15:8]` (00_scope R9). -/
def hi8 (v : Half) : Byte := (v >>> 8).setWidth 8

/-- `u16be(a, b) = a * 256 + b` (00_scope R9, 20_memory R61). -/
def u16be (a b : Byte) : Half := (a.setWidth 16 <<< 8) ||| b.setWidth 16

/-- The two bytes of `v` as the serial side sends a checksum: low byte first (20_memory R62, 40 R125). -/
def bytesLe (v : Half) : List Byte := [lo8 v, hi8 v]

/-- The two bytes of `v` as the client side sends a field: high byte first (20_memory R61). -/
def bytesBe (v : Half) : List Byte := [hi8 v, lo8 v]

/-- `B[a..b)` (00_scope R10). -/
def slice (b : List Byte) (from' to' : Nat) : List Byte := (b.drop from').take (to' - from')

/-- `MemRead(buf, off, n)`: defined only when `off + n <= len(buf)` (00_scope R11). -/
def memRead (buf : List Byte) (off n : Nat) : Option (List Byte) :=
  if off + n ≤ buf.length then some ((buf.drop off).take n) else none

/-- `MemWrite(buf, off, n, v)` with `n = len(v)`: stores `v` at `buf[off..off+n)` (00_scope R11). -/
def memWrite (buf : List Byte) (off : Nat) (v : List Byte) : Option (List Byte) :=
  if off + v.length ≤ buf.length then some (buf.take off ++ v ++ buf.drop (off + v.length)) else none

end Sys2Proof
end

