-- ==== Sys2Proof/Machine/Crc.lean ====
section
/-! DEFINITION. The checksum generator (40_frame_codec_crc). The engine uses the general form, so that `CRC_PARAMS`
stays a parameter; the reflected, bit-serial and table forms are the spec's other ways to write it. -/

namespace Sys2Proof.Machine

/-- "repeat 8 times". -/
def repeat8 {α : Type} (f : α → α) (x : α) : α := f (f (f (f (f (f (f (f x)))))))

/-- One shift of the general form: to the left, by bit 15 (40 R124). -/
def crcShiftLeft (poly acc : Half) : Half :=
  if acc.getLsbD 15 then (acc <<< 1) ^^^ poly else acc <<< 1

/-- One byte of the general form (40 R124). -/
def crcGeneralByte (p : CrcParams) (acc : Half) (b : Byte) : Half :=
  let b' := if p.refin then b.reverse else b
  repeat8 (crcShiftLeft p.poly) (acc ^^^ (b'.setWidth 16 <<< 8))

/-- `CRC16_general(B)` (40 R124): the engine's `CRC16` under `CRC_PARAMS = p`. -/
def crc16 (p : CrcParams) (b : List Byte) : Half :=
  let acc := b.foldl (crcGeneralByte p) p.init
  (if p.refout then acc.reverse else acc) ^^^ p.xorout

/-- One shift of the reflected form: to the right, by bit 0 (40 R121). -/
def crcShiftRight (acc : Half) : Half :=
  if acc.getLsbD 0 then (acc >>> 1) ^^^ 0xA001 else acc >>> 1

/-- One byte of the reflected form (40 R121). -/
def crcReflectedByte (acc : Half) (b : Byte) : Half := repeat8 crcShiftRight (acc ^^^ b.setWidth 16)

/-- `CRC16(B)` with the default `CRC_PARAMS`, as 40 R121 writes it. -/
def crc16Reflected (b : List Byte) : Half := b.foldl crcReflectedByte 0xFFFF

/-- One bit `d` of the bit-serial form (40 R123). -/
def crcSerialBit (acc : Half) (d : Bool) : Half :=
  let f := acc.getLsbD 0 ^^ d
  let acc' := acc >>> 1
  if f then acc' ^^^ 0xA001 else acc'

/-- The bits of a byte, least significant first. -/
def bitsLsbFirst (b : Byte) : List Bool := (List.range 8).map b.getLsbD

/-- The bit-serial form (40 R123). -/
def crc16Serial (b : List Byte) : Half := (b.flatMap bitsLsbFirst).foldl crcSerialBit 0xFFFF

/-- `T[j]`: the inner loop of 40 R121 started from `acc = zext_16(j)` (40 R123). -/
def crcTable (j : Byte) : Half := repeat8 crcShiftRight (j.setWidth 16)

/-- One byte of the byte-parallel form (40 R123). -/
def crcTableByte (acc : Half) (b : Byte) : Half :=
  (acc >>> 8) ^^^ crcTable ((acc ^^^ b.setWidth 16).setWidth 8)

/-- The byte-parallel form (40 R123). -/
def crc16Parallel (b : List Byte) : Half := b.foldl crcTableByte 0xFFFF

end Sys2Proof.Machine
end

