-- ==== Sys2Proof/Syntax.lean ====
section
/-! DEFINITION. The operations of the engine: one constructor per row of opcode_table.json, in the table's order.
What the spec calls an instruction is an operation of a unit (00_scope R3). A handler's operations name the handler
`i`; an operation to which its rule gives operands (a byte sequence, a reply, codes) carries them. Bytes a client or the
bus provides are taken from the state, not carried by the operation. -/

namespace Sys2Proof

/-- What `RTUDEC(R)` is performed on (43 R205): a reply and the handler that has taken it from its slot. -/
structure TakenReply where
  handler : Nat
  reply   : List Byte
  deriving DecidableEq, Repr

inductive Instr where
  /-- `RLEN.EXC` (41 R149): the echoed code `rfc` differs from the request's `fc`. -/
  | rlenExc (fc rfc third : Byte)
  /-- `RLEN.FC01` (41 R150): `fc = rfc = 0x01`. -/
  | rlenFc01 (third : Byte)
  /-- `RLEN.FC02` (41 R151). -/
  | rlenFc02 (third : Byte)
  /-- `RLEN.FC03` (41 R152). -/
  | rlenFc03 (third : Byte)
  /-- `RLEN.FC04` (41 R153). -/
  | rlenFc04 (third : Byte)
  /-- `RLEN.FC05` (41 R154). -/
  | rlenFc05 (third : Byte)
  /-- `RLEN.FC06` (41 R155). -/
  | rlenFc06 (third : Byte)
  /-- `RLEN.FC0F` (41 R156). -/
  | rlenFc0F (third : Byte)
  /-- `RLEN.FC10` (41 R157). -/
  | rlenFc10 (third : Byte)
  /-- `RLEN.OTHER` (41 R158): `rfc = fc` and `fc` is none of the eight. -/
  | rlenOther (fc third : Byte)
  /-- `CRC16(B)` (40 R121). -/
  | crc16 (b : List Byte)
  /-- `CRCVERIFY(F)` (40 R126). -/
  | crcVerify (f : List Byte)
  /-- `HDRPARSE(B)`, run by handler `i` (41 R141, R143). -/
  | hdrParse (i : Nat) (b : List Byte)
  /-- `EXCBUILD(tid, pid, uid, fc, code)`, run by handler `i` (44 R240). -/
  | excBuild (i : Nat) (tid pid : Half) (uid fc code : Byte)
  /-- `BW.FETCH` (42 R171). -/
  | bwFetch
  /-- `BW.WRITE` (42 R172). -/
  | bwWrite
  /-- `BW.RDHDR` (42 R174). -/
  | bwRdHdr
  /-- `BW.RDTRL` (42 R175). -/
  | bwRdTrl
  /-- `BW.DELIVER` (42 R176). -/
  | bwDeliver
  /-- `BW.QUIET` (42 R177). -/
  | bwQuiet
  /-- `H.OPEN` (43 R200). -/
  | hOpen (i : Nat)
  /-- `H.RECV` (43 R201). -/
  | hRecv (i : Nat)
  /-- `RTUENC` (43 R203). -/
  | rtuEnc (i : Nat)
  /-- `SUBMIT` (43 R204). -/
  | submit (i : Nat)
  /-- `H.AWAIT` (43 R204). -/
  | hAwait (i : Nat)
  /-- `RTUDEC(R)` (43 R205): on the reply H.AWAIT took. -/
  | rtuDec (t : TakenReply)
  /-- `RSPOK(R)` (43 R207). -/
  | rspOk (i : Nat) (r : List Byte)
  /-- `H.SEND` (43 R210). -/
  | hSend (i : Nat)
  /-- `H.CLOSE` (43 R211): from `H_SEND` when `sending`, else from `H_RECV`; the table gives the row both codes. -/
  | hClose (i : Nat) (sending : Bool)
  /-- `UID.BCAST` (30 R96): the unit id `uid` is `0x00` or `0xFF`. -/
  | uidBcast (i : Nat) (uid : Byte)
  /-- `UID.UNICAST` (30 R96): `uid` is `0x01` to `0xFE`. -/
  | uidUnicast (i : Nat) (uid : Byte)
  /-- `PID.MODBUS` (30 R97): the protocol id is `0x0000`. -/
  | pidModbus (i : Nat)
  /-- `PID.OTHER` (30 R97): the protocol id `pid` is not `0x0000`. -/
  | pidOther (i : Nat) (pid : Half)
  deriving DecidableEq, Repr

/-- Why the decoder gives no operation for a word. -/
inductive BadWord where
  /-- Fewer than two bytes: no code and selector. -/
  | noSelector
  /-- The selector byte names no space of the table. -/
  | unknownSelector
  /-- The code is none of the selected space's: codes 6 and 7 of `W.state` (10_state R24), 5 to 7 of `H[i].state`
  (R25), and every larger one. -/
  | unusedCode
  /-- The operand bytes are not as many as the operation takes. -/
  | operandCount
  /-- The operands are outside the operation's range (`WellFormed`). -/
  | operandRange
  deriving DecidableEq, Repr

/-- What decoding a word gives: total on any bytes. -/
inductive Decoded where
  | ok (i : Instr)
  | bad (why : BadWord)
  deriving DecidableEq, Repr

end Sys2Proof
end

