-- ==== Sys2Proof/WellFormed.lean ====
section
/-! DEFINITION. Which operations the table's rows and the word format admit. -/

namespace Sys2Proof

/-- The eight function codes of 30_encoding R95 that have a class. -/
def knownFc (fc : Byte) : Bool :=
  fc == 0x01 || fc == 0x02 || fc == 0x03 || fc == 0x04 || fc == 0x05 || fc == 0x06 || fc == 0x0F || fc == 0x10

/-- `BCAST` (00_scope R7, 30_encoding R96): the broadcast unit ids. -/
def bcastUid (uid : Byte) : Bool := uid == 0x00 || uid == 0xFF

/-- A client port number as an operation word carries it: 16 bits (log 1). -/
def portFits (i : Nat) : Bool := decide (i < 65536)

/-- A byte count as an operation word carries it: 16 bits (log 1). -/
def countFits (b : List Byte) : Bool := decide (b.length < 65536)

/-- The conditions of the table's rows on the operands: `rfc ≠ fc` for RLEN.EXC (41 R149), a code outside the table
for RLEN.OTHER (R158), two bytes at least for CRCVERIFY (40 R126), one client read for HDRPARSE (41 R141), a reply of
REPLY_MAX bytes at most for RTUDEC (43 R205) and of 5 at least for RSPOK (43 R207), the unit-id and protocol-id
classes (30 R96, R97). -/
def WellFormed : Instr → Bool
  | .rlenExc fc rfc _ => rfc != fc
  | .rlenFc01 _ => true
  | .rlenFc02 _ => true
  | .rlenFc03 _ => true
  | .rlenFc04 _ => true
  | .rlenFc05 _ => true
  | .rlenFc06 _ => true
  | .rlenFc0F _ => true
  | .rlenFc10 _ => true
  | .rlenOther fc _ => !knownFc fc
  | .crc16 b => countFits b
  | .crcVerify f => countFits f && decide (2 ≤ f.length)
  | .hdrParse i b => portFits i && decide (b.length ≤ reqMax)
  | .excBuild i _ _ _ _ _ => portFits i
  | .bwFetch => true
  | .bwWrite => true
  | .bwRdHdr => true
  | .bwRdTrl => true
  | .bwDeliver => true
  | .bwQuiet => true
  | .hOpen i => portFits i
  | .hRecv i => portFits i
  | .rtuEnc i => portFits i
  | .submit i => portFits i
  | .hAwait i => portFits i
  | .rtuDec t => portFits t.handler && decide (t.reply.length ≤ replyMax)
  | .rspOk i r => portFits i && decide (5 ≤ r.length) && decide (r.length ≤ replyMax)
  | .hSend i => portFits i
  | .hClose i _ => portFits i
  | .uidBcast i uid => portFits i && bcastUid uid
  | .uidUnicast i uid => portFits i && !bcastUid uid
  | .pidModbus i => portFits i
  | .pidOther i pid => portFits i && pid != 0x0000

end Sys2Proof
end

