-- ==== Sys2Proof/Decode.lean ====
section
/-! DEFINITION. Operation words. The engine fetches no instruction words (20_memory R76), so the word format is the
model's own (log 1): byte 0 is the code the table's row gives (the function code, the sequencer state's 3-bit code,
the unit id, the protocol id's low byte), byte 1 selects which of the table's spaces the code belongs to, operands
follow. Decoding is total, and every word that is no row of the table is rejected by name. -/

namespace Sys2Proof

/-- The selector bytes, one per `format`/`selector` space of opcode_table.json. -/
def selFc : Byte := 0
def selW : Byte := 1
def selH : Byte := 2
def selUid : Byte := 3
def selPid : Byte := 4
def selCall : Byte := 5

/-- A port number or a count in two bytes, low byte first. -/
def nat16 (n : Nat) : List Byte := [BitVec.ofNat 8 n, BitVec.ofNat 8 (n / 256)]

/-- The number two bytes hold, low byte first. -/
def ofNat16 (lo hi : Byte) : Nat := lo.toNat + 256 * hi.toNat

/-- A byte sequence with its count before it. -/
def counted (b : List Byte) : List Byte := nat16 b.length ++ b

/-- Reads what `counted` writes, all of the given bytes being used. -/
def readCounted : List Byte → Option (List Byte)
  | lo :: hi :: b => if b.length = ofNat16 lo hi then some b else none
  | _ => none

/-- Keeps an operation the table and the format admit. -/
def checked (i : Instr) : Decoded := if WellFormed i then .ok i else .bad .operandRange

/-- The function-code map (30_encoding R95, 41 R148): the echo test first, then the class of `fc`. The second
operand is `fc` XOR `rfc`, zero exactly when the echoed code matches. -/
def decodeFc (fc echo third : Byte) : Instr :=
  if echo != 0 then .rlenExc fc (fc ^^^ echo) third
  else if fc == 0x01 then .rlenFc01 third
  else if fc == 0x02 then .rlenFc02 third
  else if fc == 0x03 then .rlenFc03 third
  else if fc == 0x04 then .rlenFc04 third
  else if fc == 0x05 then .rlenFc05 third
  else if fc == 0x06 then .rlenFc06 third
  else if fc == 0x0F then .rlenFc0F third
  else if fc == 0x10 then .rlenFc10 third
  else .rlenOther fc third

/-- The Bus Worker's space: the 3-bit codes of 10_state R24. -/
def decodeW (code : Byte) : List Byte → Decoded
  | [] =>
    if code == 0 then .ok .bwFetch
    else if code == 1 then .ok .bwWrite
    else if code == 2 then .ok .bwRdHdr
    else if code == 3 then .ok .bwRdTrl
    else if code == 4 then .ok .bwDeliver
    else if code == 5 then .ok .bwQuiet
    else .bad .unusedCode
  | _ => .bad .operandCount

/-- The handlers' space: the 3-bit codes of 10_state R25; `sub` tells apart the rows that share a code. -/
def decodeH (code sub : Byte) (i : Nat) : List Byte → Decoded
  | [] =>
    if code == 0 && sub == 0 then checked (.hOpen i)
    else if code == 1 && sub == 0 then checked (.hRecv i)
    else if code == 1 && sub == 1 then checked (.hClose i false)
    else if code == 2 && sub == 0 then checked (.hAwait i)
    else if code == 3 && sub == 0 then checked (.hSend i)
    else if code == 3 && sub == 1 then checked (.hClose i true)
    else if code == 4 && sub == 0 then checked (.rtuEnc i)
    else if code == 4 && sub == 1 then checked (.submit i)
    else if code == 4 && (sub == 2 || sub == 3) then .bad .operandCount
    else .bad .unusedCode
  | rest =>
    if code == 4 && sub == 2 then
      match readCounted rest with
      | some r => checked (.rtuDec { handler := i, reply := r })
      | none => .bad .operandCount
    else if code == 4 && sub == 3 then
      match readCounted rest with
      | some r => checked (.rspOk i r)
      | none => .bad .operandCount
    else .bad .operandCount

/-- The rows the table selects by call: CRC16, CRCVERIFY, HDRPARSE, EXCBUILD, numbered in the table's order. -/
def decodeCall (code : Byte) (ops : List Byte) : Decoded :=
  if code == 0 then
    match readCounted ops with
    | some b => checked (.crc16 b)
    | none => .bad .operandCount
  else if code == 1 then
    match readCounted ops with
    | some f => checked (.crcVerify f)
    | none => .bad .operandCount
  else if code == 2 then
    match ops with
    | il :: ih :: rest =>
      match readCounted rest with
      | some b => checked (.hdrParse (ofNat16 il ih) b)
      | none => .bad .operandCount
    | _ => .bad .operandCount
  else if code == 3 then
    match ops with
    | [il, ih, th, tl, ph, pl, uid, fc, ec] =>
      checked (.excBuild (ofNat16 il ih) (u16be th tl) (u16be ph pl) uid fc ec)
    | _ => .bad .operandCount
  else .bad .unusedCode

/-- The unit-id classes (30_encoding R96). -/
def decodeUid (uid : Byte) (i : Nat) : Instr := if bcastUid uid then .uidBcast i uid else .uidUnicast i uid

/-- The protocol-id classes (30_encoding R97). -/
def decodePid (pid : Half) (i : Nat) : Instr := if pid == 0x0000 then .pidModbus i else .pidOther i pid

/-- The operation a word stands for. -/
def decode : List Byte → Decoded
  | code :: sel :: ops =>
    if sel == selFc then
      match ops with
      | [echo, third] => .ok (decodeFc code echo third)
      | _ => .bad .operandCount
    else if sel == selW then decodeW code ops
    else if sel == selH then
      match ops with
      | sub :: il :: ih :: rest => decodeH code sub (ofNat16 il ih) rest
      | _ => .bad .operandCount
    else if sel == selUid then
      match ops with
      | [il, ih] => .ok (decodeUid code (ofNat16 il ih))
      | _ => .bad .operandCount
    else if sel == selPid then
      match ops with
      | [ph, il, ih] => .ok (decodePid (u16be ph code) (ofNat16 il ih))
      | _ => .bad .operandCount
    else if sel == selCall then decodeCall code ops
    else .bad .unknownSelector
  | _ => .bad .noSelector

/-- The word of an operation, written from the table's codes (opcode_table.json: `match` of each row). -/
def encode : Instr → List Byte
  | .rlenExc fc rfc third => [fc, selFc, fc ^^^ rfc, third]
  | .rlenFc01 third => [0x01, selFc, 0, third]
  | .rlenFc02 third => [0x02, selFc, 0, third]
  | .rlenFc03 third => [0x03, selFc, 0, third]
  | .rlenFc04 third => [0x04, selFc, 0, third]
  | .rlenFc05 third => [0x05, selFc, 0, third]
  | .rlenFc06 third => [0x06, selFc, 0, third]
  | .rlenFc0F third => [0x0F, selFc, 0, third]
  | .rlenFc10 third => [0x10, selFc, 0, third]
  | .rlenOther fc third => [fc, selFc, 0, third]
  | .crc16 b => [0, selCall] ++ counted b
  | .crcVerify f => [1, selCall] ++ counted f
  | .hdrParse i b => [2, selCall] ++ nat16 i ++ counted b
  | .excBuild i tid pid uid fc ec => [3, selCall] ++ nat16 i ++ bytesBe tid ++ bytesBe pid ++ [uid, fc, ec]
  | .bwFetch => [0, selW]
  | .bwWrite => [1, selW]
  | .bwRdHdr => [2, selW]
  | .bwRdTrl => [3, selW]
  | .bwDeliver => [4, selW]
  | .bwQuiet => [5, selW]
  | .hOpen i => [0, selH, 0] ++ nat16 i
  | .hRecv i => [1, selH, 0] ++ nat16 i
  | .rtuEnc i => [4, selH, 0] ++ nat16 i
  | .submit i => [4, selH, 1] ++ nat16 i
  | .hAwait i => [2, selH, 0] ++ nat16 i
  | .rtuDec t => [4, selH, 2] ++ nat16 t.handler ++ counted t.reply
  | .rspOk i r => [4, selH, 3] ++ nat16 i ++ counted r
  | .hSend i => [3, selH, 0] ++ nat16 i
  | .hClose i sending => [if sending then 3 else 1, selH, 1] ++ nat16 i
  | .uidBcast i uid => [uid, selUid] ++ nat16 i
  | .uidUnicast i uid => [uid, selUid] ++ nat16 i
  | .pidModbus i => [0x00, selPid, 0x00] ++ nat16 i
  | .pidOther i pid => [lo8 pid, selPid, hi8 pid] ++ nat16 i

/-- The operation word for bits numbered as opcode_table.json numbers a row's (log 2). The table numbers rows of
several spaces with the same few bits and gives no bit to the space, so the width and the value choose it: 16 bits
are the protocol id, but for `0x00FF`, which is the reader's join of the unit id's two patterns `00000000 | 11111111`;
8 bits are the function code, but for 0, a code of the sequencers only (the first operation after reset, 70 R290);
fewer than 8 bits are the Bus Worker's state. Every bit above is zero. -/
def tableWord (nbits w : Nat) : List Byte :=
  if nbits < 8 then [BitVec.ofNat 8 w, selW]
  else if nbits < 16 then
    if w = 0 then [0, selH, 0, 0, 0] else [BitVec.ofNat 8 w, selFc, 0, 0]
  else if w = 0x00FF then [0xFF, selUid, 0, 0]
  else [BitVec.ofNat 8 w, selPid, BitVec.ofNat 8 (w / 256), 0, 0]

/-- The operation the decoder reads from an operation whose bits, numbered as the table numbers them, are `w`. -/
def decodeTableWord (nbits w : Nat) : Option Instr :=
  match decode (tableWord nbits w) with
  | .ok i => some i
  | .bad _ => none

end Sys2Proof
end

