-- ==== Sys2Proof/Machine/State.lean ====
section
/-! DEFINITION. The state as plain data. `Engine` is the state of the hardware, 10_state R20's table and nothing else.
`Surroundings` is what the outside world and the schedule hold: what stands at the ports (R44 to R47), what moves next
(log 3), the clock and the record of what has crossed the ports (log 17). `State` packs both with the parameter `cfg`
into the one argument the step takes; `StepRelation` in Machine/Step.lean is the same step over `Engine`, with `CFG` as
its parameter. There is no memory: the hardware has no address space (20_memory R60, R69). -/

namespace Sys2Proof.Machine

/-- `W.state` (10_state R24), in the order of its codes. -/
inductive WState where
  | idle | write | rdHdr | rdTrl | deliver | quiet
  deriving DecidableEq, Repr

/-- `H[i].state` (10_state R25), in the order of its codes. -/
inductive HState where
  | closed | recv | await | send | decode
  deriving DecidableEq, Repr

/-- What `SerWrite` and `CliSend` return (00_scope R11). -/
inductive IoResult where
  | ok | fail
  deriving DecidableEq, Repr

/-- Why `HDRPARSE` fails (41 R140); the flag `hdr_err` is `none` or one of these (10_state R27). -/
inductive HdrErr where
  | malformedHeader | unsupportedProtocol | invalidLength
  deriving DecidableEq, Repr

/-- The nine error kinds (60_exceptions R250, R252); the first four are the sub-kinds of `MalformedClientFrame`. -/
inductive ErrKind where
  | tooShort | malformedHeader | unsupportedProtocol | invalidLength
  | noBusReply | shortOrInvalidBusReply | checksumMismatch
  | serialWriteOrReadFailure
  | socketWriteFailure
  deriving DecidableEq, Repr

/-- Who takes steps (00_scope R12). -/
inductive Agent where
  | worker
  | handler (i : Nat)
  deriving DecidableEq, Repr

/-- A Task (10_state R32); `src` realises the reply channel (decision D5). -/
structure Task where
  frame       : List Byte
  src         : Nat
  isBroadcast : Bool
  deriving DecidableEq, Repr

/-- The registers of handler `H[i]` (10_state R21, R25, R33). -/
structure Handler where
  state : HState
  req   : List Byte
  n     : Nat
  tid   : Half
  pid   : Half
  len   : Half
  uid   : Byte
  fc    : Byte
  bc    : Bool
  rslot : Option (List Byte)
  rsp   : List Byte
  deriving DecidableEq, Repr

/-- `W.timer` (10_state R48): whether it runs, and the milliseconds left. -/
structure Timer where
  running : Bool
  left    : BitVec 32
  deriving DecidableEq, Repr

/-- The registers of the Bus Worker (10_state R22, R24, R48). -/
structure Worker where
  state : WState
  task  : Option Task
  hdr   : List Byte
  tlen  : BitVec 9
  trl   : List Byte
  reply : List Byte
  timer : Timer
  deriving DecidableEq, Repr

/-- The one register of the Frame Codec, `CRC.acc` (10_state R23, log 7). -/
structure Codec where
  acc : Half
  deriving DecidableEq, Repr

/-- What the client side of port `i` presents and the handler has not yet taken (10_state R44, R45, 60 R261). -/
structure ClientPort where
  /-- `CliOpen(i)` is raised. -/
  openReq : Bool
  /-- The reads, oldest first; the empty one is the end of the connection (decision D26). -/
  inbound : List (List Byte)
  /-- The answers to `CliSend(i, _)`, oldest first (decision D22). -/
  sendAns : List IoResult
  deriving DecidableEq, Repr

/-- What a `SerRead` returns (00_scope R11, 10_state R47): the bytes that arrived, or `fail`. -/
inductive ReadResult where
  | got (b : List Byte)
  | failed
  deriving DecidableEq, Repr

/-- The serial device's side of the serial port (10_state R46, R47). -/
structure SerialPort where
  /-- The answers to `SerWrite`, oldest first. -/
  writeAns : List IoResult
  /-- The answer to the `SerRead` in progress, once its window has closed. -/
  readAns  : Option ReadResult
  /-- A device read error raised while no window was open waits for the next `SerRead` (60 R261). -/
  rxFail   : Bool
  /-- A read window has closed by its time at this very instant, and no byte has come since: a byte that arrives now
  ties with the window's end (60 R263, log 24). -/
  tie      : Bool
  deriving DecidableEq, Repr

/-- The values of the flags that one operation hands to the next inside a step (10_state R27). -/
inductive FlagValue where
  | crcOk (ok : Bool)
  | hdrErr (e : Option HdrErr)
  deriving DecidableEq, Repr

/-- What crosses a port (10_state R41, R44 to R47). -/
inductive PortEvent where
  | cliOpen (i : Nat)
  | cliRecv (i : Nat) (b : List Byte)
  | cliSend (i : Nat) (b : List Byte) (r : IoResult)
  | cliClose (i : Nat)
  | serWrite (b : List Byte) (r : IoResult)
  /-- A byte arrived from the bus (10_state R47, R50). -/
  | serByte (b : Byte)
  /-- A `SerRead(n, T_SER)` returned these bytes. -/
  | serRead (n : Nat) (b : List Byte)
  /-- A `SerRead(n, T_SER)` returned `fail`. -/
  | serReadFail (n : Nat)
  /-- A reset cut a `SerWrite` off: these bytes of the frame stay on the bus (70 R292). -/
  | serCut (b : List Byte)
  /-- Agent `a` emits error kind `k` on its event port. -/
  | event (a : Agent) (k : ErrKind)
  /-- An operation given as a word hands this flag to whoever gave it (log 7). -/
  | flag (v : FlagValue)
  deriving DecidableEq, Repr

/-- A port event with the time it happened, milliseconds since start. -/
structure Crossing where
  at' : Nat
  ev  : PortEvent
  deriving DecidableEq, Repr

/-- What the outside world can do (30_encoding R112, 60 R261, 70 R292). -/
inductive EnvEvent where
  /-- The Listener raises `CliOpen(i)`. -/
  | cliOpen (i : Nat)
  /-- Client `i` presents one read. -/
  | cliRecv (i : Nat) (b : List Byte)
  /-- Client `i` answers a `CliSend`. -/
  | cliSendAns (i : Nat) (r : IoResult)
  /-- The serial device answers a `SerWrite`. -/
  | serWriteAns (r : IoResult)
  /-- A byte arrives from the bus; one that ties with the end of a window is too late for it (60 R263). -/
  | serByte (b : Byte)
  /-- A byte arrives from the bus; one that ties with the end of a window is still in time (60 R263). -/
  | tiedByte (b : Byte)
  /-- The serial device reports a read error. -/
  | serFail
  /-- Time passes, in milliseconds. -/
  | elapse (ms : Nat)
  /-- The engine is reset and held so for `ms` milliseconds; of a frame that was being written `sent` bytes are on the
  bus (70 R292, log 16). -/
  | reset (ms sent : Nat)
  deriving DecidableEq, Repr

/-- What moves next (log 3). -/
inductive Item where
  | env (e : EnvEvent)
  /-- Agent `a` takes the operation its sequencer state selects. -/
  | turn (a : Agent)
  /-- One operation, given as a word. -/
  | op (word : List Byte)
  deriving DecidableEq, Repr

/-- The five components of the hardware's state (10_state R20). -/
structure Engine where
  /-- `H[0..NCLIENTS)`. -/
  handlers : List Handler
  /-- `Q`, oldest first (10_state R30). -/
  q        : List Task
  /-- `W` (10_state R22). -/
  w        : Worker
  /-- `CRC.acc`. -/
  codec    : Codec
  /-- `SER.rxpend` (10_state R50): bytes received and not returned by a `SerRead`, oldest first. -/
  rxpend   : List Byte
  deriving DecidableEq, Repr

/-- What is not the engine's: its inputs, the schedule, and the record of its outputs. -/
structure Surroundings where
  /-- The client ports, one per handler. -/
  ports    : List ClientPort
  ser      : SerialPort
  /-- Milliseconds since start; no operation reads it (log 17). -/
  now      : Nat
  /-- What has crossed the ports, oldest first; no operation reads it (log 17). -/
  trace    : List Crossing
  /-- What moves next, first first (log 3). -/
  script   : List Item
  deriving DecidableEq, Repr

/-- The one argument of the step: the engine, its surroundings, and the parameter of the step relation. -/
structure State extends Engine, Surroundings where
  /-- The parameters and `CFG`, a parameter and no state: no step writes them (10_state R20, R40; log 4). -/
  cfg      : Config
  deriving DecidableEq, Repr

/-- Why the machine stops. -/
inductive Fault where
  /-- Raised by an operation, a turn or an environment event of a client port `i` that does not exist: the ports are
  numbered `0..NCLIENTS-1` and nothing else is (20_memory R69, 93 U10). Safe: nothing is claimed of such a run. -/
  | noSuchPort (i : Nat)
  deriving DecidableEq, Repr

/-- Why there is no meaning. -/
inductive Refusal where
  /-- An operation whose arm has no meaning yet. Safe. -/
  | notModelled (mnemonic : String)
  /-- Raised by the step on a word that is no row of the table. Safe. -/
  | badOperationWord (why : BadWord)
  /-- Raised when a serial byte arrives while no read window is open and none has closed by its time at that very
  instant, with `RX_STALE = refuse` (70 R302, 93 U4: treatment `refuse`). Safe. -/
  | staleSerialByte
  /-- Raised by H.RECV on a client frame shorter than its length field, with `SHORT_REQ = refuse` (43 R202, 93 U3:
  treatment `refuse`); and by RTUENC and SUBMIT where the frame is not in the handler's registers, which H.RECV leaves
  behind for neither. Safe. -/
  | shortRequest
  /-- Raised when a read window opens with `CFG.T_SER = 0` (93 U9: a timed model refuses it). Safe. -/
  | zeroSerialTimeout
  /-- Raised by CRCVERIFY on fewer than two bytes: "the operation has no meaning" (40 R126). Safe. -/
  | verifyTooShort
  /-- Raised by the environment event of a client read of more than REQ_MAX bytes (10_state R44). Safe. -/
  | readTooLong
  /-- Raised by a second `CliOpen(i)` while one is waiting: more connections than client ports (93 U10: treatment
  `refuse`). Safe. -/
  | portBusy
  deriving DecidableEq, Repr

/-- The three outcomes of a step. -/
abbrev Out := Host.Outcome State Fault Refusal

/-- A handler after reset: `H_CLOSED`, its slot empty (10_state R55); the data registers, which R55 leaves
unspecified, are zero or empty: DESIGN CHOICE (log 9). -/
def Handler.reset : Handler :=
  { state := .closed, req := [], n := 0, tid := 0, pid := 0, len := 0, uid := 0, fc := 0, bc := false, rslot := none,
    rsp := [] }

/-- The Bus Worker after reset (10_state R55; data registers: DESIGN CHOICE, log 9). -/
def Worker.reset : Worker :=
  { state := .idle, task := none, hdr := [0, 0, 0], tlen := 0, trl := [], reply := [],
    timer := { running := false, left := 0 } }

/-- `CRC.acc` at reset (10_state R55 leaves it unspecified: DESIGN CHOICE, log 9). -/
def Codec.reset : Codec := { acc := 0 }

/-- A client port on which nothing is presented. -/
def ClientPort.reset : ClientPort := { openReq := false, inbound := [], sendAns := [] }

/-- A serial port on which nothing is presented. -/
def SerialPort.reset : SerialPort := { writeAns := [], readAns := none, rxFail := false, tie := false }

/-- The state of 10_state R55 and 70 R290 for the parameters `c`: worker idle, queue empty, every handler closed,
every reply slot empty, `SER.rxpend` empty (70 R293). -/
def State.start (c : Config) : State :=
  { handlers := List.replicate c.nclients Handler.reset, q := [], w := Worker.reset, codec := Codec.reset,
    rxpend := [], ports := List.replicate c.nclients ClientPort.reset, ser := SerialPort.reset, now := 0, trace := [],
    script := [], cfg := c }

/-- The machine right after reset. -/
def State.reset : State := State.start Config.default

end Sys2Proof.Machine
end

