-- ==== Sys2Proof/Machine/Operands.lean ====
section
/-! DEFINITION. Every value the engine assembles from frame bytes and every frame it builds (30_encoding R80 to R90,
R95): the header parser, the reply-length inference, the RTU request frame and the two response frames. -/

namespace Sys2Proof.Machine

/-- What `HDRPARSE` gives (41 R140). -/
inductive HdrResult where
  | fields (tid pid len : Half) (uid : Byte)
  | error (e : HdrErr)
  deriving DecidableEq, Repr

/-- `HDRPARSE(B)` as a function (41 R141): the checks in the document's order, nothing past byte 6 looked at
(R144). -/
def hdrParse : List Byte → HdrResult
  | b0 :: b1 :: b2 :: b3 :: b4 :: b5 :: b6 :: _ =>
    let tid := u16be b0 b1
    let pid := u16be b2 b3
    let len := u16be b4 b5
    if pid ≠ 0x0000 then .error .unsupportedProtocol
    else if len.toNat < lenMin ∨ lenMax < len.toNat then .error .invalidLength
    else .fields tid pid len b6
  | _ => .error .malformedHeader

/-- `third + 2` without wrap-around, 9 bits (41 R150, decision D17). -/
def readTypeLen (third : Byte) : BitVec 9 := third.setWidth 9 + 2

/-- `RLEN(fc, rfc, third)` (41 R148, 30_encoding R105): the first test that holds decides. -/
def rlen (fc rfc third : Byte) : BitVec 9 :=
  if rfc ≠ fc then 2
  else if fc = 0x01 then readTypeLen third
  else if fc = 0x02 then readTypeLen third
  else if fc = 0x03 then readTypeLen third
  else if fc = 0x04 then readTypeLen third
  else if fc = 0x05 then 5
  else if fc = 0x06 then 5
  else if fc = 0x0F then 5
  else if fc = 0x10 then 5
  else 0

/-- The RTU payload `REQ[6 .. 6+len)` (30_encoding R90, 43 R203): defined only when the read is that long. -/
def rtuPayload (req : List Byte) (len : Half) : Option (List Byte) := memRead req 6 len.toNat

/-- Format `RTU_REQ`: the payload and its checksum, low byte first (30_encoding R83). -/
def rtuFrame (p : CrcParams) (payload : List Byte) : List Byte := payload ++ bytesLe (crc16 p payload)

/-- The RTU request frame of the request a handler holds (43 R203): what RTUENC hands to SUBMIT. -/
def Handler.frame (p : CrcParams) (h : Handler) : Option (List Byte) := (rtuPayload h.req h.len).map (rtuFrame p)

/-- `RSPOK(R)`: format `RSP_OK` (43 R207, 30_encoding R81). -/
def rspOkFrame (tid pid : Half) (r : List Byte) : List Byte :=
  let rlen' : Half := BitVec.ofNat 16 (r.length - 2)
  bytesBe tid ++ bytesBe pid ++ bytesBe rlen' ++ r.take (r.length - 2)

/-- `EXCBUILD(tid, pid, uid, fc, code)`: format `RSP_EXC` (44 R240, 30_encoding R82). -/
def excFrame (tid pid : Half) (uid fc code : Byte) : List Byte :=
  bytesBe tid ++ bytesBe pid ++ [0x00, 0x03, uid, fc ||| 0x80, code]

/-- `W.task.frame[1]`, the request's function code (41 R148), when the worker holds a task. -/
def State.taskFc (s : State) : Option Byte :=
  match s.w.task with
  | some t => t.frame[1]?
  | none => none

end Sys2Proof.Machine
end

