-- ==== Sys2Proof/Machine/Flags.lean ====
section
/-! DEFINITION. The one-bit conditions of 10_state R27, each computed here and nowhere else. -/

namespace Sys2Proof.Machine

/-- `bc` (10_state R27, 30_encoding R96): the unit id is the reserved broadcast address, 0 or 255. -/
def isBroadcastUid (uid : Byte) : Bool := uid == 0x00 || uid == 0xFF

/-- `crc_ok` (40 R126): the checksum recomputed over all but the last two bytes equals those two, low byte first.
Fewer than two bytes have no checksum; CRCVERIFY is never performed on them. -/
def crcVerify (p : CrcParams) (f : List Byte) : Bool :=
  f.drop (f.length - 2) == bytesLe (crc16 p (f.take (f.length - 2)))

/-- `hdr_err` (10_state R27): what `HDRPARSE` leaves in the flag. -/
def HdrResult.flag : HdrResult → Option HdrErr
  | .fields _ _ _ _ => none
  | .error e => some e

/-- `empty` (10_state R27): `len(R) = 0`. -/
def replyEmpty (r : List Byte) : Bool := r.isEmpty

/-- The error kind a failed parse raises (60_exceptions R250). -/
def HdrErr.kind : HdrErr → ErrKind
  | .malformedHeader => .malformedHeader
  | .unsupportedProtocol => .unsupportedProtocol
  | .invalidLength => .invalidLength

end Sys2Proof.Machine
end

