-- ==== Sys2Proof/Machine/Ops.lean ====
section
/-! DEFINITION. The named operations every meaning is written with: one write per register file, the queue, the reply
channel, the ports, the timer and its windows, and raising an error kind. -/

namespace Sys2Proof.Machine

/-- The agent takes no step: it is not in the state that enables the operation, or what the operation waits for has
not come (10_state R26, 60_exceptions R261, R278; log 8). -/
def waits (s : State) : Out := .next s

/-! ## Registers -/

/-- Writes handler `i`'s registers. -/
def State.setHandler (i : Nat) (h : Handler) (s : State) : State := { s with handlers := s.handlers.set i h }

/-- Writes handler `i`'s registers from their old values. -/
def State.modifyHandler (i : Nat) (f : Handler → Handler) (s : State) : State :=
  { s with handlers := s.handlers.modify i f }

/-- Writes the Bus Worker's registers. -/
def State.setWorker (w : Worker) (s : State) : State := { s with w := w }

/-- Writes the codec's accumulator. -/
def State.setCodec (c : Codec) (s : State) : State := { s with codec := c }

/-- Writes what stands at client port `i`. -/
def State.setPort (i : Nat) (p : ClientPort) (s : State) : State := { s with ports := s.ports.set i p }

/-- Writes what stands at client port `i` from what stood there. -/
def State.modifyPort (i : Nat) (f : ClientPort → ClientPort) (s : State) : State :=
  { s with ports := s.ports.modify i f }

/-- Writes what stands at the serial port. -/
def State.setSerial (p : SerialPort) (s : State) : State := { s with ser := p }

/-- Writes `SER.rxpend`. -/
def State.setPending (rx : List Byte) (s : State) : State := { s with rxpend := rx }

/-- Runs `k` on handler `i`'s registers; a handler that does not exist stops the machine. -/
def withHandler (i : Nat) (s : State) (k : Handler → Out) : Out :=
  match s.handlers[i]? with
  | some h => k h
  | none => .fault (.noSuchPort i)

/-- Runs `k` on handler `i`'s registers and its client port. -/
def withPort (i : Nat) (s : State) (k : Handler → ClientPort → Out) : Out :=
  match s.handlers[i]?, s.ports[i]? with
  | some h, some p => k h p
  | _, _ => .fault (.noSuchPort i)

/-! ## Ports -/

/-- `e` crosses its port now. -/
def State.cross (e : PortEvent) (s : State) : State := { s with trace := s.trace ++ [{ at' := s.now, ev := e }] }

/-- Agent `a` emits error kind `k` on its event port (10_state R41, 60_exceptions R252). -/
def State.emit (a : Agent) (k : ErrKind) (s : State) : State := s.cross (.event a k)

/-! ## Queue and reply channel -/

/-- `Enqueue(t)`: appends at the tail, atomically (10_state R30). -/
def State.enqueue (t : Task) (s : State) : State := { s with q := s.q ++ [t] }

/-- `Dequeue()`: the head and the rest, when there is a head (10_state R30). -/
def State.dequeue (s : State) : Option (Task × State) :=
  match s.q with
  | t :: ts => some (t, { s with q := ts })
  | [] => none

/-- `Deliver(i, R)`: the whole reply appears in the slot (10_state R33). -/
def State.deliver (i : Nat) (r : List Byte) (s : State) : State :=
  s.modifyHandler i fun h => { h with rslot := some r }

/-! ## Timer, windows and serial reads -/

/-- A stopped timer (10_state R48). -/
def Timer.stop (t : Timer) : Timer := { t with running := false }

/-- A timer loaded and started (10_state R48). -/
def Timer.start (ms : BitVec 32) : Timer := { running := true, left := ms }

/-- `TimerExpired` (10_state R48). -/
def Timer.expired (t : Timer) : Bool := t.running && t.left == 0

/-- The timer after `ms` milliseconds: it counts down to zero and stays there (10_state R48). -/
def Timer.elapse (ms : Nat) (t : Timer) : Timer :=
  if t.running then { t with left := BitVec.ofNat 32 (t.left.toNat - ms) } else t

/-- The worker is in a reading state: a `SerRead` is in progress (10_state R24). -/
def State.reading (s : State) : Bool := s.w.state == .rdHdr || s.w.state == .rdTrl

/-- How many bytes the `SerRead` in progress asks for: 3, then `W.tlen` (42 R174, R175). -/
def State.asked (s : State) : Nat :=
  match s.w.state with
  | .rdHdr => 3
  | .rdTrl => s.w.tlen.toNat
  | .idle => 0
  | .write => 0
  | .deliver => 0
  | .quiet => 0

/-- The window of the `SerRead` in progress is open: what closes it has not come yet (42 R173). -/
def State.windowOpen (s : State) : Bool := s.reading && s.ser.readAns.isNone

/-- What closes the window of a `SerRead(n, T)`: a device error, the count reached, or the end of the time (10_state
R47). Each is looked for whenever something happens, so whichever is first closes the window; two can be found together
only when the window opens, and then the error ends the read: DESIGN CHOICE (log 10). -/
def readEnds (n : Nat) (rx : List Byte) (fail expired : Bool) : Option ReadResult :=
  if fail then some .failed
  else if n ≤ rx.length then some (.got (rx.take n))
  else if expired then some (.got rx)
  else none

/-- Closes an open window when something has closed it. The bytes it took are the read's, also when the read returns
fewer than it asked or fails (20_memory R67, 42 R180, 60_exceptions R257); what comes later is not. DESIGN CHOICE (log
10): a window that opens on kept bytes and on an error that has waited takes the bytes it asks for, and its failed read
discards them with the rest of the transaction; the spec does not say whether they stay for the next read. -/
def State.settle (s : State) : State :=
  if s.windowOpen then
    match readEnds s.asked s.rxpend s.ser.rxFail s.w.timer.expired with
    | some r =>
      { s with rxpend := s.rxpend.drop s.asked, ser := { s.ser with readAns := some r, rxFail := false } }
    | none => s
  else s

/-- Opens a read window of length `CFG.T_SER` and enters the reading state `st` (42 R173, 10_state R48); a timed
model refuses `T_SER = 0` (93 U9). Bytes that are still pending are the first it takes (70 R302, `keep`). -/
def State.openWindow (st : WState) (s : State) : Out :=
  if s.cfg.tSer = 0 then .refused .zeroSerialTimeout
  else .next
    ((s.setWorker { s.w with state := st, timer := Timer.start s.cfg.tSer }).setSerial
      { s.ser with readAns := none, tie := false }).settle

/-- Ends the bus part of a transaction with the reply `r`: `W.reply <- r ; W.state <- W_DELIVER` (42 R172 to R175,
10_state R48). -/
def State.finish (r : List Byte) (s : State) : State :=
  s.setWorker { s.w with reply := r, state := .deliver, timer := s.w.timer.stop }

/-- The return of a `SerRead(n, T)` as it crosses the serial port. -/
def ReadResult.crossing (n : Nat) : ReadResult → PortEvent
  | .got b => .serRead n b
  | .failed => .serReadFail n

/-- `SerRead(n, T_SER)` returns once its window has closed (10_state R47); `none` while it is open. -/
def State.serRead (n : Nat) (s : State) : Option (ReadResult × State) :=
  match s.ser.readAns with
  | some r => some (r, (s.setSerial { s.ser with readAns := none }).cross (r.crossing n))
  | none => none

/-! ## Error kinds -/

/-- `H.CLOSE` (43 R211): `CliClose(i)`, then `H_CLOSED`. What the ended connection still presented at the port goes
with it (60_exceptions R264; log 14). -/
def State.closeConnection (i : Nat) (s : State) : State :=
  ((s.modifyHandler i fun h => { h with state := .closed }).modifyPort i
    fun p => { p with inbound := [], sendAns := [] }).cross (.cliClose i)

/-- A bus-level failure at handler `i` becomes the one exception response (60_exceptions R254, 44 R240, R241). -/
def State.synthesize (i : Nat) (s : State) : State :=
  s.modifyHandler i fun h => { h with rsp := excFrame h.tid h.pid h.uid h.fc excCode, state := .send }

/-- Raising error kind `k` in agent `a`: the agent emits the event, then does what the kind's entry rule says
(60_exceptions R253 to R258). Nothing is saved and there is no return (R260, R264). -/
def State.raise (k : ErrKind) (a : Agent) (s : State) : State :=
  match k, a with
  | .tooShort, .handler i => (s.emit a k).closeConnection i
  | .malformedHeader, .handler i => (s.emit a k).closeConnection i
  | .unsupportedProtocol, .handler i => (s.emit a k).closeConnection i
  | .invalidLength, .handler i => (s.emit a k).closeConnection i
  | .socketWriteFailure, .handler i => (s.emit a k).closeConnection i
  | .noBusReply, .handler i => (s.emit a k).synthesize i
  | .shortOrInvalidBusReply, .handler i => (s.emit a k).synthesize i
  | .checksumMismatch, .handler i => (s.emit a k).synthesize i
  | .serialWriteOrReadFailure, .worker => (s.emit a k).finish []
  | .serialWriteOrReadFailure, .handler _ => s.emit a k
  | .tooShort, .worker => s.emit a k
  | .malformedHeader, .worker => s.emit a k
  | .unsupportedProtocol, .worker => s.emit a k
  | .invalidLength, .worker => s.emit a k
  | .socketWriteFailure, .worker => s.emit a k
  | .noBusReply, .worker => s.emit a k
  | .shortOrInvalidBusReply, .worker => s.emit a k
  | .checksumMismatch, .worker => s.emit a k

end Sys2Proof.Machine
end

