-- ==== Sys2Proof/Machine/BusWorker.lean ====
section
/-! DEFINITION. The Bus Worker's operations (42_bus_worker R171 to R177), each enabled in one state of `W.state`. -/

namespace Sys2Proof.Machine

/-- `BW.FETCH` (42 R171): the oldest task; while `Q` is empty the worker takes no step. -/
def execBwFetch (s : State) : Out :=
  if s.w.state = .idle then
    match s.dequeue with
    | some (t, s1) => .next (s1.setWorker { s1.w with task := some t, state := .write })
    | none => waits s
  else waits s

/-- What `RX_STALE = flush` does at BW.WRITE (70 R302): the worker discards `SER.rxpend`. -/
def State.flushStale (s : State) : State := if s.cfg.rxStale = .flush then s.setPending [] else s

/-- `BW.WRITE` (42 R172): one `SerWrite` of the whole frame, when the device has answered it. -/
def execBwWrite (s : State) : Out :=
  if s.w.state = .write then
    match s.w.task, s.ser.writeAns with
    | some t, r :: rs =>
      let s1 := (s.flushStale.setSerial { s.ser with writeAns := rs }).cross (.serWrite t.frame r)
      match r with
      | .fail => .next (s1.raise .serialWriteOrReadFailure .worker)
      | .ok => if t.isBroadcast then .next (s1.finish []) else s1.openWindow .rdHdr
    | _, _ => waits s
  else waits s

/-- `BW.RDHDR` (42 R174): the first window. -/
def execBwRdHdr (s : State) : Out :=
  if s.w.state = .rdHdr then
    match s.taskFc, s.serRead 3 with
    | some _, some (.failed, s1) => .next (s1.raise .serialWriteOrReadFailure .worker)
    | some fc, some (.got h, s1) =>
      match h with
      | [_, b1, b2] =>
        let tlen := rlen fc b1 b2
        let s2 := s1.setWorker { s1.w with hdr := h, tlen := tlen }
        if tlen = 0 then .next (s2.finish []) else s2.openWindow .rdTrl
      | _ => .next (s1.finish [])
    | _, _ => waits s
  else waits s

/-- `BW.RDTRL` (42 R175): the second window. -/
def execBwRdTrl (s : State) : Out :=
  if s.w.state = .rdTrl then
    match s.serRead s.w.tlen.toNat with
    | some (.failed, s1) => .next (s1.raise .serialWriteOrReadFailure .worker)
    | some (.got t, s1) =>
      if t.length < s.w.tlen.toNat then .next (s1.finish [])
      else .next ((s1.setWorker { s1.w with trl := t }).finish (s.w.hdr ++ t))
    | none => waits s
  else waits s

/-- `BW.DELIVER` (42 R176): the reply into the submitter's slot, and the quiet period starts. -/
def execBwDeliver (s : State) : Out :=
  if s.w.state = .deliver then
    match s.w.task with
    | some t =>
      .next ((s.deliver t.src s.w.reply).setWorker
        { s.w with task := none, timer := Timer.start s.cfg.tIfd, state := .quiet })
    | none => waits s
  else waits s

/-- `BW.QUIET` (42 R177): enabled by `TimerExpired`. -/
def execBwQuiet (s : State) : Out :=
  if s.w.state = .quiet ∧ s.w.timer.expired then
    .next (s.setWorker { s.w with state := .idle, timer := s.w.timer.stop })
  else waits s

end Sys2Proof.Machine
end

