-- ==== Sys2Proof/Machine/FrameCodec.lean ====
section
/-! DEFINITION. The Frame Codec's operations but for the reply-length inference: CRC16, CRCVERIFY (40_frame_codec_crc)
and HDRPARSE (41 R141). The parser runs on behalf of the handler that calls it, in the state it calls it in (log
18). -/

namespace Sys2Proof.Machine

/-- `CRC16` (40 R121, R124): the accumulator's final content is the result (10_state R23). -/
def State.runCrc (b : List Byte) (s : State) : State := s.setCodec { s.codec with acc := crc16 s.cfg.crc b }

/-- `CRCVERIFY` (40 R126) recomputes the checksum of all but the last two bytes; its result is `crcVerify`. -/
def State.runVerify (f : List Byte) (s : State) : State := s.runCrc (f.take (f.length - 2))

/-- `CRC16(B)` (40 R121). -/
def execCrc16 (b : List Byte) (s : State) : Out := .next (s.runCrc b)

/-- `CRCVERIFY(F)` (40 R126) hands `crc_ok` to whoever gave the word (log 7); with fewer than two bytes "the operation
has no meaning". -/
def execCrcVerify (f : List Byte) (s : State) : Out :=
  if f.length < 2 then .refused .verifyTooShort
  else .next ((s.runVerify f).cross (.flag (.crcOk (crcVerify s.cfg.crc f))))

/-- `HDRPARSE(B)` run by handler `i` in `H_RECV`, where H.RECV calls it (41 R141, 43 R201): the flag `hdr_err`, then
the four results into the handler's registers (41 R143), or the error kind (60_exceptions R253). -/
def execHdrParse (i : Nat) (b : List Byte) (s : State) : Out :=
  withHandler i s fun h =>
    if h.state = .recv then
      let s1 := s.cross (.flag (.hdrErr (hdrParse b).flag))
      match hdrParse b with
      | .fields tid pid len uid => .next (s1.setHandler i { h with tid := tid, pid := pid, len := len, uid := uid })
      | .error e => .next (s1.raise e.kind (.handler i))
    else waits s

end Sys2Proof.Machine
end

