-- ==== Sys2Proof/Machine/ConnectionHandler.lean ====
section
/-! DEFINITION. The Connection Handler's operations (43_connection_handler R200 to R211), each enabled in one state of
`H[i].state`. The step that runs H.RECV or H.AWAIT runs the operations of `H_DECODE` that follow it too (10_state R25,
log 6; `State.continuation`). -/

namespace Sys2Proof.Machine

/-- `H.OPEN` (43 R200). -/
def execHOpen (i : Nat) (s : State) : Out :=
  withPort i s fun h p =>
    if h.state = .closed ∧ p.openReq then
      .next (((s.setPort i { p with openReq := false }).setHandler i { h with state := .recv }).cross (.cliOpen i))
    else waits s

/-- `H.RECV` (43 R201): one read, the handler's own 6-byte test, the parser, and the read against the length field
(R202). -/
def execHRecv (i : Nat) (s : State) : Out :=
  withPort i s fun h p =>
    if h.state = .recv then
      match p.inbound with
      | [] => waits s
      | b :: rest =>
        let h1 := { h with req := b, n := b.length }
        let s1 := ((s.setPort i { p with inbound := rest }).setHandler i h1).cross (.cliRecv i b)
        if b.length < 6 then .next (s1.raise .tooShort (.handler i))
        else
          match hdrParse b with
          | .error e => .next (s1.raise e.kind (.handler i))
          | .fields tid pid len uid =>
            if b.length < 6 + len.toNat then
              match s.cfg.shortReq with
              | .refuse => .refused .shortRequest
              | .close => .next (s1.raise .tooShort (.handler i))
            else
              .next (s1.setHandler i { h1 with tid := tid, pid := pid, len := len, uid := uid, state := .decode })
    else waits s

/-- `RTUENC` (43 R203). A read shorter than the frame has no meaning here (R202). -/
def execRtuEnc (i : Nat) (s : State) : Out :=
  withHandler i s fun h =>
    if h.state = .decode then
      match h.req[7]?, rtuPayload h.req h.len with
      | some fc, some p => .next ((s.runCrc p).setHandler i { h with bc := isBroadcastUid h.uid, fc := fc })
      | _, _ => .refused .shortRequest
    else waits s

/-- `SUBMIT` (43 R204): the frame RTUENC has made of the request, which is a function of the handler's registers. -/
def execSubmit (i : Nat) (s : State) : Out :=
  withHandler i s fun h =>
    if h.state = .decode then
      match h.frame s.cfg.crc with
      | some frame =>
        .next ((s.enqueue { frame := frame, src := i, isBroadcast := h.bc }).setHandler i { h with state := .await })
      | none => .refused .shortRequest
    else waits s

/-- `H.AWAIT` (43 R204): enabled when the slot holds a reply, which it empties; RTUDEC follows with that reply. -/
def execHAwait (i : Nat) (s : State) : Out :=
  withHandler i s fun h =>
    if h.state = .await then
      match h.rslot with
      | some _ => .next (s.setHandler i { h with rslot := none, state := .decode })
      | none => waits s
    else waits s

/-- `RTUDEC(R)` (43 R205), the tests in its order. -/
def execRtuDec (t : TakenReply) (s : State) : Out :=
  withHandler t.handler s fun h =>
    let i := t.handler
    let r := t.reply
    if h.state = .decode then
      if h.bc then .next (s.setHandler i { h with state := .recv })
      else if replyEmpty r then .next (s.raise .noBusReply (.handler i))
      else if r.length < 5 then .next (s.raise .shortOrInvalidBusReply (.handler i))
      else if crcVerify s.cfg.crc r then
        .next ((s.runVerify r).setHandler i { h with rsp := rspOkFrame h.tid h.pid r, state := .send })
      else .next ((s.runVerify r).raise .checksumMismatch (.handler i))
    else waits s

/-- `RSPOK(R)` (43 R207): writes `H[i].rsp`, where RTUDEC calls it and for a reply it calls it for (log 18). -/
def execRspOk (i : Nat) (r : List Byte) (s : State) : Out :=
  withHandler i s fun h =>
    if h.state = .decode ∧ 5 ≤ r.length ∧ crcVerify s.cfg.crc r then
      .next (s.setHandler i { h with rsp := rspOkFrame h.tid h.pid r })
    else waits s

/-- `H.SEND` (43 R210): one `CliSend` of the whole response, when the client side has answered it. -/
def execHSend (i : Nat) (s : State) : Out :=
  withPort i s fun h p =>
    if h.state = .send then
      match p.sendAns with
      | [] => waits s
      | r :: rs =>
        let s1 := (s.setPort i { p with sendAns := rs }).cross (.cliSend i h.rsp r)
        match r with
        | .fail => .next (s1.raise .socketWriteFailure (.handler i))
        | .ok => .next (s1.setHandler i { h with state := .recv })
    else waits s

/-- `H.CLOSE` (43 R211), from the state its code names (log 19). -/
def execHClose (i : Nat) (sending : Bool) (s : State) : Out :=
  withHandler i s fun h =>
    if h.state = (if sending then .send else .recv) then .next (s.closeConnection i) else waits s

end Sys2Proof.Machine
end

