-- ==== Sys2Proof/Machine/ExceptionSynthesizer.lean ====
section
/-! DEFINITION. The Exception Synthesizer's operation (44_exception_synthesizer R240). -/

namespace Sys2Proof.Machine

/-- `EXCBUILD(tid, pid, uid, fc, code)` run by handler `i` where RTUDEC calls it (43 R205): the 9-byte response into
`H[i].rsp` (10_state R21; log 18). -/
def execExcBuild (i : Nat) (tid pid : Half) (uid fc code : Byte) (s : State) : Out :=
  withHandler i s fun h =>
    if h.state = .decode then .next (s.setHandler i { h with rsp := excFrame tid pid uid fc code }) else waits s

end Sys2Proof.Machine
end

