-- ==== Sys2Proof/Machine/ReplyLength.lean ====
section
/-! DEFINITION. The reply-length inference, one operation per class of function code (41 R148 to R158, 30_encoding
R95). BW.RDHDR calls it in `W_RDHDR` (42 R174); its result is `W.tlen` (10_state R22). A result of 0 makes the
caller, not this operation, discard the reply (41 R148). -/

namespace Sys2Proof.Machine

/-- Writes `W.tlen` in the state the Bus Worker calls the inference in (log 18). -/
def State.inferred (tlen : BitVec 9) (s : State) : Out :=
  if s.w.state = .rdHdr then .next (s.setWorker { s.w with tlen := tlen }) else waits s

/-- `RLEN.EXC` (41 R149): 2, whatever the codes and the third byte are. -/
def execRlenExc (_fc _rfc _third : Byte) (s : State) : Out := s.inferred 2
/-- `RLEN.FC01` (41 R150). -/
def execRlenFc01 (third : Byte) (s : State) : Out := s.inferred (readTypeLen third)
/-- `RLEN.FC02` (41 R151). -/
def execRlenFc02 (third : Byte) (s : State) : Out := s.inferred (readTypeLen third)
/-- `RLEN.FC03` (41 R152). -/
def execRlenFc03 (third : Byte) (s : State) : Out := s.inferred (readTypeLen third)
/-- `RLEN.FC04` (41 R153). -/
def execRlenFc04 (third : Byte) (s : State) : Out := s.inferred (readTypeLen third)
/-- `RLEN.FC05` (41 R154). -/
def execRlenFc05 (_third : Byte) (s : State) : Out := s.inferred 5
/-- `RLEN.FC06` (41 R155). -/
def execRlenFc06 (_third : Byte) (s : State) : Out := s.inferred 5
/-- `RLEN.FC0F` (41 R156). -/
def execRlenFc0F (_third : Byte) (s : State) : Out := s.inferred 5
/-- `RLEN.FC10` (41 R157). -/
def execRlenFc10 (_third : Byte) (s : State) : Out := s.inferred 5
/-- `RLEN.OTHER` (41 R158): 0. -/
def execRlenOther (_fc _third : Byte) (s : State) : Out := s.inferred 0

end Sys2Proof.Machine
end

