-- ==== Sys2Proof/Machine/Selectors.lean ====
section
/-! DEFINITION. The two classes beside the function code (00_scope R3): the unit-id class, which RTUENC computes (43
R203), and the protocol-id class, which HDRPARSE tests (41 R141). -/

namespace Sys2Proof.Machine

/-- Writes `H[i].bc` in the state RTUENC computes it in (log 18). -/
def State.classified (i : Nat) (bc : Bool) (s : State) : Out :=
  withHandler i s fun h =>
    if h.state = .decode then .next (s.setHandler i { h with bc := bc }) else waits s

/-- `UID.BCAST` (30_encoding R96): `bc = 1`. -/
def execUidBcast (i : Nat) (_uid : Byte) (s : State) : Out := s.classified i true

/-- `UID.UNICAST` (30_encoding R96): `bc = 0`. -/
def execUidUnicast (i : Nat) (_uid : Byte) (s : State) : Out := s.classified i false

/-- `PID.MODBUS` (30_encoding R97): accepted, `hdr_err = none`. -/
def execPidModbus (i : Nat) (s : State) : Out :=
  withHandler i s fun h =>
    if h.state = .recv then .next (s.cross (.flag (.hdrErr none))) else waits s

/-- `PID.OTHER` (30_encoding R97): `UnsupportedProtocol`, connection-fatal (60_exceptions R253). -/
def execPidOther (i : Nat) (_pid : Half) (s : State) : Out :=
  withHandler i s fun h =>
    if h.state = .recv then
      .next ((s.cross (.flag (.hdrErr (some .unsupportedProtocol)))).raise .unsupportedProtocol (.handler i))
    else waits s

end Sys2Proof.Machine
end

