-- ==== Sys2Proof/Machine/Dispatch.lean ====
section
/-! DEFINITION. One arm per operation of opcode_table.json, in the table's order. -/

namespace Sys2Proof.Machine

def exec (i : Instr) (s : State) : Host.Outcome State Fault Refusal :=
  match i with
  | .rlenExc fc rfc third => Sys2Proof.Machine.execRlenExc fc rfc third s
  | .rlenFc01 third => Sys2Proof.Machine.execRlenFc01 third s
  | .rlenFc02 third => Sys2Proof.Machine.execRlenFc02 third s
  | .rlenFc03 third => Sys2Proof.Machine.execRlenFc03 third s
  | .rlenFc04 third => Sys2Proof.Machine.execRlenFc04 third s
  | .rlenFc05 third => Sys2Proof.Machine.execRlenFc05 third s
  | .rlenFc06 third => Sys2Proof.Machine.execRlenFc06 third s
  | .rlenFc0F third => Sys2Proof.Machine.execRlenFc0F third s
  | .rlenFc10 third => Sys2Proof.Machine.execRlenFc10 third s
  | .rlenOther fc third => Sys2Proof.Machine.execRlenOther fc third s
  | .crc16 b => Sys2Proof.Machine.execCrc16 b s
  | .crcVerify f => Sys2Proof.Machine.execCrcVerify f s
  | .hdrParse n b => Sys2Proof.Machine.execHdrParse n b s
  | .excBuild n tid pid uid fc code => Sys2Proof.Machine.execExcBuild n tid pid uid fc code s
  | .bwFetch => Sys2Proof.Machine.execBwFetch s
  | .bwWrite => Sys2Proof.Machine.execBwWrite s
  | .bwRdHdr => Sys2Proof.Machine.execBwRdHdr s
  | .bwRdTrl => Sys2Proof.Machine.execBwRdTrl s
  | .bwDeliver => Sys2Proof.Machine.execBwDeliver s
  | .bwQuiet => Sys2Proof.Machine.execBwQuiet s
  | .hOpen n => Sys2Proof.Machine.execHOpen n s
  | .hRecv n => Sys2Proof.Machine.execHRecv n s
  | .rtuEnc n => Sys2Proof.Machine.execRtuEnc n s
  | .submit n => Sys2Proof.Machine.execSubmit n s
  | .hAwait n => Sys2Proof.Machine.execHAwait n s
  | .rtuDec n => Sys2Proof.Machine.execRtuDec n s
  | .rspOk n r => Sys2Proof.Machine.execRspOk n r s
  | .hSend n => Sys2Proof.Machine.execHSend n s
  | .hClose n sending => Sys2Proof.Machine.execHClose n sending s
  | .uidBcast n uid => Sys2Proof.Machine.execUidBcast n uid s
  | .uidUnicast n uid => Sys2Proof.Machine.execUidUnicast n uid s
  | .pidModbus n => Sys2Proof.Machine.execPidModbus n s
  | .pidOther n pid => Sys2Proof.Machine.execPidOther n pid s

end Sys2Proof.Machine
end

