-- ==== Sys2Proof/Machine/Environment.lean ====
section
/-! DEFINITION. What the outside world does between the agents' steps (30_encoding R112, 60_exceptions R261): it
presents something at a port, a byte arrives, time passes, the engine is reset. -/

namespace Sys2Proof.Machine

/-- Client port `i` is changed by the client side; a port that does not exist stops the machine. -/
def withClientPort (i : Nat) (s : State) (k : ClientPort → Out) : Out :=
  match s.ports[i]? with
  | some p => k p
  | none => .fault (.noSuchPort i)

/-- A byte that arrives once `ms` milliseconds have passed ties with the end of a read window (60 R263): the time of
the open window ends just then, or the tie already stood and no time passes. -/
def State.tieAfter (ms : Nat) (s : State) : Bool :=
  if ms = 0 then s.ser.tie else s.windowOpen && s.w.timer.running && s.w.timer.left.toNat == ms

/-- `ms` milliseconds pass; the end of a window closes it (10_state R48, 42 R173). -/
def State.elapse (ms : Nat) (s : State) : State :=
  { s with
    now := s.now + ms, w := { s.w with timer := s.w.timer.elapse ms },
    ser := { s.ser with tie := s.tieAfter ms } }.settle

/-- A byte arrives from the bus. An open window takes it, and closes with the last byte it asks for. While no window is
open `RX_STALE` decides (10_state R50, 70 R302); but a byte that comes at the very instant at which a window has closed
by its time ends no run under any value of it (60 R263, 93 U5): with `refuse`, which keeps no byte, it is lost (DESIGN
CHOICE, log 24). Its arrival is activity on the bus, and is recorded as such (log 17). -/
def arrive (b : Byte) (s : State) : Out :=
  let s1 := (s.setSerial { s.ser with tie := false }).cross (.serByte b)
  if s.windowOpen ∨ s.cfg.rxStale ≠ .refuse then .next (s1.setPending (s.rxpend ++ [b])).settle
  else if s.ser.tie then .next s1
  else .refused .staleSerialByte

/-- A byte arrives that, if it ties with the end of a window, is still in time (60 R263): while the answer of that
read stands, the byte is its last. Every other byte arrives as any byte does. -/
def arriveInTime (b : Byte) (s : State) : Out :=
  match s.ser.tie, s.ser.readAns with
  | true, some (.got bs) =>
    .next ((s.setSerial { s.ser with readAns := some (.got (bs ++ [b])), tie := false }).cross (.serByte b))
  | _, _ => arrive b s

/-- A reset in the middle of a `SerWrite` leaves the bytes already sent on the bus (70 R292). -/
def State.cutWrite (sent : Nat) (s : State) : State :=
  match s.w.task with
  | some t => if s.w.state = .write ∧ 0 < sent then s.cross (.serCut (t.frame.take sent)) else s
  | none => s

/-- A reset, held for `ms` milliseconds (70 R292): the state of R290, everything in flight lost, the data registers as
log 9 has them. What stands at the ports is cleared with it; the parameters, what has crossed the ports, the clock and
the schedule are not the engine's to lose (log 16). -/
def resetEngine (ms sent : Nat) (s : State) : State :=
  { State.start s.cfg with now := s.now + ms, trace := (s.cutWrite sent).trace, script := s.script }

/-- The effect of an environment event. An event whose receiver is not in the enabling state waits at the port
(60_exceptions R261). -/
def applyEnv (e : EnvEvent) (s : State) : Out :=
  match e with
  | .cliOpen i =>
    withClientPort i s fun p =>
      if p.openReq then .refused .portBusy else .next (s.setPort i { p with openReq := true })
  | .cliRecv i b =>
    withClientPort i s fun p =>
      if reqMax < b.length then .refused .readTooLong
      else .next (s.setPort i { p with inbound := p.inbound ++ [b] })
  | .cliSendAns i r =>
    withClientPort i s fun p => .next (s.setPort i { p with sendAns := p.sendAns ++ [r] })
  | .serWriteAns r => .next (s.setSerial { s.ser with writeAns := s.ser.writeAns ++ [r] })
  | .serByte b => arrive b s
  | .tiedByte b => arriveInTime b s
  | .serFail => .next (s.setSerial { s.ser with rxFail := true }).settle
  | .elapse ms => .next (s.elapse ms)
  | .reset ms sent => .next (resetEngine ms sent s)

end Sys2Proof.Machine
end

