-- ==== Sys2Proof/Machine/Sequencer.lean ====
section
/-! DEFINITION. The sequencer states are the program counter's analogue (00_scope R3): each selects the operation its
agent takes next (42 R178, 43 R213; the `match` of opcode_table.json's `W.state` and `H.state` rows). -/

namespace Sys2Proof.Machine

/-- The 3-bit code of `W.state` (10_state R24). -/
def WState.code : WState → BitVec 3
  | .idle => 0
  | .write => 1
  | .rdHdr => 2
  | .rdTrl => 3
  | .deliver => 4
  | .quiet => 5

/-- The 3-bit code of `H[i].state` (10_state R25). -/
def HState.code : HState → BitVec 3
  | .closed => 0
  | .recv => 1
  | .await => 2
  | .send => 3
  | .decode => 4

/-- The operation the Bus Worker's sequencer selects. -/
def WState.select : WState → Instr
  | .idle => .bwFetch
  | .write => .bwWrite
  | .rdHdr => .bwRdHdr
  | .rdTrl => .bwRdTrl
  | .deliver => .bwDeliver
  | .quiet => .bwQuiet

/-- The operation handler `i`'s sequencer selects; none in `H_DECODE`, in which no step begins (10_state R25). -/
def HState.select (i : Nat) : HState → Option Instr
  | .closed => some (.hOpen i)
  | .recv => some (.hRecv i)
  | .await => some (.hAwait i)
  | .send => some (.hSend i)
  | .decode => none

/-- The operations of handler `i`'s loop pass that complete the step H.RECV begins: steps 2 to 5 of the loop are one
atomic step (10_state R25), so that RTUENC and SUBMIT follow in it (43 R201, R203, R204). Where the handler is not
receiving, nothing follows; after an error of H.RECV the handler is closed, and both wait. -/
def State.afterRecv (i : Nat) (s : State) : List Instr :=
  match s.handlers[i]? with
  | some h => if h.state = .recv then [.rtuEnc i, .submit i] else []
  | none => []

/-- The operation that completes the step H.AWAIT begins: steps 6 to 8 are one atomic step (10_state R25), in which
RTUDEC follows on the reply H.AWAIT takes from the slot (43 R204, R205). -/
def State.afterAwait (i : Nat) (s : State) : List Instr :=
  match s.handlers[i]? with
  | some h =>
    match h.rslot with
    | some r => if h.state = .await then [.rtuDec { handler := i, reply := r }] else []
    | none => []
  | none => []

/-- What completes a step that begins with `op` in state `s` (10_state R25, log 6); every other operation is a step by
itself. -/
def State.continuation (op : Instr) (s : State) : List Instr :=
  match op with
  | .hRecv i => s.afterRecv i
  | .hAwait i => s.afterAwait i
  | .rlenExc _ _ _ | .rlenFc01 _ | .rlenFc02 _ | .rlenFc03 _ | .rlenFc04 _ | .rlenFc05 _ | .rlenFc06 _
  | .rlenFc0F _ | .rlenFc10 _ | .rlenOther _ _ | .crc16 _ | .crcVerify _ | .hdrParse _ _ | .excBuild _ _ _ _ _ _
  | .bwFetch | .bwWrite | .bwRdHdr | .bwRdTrl | .bwDeliver | .bwQuiet | .hOpen _ | .rtuEnc _ | .submit _
  | .rtuDec _ | .rspOk _ _ | .hSend _ | .hClose _ _ | .uidBcast _ _ | .uidUnicast _ _ | .pidModbus _
  | .pidOther _ _ => []

end Sys2Proof.Machine
end

