-- ==== Sys2Proof/Machine/Issue.lean ====
section
/-! DEFINITION. What one item of the schedule does (log 3). -/

namespace Sys2Proof.Machine

/-- Runs operations one after the other, with nothing between them. -/
def runAll : List Instr → State → Out
  | [], s => .next s
  | op :: ops, s =>
    match exec op s with
    | .next t => runAll ops t
    | .fault r => .fault r
    | .refused r => .refused r

/-- One step of an agent that begins with `op`: the operation, and what completes its loop pass (10_state R25). -/
def perform (op : Instr) (s : State) : Out := runAll (op :: s.continuation op) s

/-- An environment event; a step that begins with the operation an agent's sequencer selects, or with an operation
given as a word, which is decoded. -/
def issue (it : Item) (s : State) : Out :=
  match it with
  | .env e => applyEnv e s
  | .turn .worker => perform s.w.state.select s
  | .turn (.handler i) =>
    withHandler i s fun h =>
      match h.state.select i with
      | some op => perform op s
      | none => waits s
  | .op word =>
    match decode word with
    | .ok op => perform op s
    | .bad why => .refused (.badOperationWord why)

/-- One step of the schedule: its first item, which is used up. With nothing scheduled every agent waits
(60_exceptions R278). -/
def runSchedule (s : State) : Out :=
  match s.script with
  | [] => waits s
  | it :: rest => issue it { s with script := rest }

/-- Puts the operation word that the table's numbering of `w` stands for at the head of the schedule. -/
def scheduleWord (s : State) (nbits w : Nat) : State := { s with script := .op (tableWord nbits w) :: s.script }

end Sys2Proof.Machine
end

