-- ==== Sys2Proof/Machine/Step.lean ====
section
/-! DEFINITION. One step of the machine, the first item of its schedule (log 3), and the step relation of 10_state R20
over the engine's state. -/

namespace Sys2Proof.Machine

/-- One step. -/
def step : State → Host.Outcome State Fault Refusal := runSchedule

/-- The step relation of 10_state R20: its state is the engine's and no more, and the configuration `c` is its
parameter, the same before and after (R40). The surroundings `x` and `x'` are its inputs and outputs. -/
def StepRelation (c : Config) (e : Engine) (x : Surroundings) (e' : Engine) (x' : Surroundings) : Prop :=
  step { toEngine := e, toSurroundings := x, cfg := c } = .next { toEngine := e', toSurroundings := x', cfg := c }

/-- `s` with the operation the table numbers `w` stored where the step takes its next operation from: the head of the
schedule. -/
def State.withFetchWord (s : State) (nbits w : Nat) : State := scheduleWord s nbits w

end Sys2Proof.Machine
end

