-- ==== Sys2Proof/Safety.lean ====
section
/-! DEFINITION. What every run of the engine keeps, in the terms the statements use: the occupancy of queue, worker and
reply slots (10_state R31 to R34), what each sequencer state says of the registers it reads (42 R179, 43 R212), the
bounds of the buffers (20_memory R68), and the quiet period between transactions (20_memory R72). -/

namespace Sys2Proof.Machine

/-- An RTU Reply is empty or has 5 to REPLY_MAX bytes (10_state R34). -/
def ReplyShape (r : List Byte) : Prop := r = [] ∨ (5 ≤ r.length ∧ r.length ≤ replyMax)

/-- A correctly checksummed RTU request frame: a payload of 6 to 250 bytes and its checksum (30_encoding R83). -/
def FrameShape (p : CrcParams) (frame : List Byte) : Prop :=
  ∃ payload : List Byte, frame = rtuFrame p payload ∧ lenMin ≤ payload.length ∧ payload.length ≤ lenMax

/-- `frame`, made by the handler, is correctly checksummed, and `uid`, `fc` and `bc` are what its first two bytes
say. -/
def Handler.Made (p : CrcParams) (h : Handler) (frame : List Byte) : Prop :=
  FrameShape p frame ∧ frame[0]? = some h.uid ∧ frame[1]? = some h.fc ∧ h.bc = isBroadcastUid h.uid

/-- The handler has accepted a header: the protocol id is 0, the length is legal (10_state R21, 41 R142). -/
def Handler.Accepted (h : Handler) : Prop := h.pid = 0 ∧ lenMin ≤ h.len.toNat ∧ h.len.toNat ≤ lenMax

/-- What a handler's sequencer state says of its registers. -/
structure Handler.Ok (h : Handler) : Prop where
  /-- The read and its count, within REQ_MAX (10_state R21, 20_memory R68). -/
  count : h.n = h.req.length ∧ h.n ≤ reqMax
  /-- The slot holds a reply only while the handler awaits one (43 R200, R211). -/
  slot : h.rslot ≠ none → h.state = .await
  /-- `H_DECODE` is transient: it never lasts across a step (10_state R25). -/
  transient : h.state ≠ .decode
  /-- While a task is out, the handler keeps the header it was made from. -/
  await : h.state = .await → h.Accepted ∧ h.bc = isBroadcastUid h.uid
  /-- A delivered reply is empty or complete, and empty for a broadcast (10_state R34, 42 R172). -/
  reply : ∀ r, h.rslot = some r → ReplyShape r ∧ (h.bc = true → r = [])
  /-- A response is never sent for a broadcast, and has 9 to 264 bytes (43 R205, R207, 44 R240). -/
  send : h.state = .send →
    h.Accepted ∧ isBroadcastUid h.uid = false ∧ h.bc = false ∧ 9 ≤ h.rsp.length ∧ h.rsp.length ≤ 264

/-- What the Bus Worker's sequencer state says of its registers (42 R178, R179). -/
structure Worker.Ok (w : Worker) : Prop where
  /-- A task is held exactly from the fetch to the delivery. -/
  held : w.task = none ↔ w.state = .idle ∨ w.state = .quiet
  /-- The timer runs exactly in the two windows and the quiet period (10_state R48). -/
  timer : w.timer.running = true ↔ w.state = .rdHdr ∨ w.state = .rdTrl ∨ w.state = .quiet
  /-- No read is made for a broadcast (42 R172). -/
  hdr : ∀ t, w.task = some t → w.state = .rdHdr → t.isBroadcast = false
  /-- In the second window the header is in, and `W.tlen` is what the inference gives for it (42 R174). -/
  trl : ∀ t, w.task = some t → w.state = .rdTrl → t.isBroadcast = false ∧ w.tlen ≠ 0 ∧
    ∃ b0 b1 b2 fc, w.hdr = [b0, b1, b2] ∧ t.frame[1]? = some fc ∧ w.tlen = rlen fc b1 b2
  /-- What is delivered is empty or complete, and empty for a broadcast. -/
  reply : ∀ t, w.task = some t → w.state = .deliver →
    ReplyShape w.reply ∧ (t.isBroadcast = true → w.reply = [])

/-- The tasks in the engine: the worker's, then the queue's. -/
def State.tasks (s : State) : List Task := s.w.task.toList ++ s.q

/-- Handler `i` has a task out and no reply yet. -/
def State.Waiting (s : State) (i : Nat) : Prop :=
  ∃ h, s.handlers[i]? = some h ∧ h.state = .await ∧ h.rslot = none

/-- What holds of the read windows (10_state R47, 42 R173). -/
structure State.WindowOk (s : State) : Prop where
  /-- Only a read in progress has an answer. -/
  answered : s.ser.readAns ≠ none → s.reading = true
  /-- A read returns at most the bytes it asked for, and fewer while a byte may tie with its end (60 R263). -/
  bounded : ∀ b, s.ser.readAns = some (.got b) → b.length ≤ s.asked ∧ (s.ser.tie = true → b.length < s.asked)
  /-- An open window has closed for no reason yet: bytes are missing, time is left, no error is raised. -/
  opened : s.windowOpen = true →
    s.rxpend.length < s.asked ∧ s.w.timer.left ≠ 0 ∧ s.ser.rxFail = false ∧ s.ser.tie = false
  /-- With `RX_STALE = refuse` no byte is pending that no open window asks for (70 R302). -/
  stale : s.cfg.rxStale = .refuse → s.windowOpen = false → s.rxpend = []

/-- The invariant of the engine. -/
structure State.Inv (s : State) : Prop where
  /-- One handler and one port per client (10_state R20). -/
  sizes : s.handlers.length = s.cfg.nclients ∧ s.ports.length = s.cfg.nclients
  handlers : ∀ (i : Nat) (h : Handler), s.handlers[i]? = some h → h.Ok
  /-- A read presented at a port has at most REQ_MAX bytes (10_state R44). -/
  ports : ∀ (i : Nat) (p : ClientPort), s.ports[i]? = some p → ∀ b ∈ p.inbound, b.length ≤ reqMax
  worker : s.w.Ok
  /-- Every task is its submitter's, who made it and waits for it (10_state R32, R33). -/
  owned : ∀ t ∈ s.tasks, ∃ h, s.handlers[t.src]? = some h ∧ h.state = .await ∧ h.rslot = none ∧
    h.Made s.cfg.crc t.frame ∧ t.isBroadcast = h.bc
  /-- Every waiting handler has a task. -/
  outstanding : ∀ i, s.Waiting i → i ∈ s.tasks.map Task.src
  /-- At most one task of any one handler (10_state R31). -/
  single : (s.tasks.map Task.src).Nodup
  window : s.WindowOk

/-- A serial event of the engine: a write or a read of the serial port (10_state R46, R47), or a write that a reset cut
off. The arrival of a byte is the bus's own, which the engine does not order (20_memory R72). -/
def PortEvent.serial : PortEvent → Bool
  | .serWrite _ _ => true
  | .serByte _ => false
  | .serRead _ _ => true
  | .serReadFail _ => true
  | .serCut _ => true
  | .cliOpen _ => false
  | .cliRecv _ _ => false
  | .cliSend _ _ _ => false
  | .cliClose _ => false
  | .event _ _ => false
  | .flag _ => false

/-- The start of a transaction on the bus: the write of a frame, whole or cut off by a reset. -/
def PortEvent.busWrite : PortEvent → Bool
  | .serWrite _ _ => true
  | .serByte _ => false
  | .serCut _ => true
  | .serRead _ _ => false
  | .serReadFail _ => false
  | .cliOpen _ => false
  | .cliRecv _ _ => false
  | .cliSend _ _ _ => false
  | .cliClose _ => false
  | .event _ _ => false
  | .flag _ => false

/-- The bus is not idle: a serial event of the engine, or a byte that arrives. -/
def PortEvent.busActive : PortEvent → Bool
  | .serByte _ => true
  | .serWrite _ _ => true
  | .serRead _ _ => true
  | .serReadFail _ => true
  | .serCut _ => true
  | .cliOpen _ => false
  | .cliRecv _ _ => false
  | .cliSend _ _ _ => false
  | .cliClose _ => false
  | .event _ _ => false
  | .flag _ => false

/-- Between any serial event and a later write of a frame at least `ifd` milliseconds lie (20_memory R72). -/
def Spaced (ifd : Nat) (trace : List Crossing) : Prop :=
  trace.Pairwise fun a b => a.ev.serial = true → b.ev.busWrite = true → a.at' + ifd ≤ b.at'

/-- Every serial event of `trace` lies at least `ifd` milliseconds before `time`. -/
def QuietBefore (ifd : Nat) (trace : List Crossing) (time : Nat) : Prop :=
  ∀ c ∈ trace, c.ev.serial = true → c.at' + ifd ≤ time

/-- The bus has been idle for `ms` milliseconds at `time`: nothing was written to it, read from it or received from it
later than that long before. -/
def IdleBus (ms : Nat) (trace : List Crossing) (time : Nat) : Prop :=
  ∀ c ∈ trace, c.ev.busActive = true → c.at' + ms ≤ time

/-- The quiet period is kept: in the trace so far, and by what the timer still counts (42 R177, 20_memory R72). -/
structure State.Quiet (s : State) : Prop where
  past : ∀ c ∈ s.trace, c.at' ≤ s.now
  spaced : Spaced s.cfg.tIfd.toNat s.trace
  ready : s.w.state = .idle ∨ s.w.state = .write → QuietBefore s.cfg.tIfd.toNat s.trace s.now
  counting : s.w.state = .quiet →
    s.w.timer.running = true ∧ QuietBefore s.cfg.tIfd.toNat s.trace (s.now + s.w.timer.left.toNat)

/-- What the environment owes the bus when it resets the engine: at the release of the reset the bus has been idle for
at least `CFG.T_IFD` (70 R293 item 3, 93 U15). Of a step that is no reset it asks nothing. -/
def State.ResetWhenIdle (s : State) : Prop :=
  ∀ ms sent rest, s.script = .env (.reset ms sent) :: rest →
    IdleBus s.cfg.tIfd.toNat (s.cutWrite sent).trace (s.now + ms)

/-- Every transition of `W.state` (42 R178), and staying. -/
inductive WTransition : WState → WState → Prop where
  | stay (w : WState) : WTransition w w
  | fetch : WTransition .idle .write
  | wrote : WTransition .write .deliver
  | wroteAwaiting : WTransition .write .rdHdr
  | noHeader : WTransition .rdHdr .deliver
  | header : WTransition .rdHdr .rdTrl
  | trailer : WTransition .rdTrl .deliver
  | delivered : WTransition .deliver .quiet
  | quietOver : WTransition .quiet .idle

/-- Every transition of `H[i].state` (43 R213), and staying. A step that runs through the transient `H_DECODE`
(10_state R25) makes two of R213's at once. -/
inductive HTransition : HState → HState → Prop where
  | stay (h : HState) : HTransition h h
  | opened : HTransition .closed .recv
  | rejected : HTransition .recv .closed
  /-- "`H_DECODE`, then `H_AWAIT`". -/
  | accepted : HTransition .recv .await
  | submitted : HTransition .decode .await
  /-- To `H_DECODE`, and from there as a broadcast. -/
  | answeredBroadcast : HTransition .await .recv
  /-- To `H_DECODE`, and from there to the response. -/
  | answered : HTransition .await .send
  | broadcastDone : HTransition .decode .recv
  | respond : HTransition .decode .send
  | sent : HTransition .send .recv
  | sendFailed : HTransition .send .closed

end Sys2Proof.Machine
end

