-- ==== Sys2Proof/Certificates/Slice0/Obligations.lean ====
section
/-! DEFINITION. The statements for the provers. Each docstring names the rule of spec/ it formalises. A result
statement gives the whole next state, so it is its own frame: what the equation does not list is unchanged. -/

open Sys2Proof Sys2Proof.Machine

/-! ## Operation words -/

/-- Decoding an encoded well-formed operation gives it back, whatever its operands (log 1: the word format is the
model's own). -/
def Obligations.EncodedOperationDecodes : Prop :=
  ∀ i : Instr, WellFormed i = true → decode (encode i) = .ok i

/-- Every word that decodes is the one word of its operation, and the operation is well-formed. The word format is the
model's own (log 1). -/
def Obligations.DecodedWordIsItsEncoding : Prop :=
  ∀ (w : List Byte) (i : Instr), decode w = .ok i → WellFormed i = true ∧ encode i = w

/-- Words decode to the rows whose codes they carry: a function code, a worker state, two handler states, a unit id, a
protocol id, a call; codes 6 and 7 of `W.state` are unused (10_state R24). The codes are the table's; the byte that
names the space, the echo byte, the layout of the operands and the 16-bit port numbers are the model's (logs 1, 25). -/
def Obligations.WrittenWordsDecode : Prop :=
  decode [0x03, 0, 0x00, 0x02] = .ok (.rlenFc03 0x02) ∧
  decode [0x03, 0, 0x80, 0x02] = .ok (.rlenExc 0x03 0x83 0x02) ∧
  decode [0x10, 0, 0x00, 0x00] = .ok (.rlenFc10 0x00) ∧
  decode [0x07, 0, 0x00, 0x05] = .ok (.rlenOther 0x07 0x05) ∧
  decode [0b100, 1] = .ok .bwDeliver ∧
  decode [0b110, 1] = .bad .unusedCode ∧
  decode [0b111, 1] = .bad .unusedCode ∧
  decode [0b001, 2, 0, 3, 0] = .ok (.hRecv 3) ∧
  decode [0b011, 2, 1, 0, 1] = .ok (.hClose 256 true) ∧
  decode [0xFF, 3, 1, 0] = .ok (.uidBcast 1 0xFF) ∧
  decode [0x00, 4, 0x01, 0, 0] = .ok (.pidOther 0 0x0100) ∧
  decode [1, 5, 2, 0, 0xFF, 0xFF] = .ok (.crcVerify [0xFF, 0xFF])

/-- The function-code map (30_encoding R95) as words of the model's format (log 1): the word with code `fc`, echo
difference `fc XOR rfc` and third byte `third` decodes to an operation that, where the Bus Worker infers the length (log
18), writes `RLEN(fc, rfc, third)` into `W.tlen` and changes nothing else. -/
def Obligations.CodeMapWordsInferLength : Prop :=
  ∀ fc rfc third : Byte, ∃ i : Instr, decode [fc, 0, fc ^^^ rfc, third] = .ok i ∧
    ∀ s : State, s.w.state = .rdHdr → exec i s = .next { s with w := { s.w with tlen := rlen fc rfc third } }

/-! ## The step, reset, and what every step keeps -/

/-- A step whose schedule begins with a word begins with the operation the word decodes to; a word that decodes to
nothing is refused by its name. An operation is a step by itself, but for H.RECV of a receiving handler, which RTUENC
and SUBMIT follow in the same step, and H.AWAIT of a reply, which RTUDEC follows on that reply (10_state R25: a model
may make each one atomic step; that this one does is log 6's). Words and the schedule they stand in are the model's
(logs 1, 3). -/
def Obligations.StepRunsDecodedWord : Prop :=
  (∀ (s : State) (word : List Byte) (rest : List Item), s.script = .op word :: rest →
    (∀ op, decode word = .ok op → step s = perform op { s with script := rest }) ∧
    (∀ why, decode word = .bad why → step s = .refused (.badOperationWord why))) ∧
  (∀ (s : State) (op : Instr), (∀ i, op ≠ .hRecv i ∧ op ≠ .hAwait i) → perform op s = exec op s) ∧
  (∀ (s : State) (i : Nat),
    ((∀ h, s.handlers[i]? = some h → h.state ≠ .recv) ∨ (∀ u, exec (.hRecv i) s ≠ .next u) →
      perform (.hRecv i) s = exec (.hRecv i) s) ∧
    (∀ h u v, s.handlers[i]? = some h → h.state = .recv → exec (.hRecv i) s = .next u → exec (.rtuEnc i) u = .next v →
      perform (.hRecv i) s = exec (.submit i) v) ∧
    ((∀ h, s.handlers[i]? = some h → h.state ≠ .await ∨ h.rslot = none) →
      perform (.hAwait i) s = exec (.hAwait i) s) ∧
    (∀ h r u, s.handlers[i]? = some h → h.state = .await → h.rslot = some r → exec (.hAwait i) s = .next u →
      perform (.hAwait i) s = exec (.rtuDec ⟨i, r⟩) u))

/-- A turn of an agent begins a step with the operation its sequencer state selects (00_scope R3, 10_state R24, R25;
turns are items of the schedule, log 3); no step begins in `H_DECODE` (log 6). -/
def Obligations.TurnRunsSelectedOperation : Prop :=
  (∀ (s : State) (rest : List Item), s.script = .turn .worker :: rest →
    step s = exec
      (match s.w.state with
        | .idle => .bwFetch | .write => .bwWrite | .rdHdr => .bwRdHdr
        | .rdTrl => .bwRdTrl | .deliver => .bwDeliver | .quiet => .bwQuiet) { s with script := rest }) ∧
  (∀ (s : State) (i : Nat) (h : Handler) (rest : List Item), s.script = .turn (.handler i) :: rest →
    s.handlers[i]? = some h →
    step s = (match h.state with
      | .closed => exec (.hOpen i) { s with script := rest }
      | .recv => perform (.hRecv i) { s with script := rest }
      | .await => perform (.hAwait i) { s with script := rest }
      | .send => exec (.hSend i) { s with script := rest }
      | .decode => .next { s with script := rest }))

/-- The values 10_state R55 and 70 R290 state for reset, for any parameters: worker idle and holding no task, timer
stopped, queue empty, every handler closed with an empty slot, no serial byte pending, the configured values. -/
def Obligations.ResetLeavesNothingInFlight : Prop :=
  ∀ c : Config,
    (State.start c).w.state = .idle ∧ (State.start c).w.task = none ∧ (State.start c).w.timer.running = false ∧
    (State.start c).q = [] ∧ (State.start c).rxpend = [] ∧ (State.start c).cfg = c ∧
    (State.start c).handlers.length = c.nclients ∧
    ∀ h ∈ (State.start c).handlers, h.state = .closed ∧ h.rslot = none

/-- The state after reset meets the two invariants, for any parameters. That a handler's count `n` fits its read then
rests on log 9's values: 10_state R55 leaves both unspecified. -/
def Obligations.ResetMeetsInvariants : Prop :=
  ∀ c : Config, (State.start c).Inv ∧ (State.start c).Quiet

/-- Every step keeps the invariant of the engine: occupancy and ownership of tasks and slots (10_state R31 to R34),
registers written before they are read (42 R179, 43 R212), correctly checksummed frames, buffer bounds (20_memory
R68), read windows closed by whatever is first (10_state R47), no stale byte under `RX_STALE = refuse` (70 R302), no
handler left in the transient `H_DECODE` (10_state R25; that a pass through it is one step is log 6's). Across a reset
it rests on what the model lets a reset leave in the data registers and at the ports (logs 9 and 16). -/
def Obligations.StepKeepsInvariant : Prop :=
  ∀ s t : State, s.Inv → step s = .next t → t.Inv

/-- Every step keeps the quiet period: in everything that has crossed the ports, a frame is written at least
`CFG.T_IFD` after every earlier serial event (20_memory R72, 42 R177). Of a reset the environment owes that the bus has
been idle for `CFG.T_IFD` when it is released, which counts what was written and read and every byte that arrived (70
R293 item 3; that a premise says so is log 16's). -/
def Obligations.StepKeepsQuietPeriod : Prop :=
  ∀ s t : State, s.Quiet → s.ResetWhenIdle → step s = .next t → t.Quiet

/-- A frame is written, whole or cut off by a reset, only in `W_WRITE`, so never while a read is pending, and at least
the inter-frame delay after every earlier serial event (20_memory R72, property P6 of 95). -/
def Obligations.FrameWrittenOnlyAfterQuiet : Prop :=
  ∀ (s t : State) (new : List Crossing), s.Quiet → step s = .next t → t.trace = s.trace ++ new →
    ∀ c ∈ new, c.ev.busWrite = true →
      s.w.state = .write ∧ ∀ e ∈ s.trace, e.ev.serial = true → e.at' + s.cfg.tIfd.toNat ≤ c.at'

/-- Every transition of `W.state` is one of 42 R178's, unless the engine is reset. -/
def Obligations.WorkerTransitions : Prop :=
  ∀ s t : State, step s = .next t →
    WTransition s.w.state t.w.state ∨ ∃ ms sent rest, s.script = .env (.reset ms sent) :: rest

/-- Every transition of `H[i].state` is one of 43 R213's, or two of them through the transient `H_DECODE` (10_state R25,
log 6), unless the engine is reset. -/
def Obligations.HandlerTransitions : Prop :=
  ∀ (s t : State) (i : Nat) (h h' : Handler), step s = .next t → s.handlers[i]? = some h → t.handlers[i]? = some h' →
    HTransition h.state h'.state ∨ ∃ ms sent rest, s.script = .env (.reset ms sent) :: rest

/-- `CFG` and the other parameters never change (10_state R40), so that every step is one of the step relation over the
engine's five components and its surroundings whose parameter `CFG` is (R20); what has crossed a port is never taken
back, and time never runs backwards (log 17). That a reset too keeps the three is the model's choice (logs 4, 16). -/
def Obligations.ConfigurationAndHistoryStay : Prop :=
  ∀ s t : State, step s = .next t →
    t.cfg = s.cfg ∧ StepRelation s.cfg s.toEngine s.toSurroundings t.toEngine t.toSurroundings ∧
    s.trace <+: t.trace ∧ s.now ≤ t.now

/-- The queue changes only by a task joining at the tail or the head leaving to the worker (10_state R30, 42 R181),
unless the engine is reset. -/
def Obligations.QueueIsFirstInFirstOut : Prop :=
  ∀ s t : State, step s = .next t →
    t.q = s.q ∨ (∃ x, t.q = s.q ++ [x] ∧ t.w.task = s.w.task) ∨ (∃ x, s.q = x :: t.q ∧ t.w.task = some x) ∨
    ∃ ms sent rest, s.script = .env (.reset ms sent) :: rest

/-- Queue and worker together hold at most `NCLIENTS` tasks, and at most one task of any handler (10_state R31). -/
def Obligations.OccupancyBound : Prop :=
  ∀ s : State, s.Inv →
    s.q.length + (if s.w.task = none then 0 else 1) ≤ s.cfg.nclients ∧
    ∀ i, (s.tasks.filter fun t => t.src == i).length ≤ 1

/-- A handler's operations leave every other handler and its port, the worker, the serial port and the parameters as
they are, and the queue too but for the task SUBMIT appends (10_state R21, 60 R270). -/
def Obligations.HandlerOperationsAreIsolated : Prop :=
  ∀ (i : Nat) (op : Instr) (s t : State),
    (op = .hOpen i ∨ op = .hRecv i ∨ op = .rtuEnc i ∨ op = .submit i ∨ op = .hAwait i ∨
      (∃ r, op = .rtuDec ⟨i, r⟩) ∨
      (∃ r, op = .rspOk i r) ∨ op = .hSend i ∨ (∃ b, op = .hClose i b) ∨ (∃ b, op = .hdrParse i b) ∨
      (∃ tid pid uid fc ec, op = .excBuild i tid pid uid fc ec) ∨ (∃ u, op = .uidBcast i u) ∨
      (∃ u, op = .uidUnicast i u) ∨ op = .pidModbus i ∨ (∃ p, op = .pidOther i p)) →
    exec op s = .next t →
    (∀ j, j ≠ i → t.handlers[j]? = s.handlers[j]?) ∧ (∀ j, j ≠ i → t.ports[j]? = s.ports[j]?) ∧
    t.handlers.length = s.handlers.length ∧ t.ports.length = s.ports.length ∧
    t.w = s.w ∧ t.ser = s.ser ∧ t.rxpend = s.rxpend ∧ t.cfg = s.cfg ∧ t.now = s.now ∧
    (t.q = s.q ∨ op = .submit i ∧ ∃ x, x.src = i ∧ t.q = s.q ++ [x])

/-- The Bus Worker's operations touch no client port and no handler register but the reply slot that BW.DELIVER
fills, and they keep the number of handlers (10_state R21, R33, 60 R270). -/
def Obligations.WorkerOperationsAreIsolated : Prop :=
  ∀ (op : Instr) (s t : State),
    (op = .bwFetch ∨ op = .bwWrite ∨ op = .bwRdHdr ∨ op = .bwRdTrl ∨ op = .bwDeliver ∨ op = .bwQuiet) →
    exec op s = .next t →
    t.ports = s.ports ∧ t.codec = s.codec ∧ t.cfg = s.cfg ∧ t.now = s.now ∧ t.script = s.script ∧
    (op ≠ .bwDeliver → t.handlers = s.handlers) ∧ t.handlers.length = s.handlers.length ∧
    ∀ (i : Nat) (h h' : Handler), s.handlers[i]? = some h → t.handlers[i]? = some h' →
      h' = h ∨ h' = { h with rslot := some s.w.reply } ∧ ∃ x, s.w.task = some x ∧ x.src = i

/-- Only BW.WRITE, BW.RDHDR and BW.RDTRL reach the serial port and its pending bytes (20_memory R60, 60 R270). -/
def Obligations.OnlyWorkerUsesSerialPort : Prop :=
  ∀ (op : Instr) (s t : State), exec op s = .next t →
    t.ser ≠ s.ser ∨ t.rxpend ≠ s.rxpend ∨
      (∃ new, t.trace = s.trace ++ new ∧ ∃ c ∈ new, c.ev.serial = true) →
    op = .bwWrite ∨ op = .bwRdHdr ∨ op = .bwRdTrl

/-- No client receives a byte for a broadcast, and what a client receives is its handler's whole response
(property P5 of 95, 43 R205, R210). -/
def Obligations.BroadcastIsNeverAnswered : Prop :=
  ∀ (s t : State) (new : List Crossing), s.Inv → step s = .next t → t.trace = s.trace ++ new →
    ∀ c ∈ new, ∀ i b r, c.ev = .cliSend i b r →
      ∃ h, s.handlers[i]? = some h ∧ h.state = .send ∧ b = h.rsp ∧ h.uid ≠ 0x00 ∧ h.uid ≠ 0xFF

/-- The machine's one fault is a client port that does not exist (log 15; the ports are numbered `0..NCLIENTS-1`,
00_scope R7). A step may also be refused; of that this says nothing. -/
def Obligations.OnlyMissingPortsFault : Prop :=
  ∀ (s : State) (r : Fault), s.handlers.length = s.ports.length → step s = .fault r →
    ∃ i, r = .noSuchPort i ∧ s.handlers.length ≤ i

/-! ## The checksum -/

/-- The round trip of 40 R127: for every byte sequence and whatever `CRC_PARAMS` is, CRCVERIFY accepts the sequence
with its checksum appended low byte first, the empty one included. With the default `CRC_PARAMS` (decision D1, log 5:
PRESUMED) the frame of the empty sequence is `FF FF`. How the result is shown is log 7's. -/
def Obligations.ChecksumRoundTrip : Prop :=
  (∀ (b : List Byte) (s : State),
    exec (.crcVerify (b ++ [lo8 (crc16 s.cfg.crc b), hi8 (crc16 s.cfg.crc b)])) s = .next { s with
      codec := { acc := crc16 s.cfg.crc b }, trace := s.trace ++ [⟨s.now, .flag (.crcOk true)⟩] }) ∧
  crcVerify CrcParams.modbus [0xFF, 0xFF] = true

/-- With the default `CRC_PARAMS` the general form of 40 R124, which the engine uses, the form of R121 and the two
hardware forms of R123 are one function (the parameters are the spec's decision D1, log 5). -/
def Obligations.ChecksumFormsAgree : Prop :=
  ∀ b : List Byte, crc16 CrcParams.modbus b = crc16Reflected b ∧ crc16Serial b = crc16Reflected b ∧
    crc16Parallel b = crc16Reflected b

/-- With the default `CRC_PARAMS` a frame verifies exactly when its checksum over the whole is zero (40 R126, a
corner case the spec derives). -/
def Obligations.VerifiedMeansZeroRemainder : Prop :=
  ∀ f : List Byte, 2 ≤ f.length → (crcVerify CrcParams.modbus f = true ↔ crc16 CrcParams.modbus f = 0x0000)

/-- CRC16 writes the checksum of its operand into the accumulator and nothing else (40 R120, R121, R124); with the
default parameters it is the value R121's loop gives. -/
def Obligations.ChecksumIsAccumulated : Prop :=
  ∀ (b : List Byte) (s : State),
    exec (.crc16 b) s = .next { s with codec := { acc := crc16 s.cfg.crc b } } ∧
    (s.cfg.crc = CrcParams.modbus →
      exec (.crc16 b) s = .next { s with codec := { acc := crc16Reflected b } })

/-- CRCVERIFY of a body and two bytes gives `crc_ok = 1` exactly when they are the body's checksum, low byte first (40
R126; how the flag is shown is log 7's); fewer than two bytes are refused: "the operation has no meaning". -/
def Obligations.VerifyComparesLastTwoBytes : Prop :=
  (∀ (body : List Byte) (lo hi : Byte) (s : State),
    exec (.crcVerify (body ++ [lo, hi])) s = .next { s with
      codec := { acc := crc16 s.cfg.crc body },
      trace := s.trace ++ [⟨s.now, .flag (.crcOk
        (decide (lo8 (crc16 s.cfg.crc body) = lo ∧ hi8 (crc16 s.cfg.crc body) = hi)))⟩] }) ∧
  (∀ (f : List Byte) (s : State), f.length < 2 → exec (.crcVerify f) s = .refused .verifyTooShort)

/-! ## Header parser, reply length, response builders -/

/-- HDRPARSE of a header with protocol id 0 and a legal length stores the four fields in the calling handler, with
`hdr_err = none` (41 R141, R143; it runs where H.RECV calls it, log 18; how the flag is shown is log 7's). -/
def Obligations.HeaderIsParsed : Prop :=
  ∀ (s : State) (i : Nat) (h : Handler) (t0 t1 l0 l1 u : Byte) (rest : List Byte),
    s.handlers[i]? = some h → h.state = .recv →
    6 ≤ l0.toNat * 256 + l1.toNat → l0.toNat * 256 + l1.toNat ≤ 250 →
    exec (.hdrParse i (t0 :: t1 :: 0 :: 0 :: l0 :: l1 :: u :: rest)) s = .next { s with
      trace := s.trace ++ [⟨s.now, .flag (.hdrErr none)⟩],
      handlers := s.handlers.set i { h with
        tid := BitVec.ofNat 16 (t0.toNat * 256 + t1.toNat), pid := 0,
        len := BitVec.ofNat 16 (l0.toNat * 256 + l1.toNat), uid := u } }

/-- The parser never looks past byte 6: what follows changes nothing, whatever the length field says (41 R144). -/
def Obligations.ParserStopsAtByteSix : Prop :=
  ∀ (s : State) (i : Nat) (b0 b1 b2 b3 b4 b5 b6 : Byte) (rest rest' : List Byte),
    exec (.hdrParse i (b0 :: b1 :: b2 :: b3 :: b4 :: b5 :: b6 :: rest)) s =
      exec (.hdrParse i (b0 :: b1 :: b2 :: b3 :: b4 :: b5 :: b6 :: rest')) s

/-- HDRPARSE's three errors in the order of 41 R141, each ending the connection with its event and no byte to the
client (60 R253, R262). How the flag is shown is log 7's; that what the ended connection still presented goes with it is
log 14's. -/
def Obligations.HeaderErrorsClose : Prop :=
  ∀ (s : State) (i : Nat) (h : Handler) (p : ClientPort), s.handlers[i]? = some h → s.ports[i]? = some p →
    h.state = .recv →
    let rejects (b : List Byte) (e : HdrErr) (k : ErrKind) : Prop :=
      exec (.hdrParse i b) s = .next { s with
        handlers := s.handlers.set i { h with state := .closed },
        ports := s.ports.set i { p with inbound := [], sendAns := [] },
        trace := s.trace ++ [⟨s.now, .flag (.hdrErr (some e))⟩, ⟨s.now, .event (.handler i) k⟩,
          ⟨s.now, .cliClose i⟩] }
    (∀ b : List Byte, b.length < 7 → rejects b .malformedHeader .malformedHeader) ∧
    (∀ (t0 t1 p0 p1 l0 l1 u : Byte) (rest : List Byte), ¬(p0 = 0 ∧ p1 = 0) →
      rejects (t0 :: t1 :: p0 :: p1 :: l0 :: l1 :: u :: rest) .unsupportedProtocol .unsupportedProtocol) ∧
    (∀ (t0 t1 l0 l1 u : Byte) (rest : List Byte),
      l0.toNat * 256 + l1.toNat < 6 ∨ 250 < l0.toNat * 256 + l1.toNat →
      rejects (t0 :: t1 :: 0 :: 0 :: l0 :: l1 :: u :: rest) .invalidLength .invalidLength)

/-- The reply-length inference for the write-type codes (41 R154 to R157): `W.tlen = 5`, whatever the third byte is,
and nothing else changes. That such an operation is also a word of its own, which writes `W.tlen` in `W_RDHDR`, where
BW.RDHDR calls the inference (41 R148, 42 R174), is the model's choice (log 18). -/
def Obligations.WriteTypeReplyLengths : Prop :=
  ∀ (s : State) (third : Byte), s.w.state = .rdHdr →
    (exec (.rlenFc05 third) s = .next { s with w := { s.w with tlen := 5 } } ∧ rlen 0x05 0x05 third = 5) ∧
    (exec (.rlenFc06 third) s = .next { s with w := { s.w with tlen := 5 } } ∧ rlen 0x06 0x06 third = 5) ∧
    (exec (.rlenFc0F third) s = .next { s with w := { s.w with tlen := 5 } } ∧ rlen 0x0F 0x0F third = 5) ∧
    (exec (.rlenFc10 third) s = .next { s with w := { s.w with tlen := 5 } } ∧ rlen 0x10 0x10 third = 5)

/-- The other classes of the reply-length inference (41 R149 to R153, R158): `W.tlen = third + 2` without wrap-around
for the read-type codes (a 9-bit sum by the spec's decision D17), 2 for any echo mismatch, 0 for any other code;
nothing else changes. Where the operations run as words of their own is log 18's. -/
def Obligations.OtherReplyLengths : Prop :=
  ∀ (s : State) (fc rfc third : Byte), s.w.state = .rdHdr →
    (exec (.rlenFc01 third) s = .next { s with w := { s.w with tlen := BitVec.ofNat 9 (third.toNat + 2) } } ∧
      exec (.rlenFc02 third) s = .next { s with w := { s.w with tlen := BitVec.ofNat 9 (third.toNat + 2) } } ∧
      exec (.rlenFc03 third) s = .next { s with w := { s.w with tlen := BitVec.ofNat 9 (third.toNat + 2) } } ∧
      exec (.rlenFc04 third) s = .next { s with w := { s.w with tlen := BitVec.ofNat 9 (third.toNat + 2) } }) ∧
    (BitVec.ofNat 9 (third.toNat + 2)).toNat = third.toNat + 2 ∧
    exec (.rlenExc fc rfc third) s = .next { s with w := { s.w with tlen := 2 } } ∧
    exec (.rlenOther fc third) s = .next { s with w := { s.w with tlen := 0 } }

/-- EXCBUILD gives the nine bytes of 44 R240, the function byte by OR, not by addition; it runs where RTUDEC calls it
(log 18). -/
def Obligations.ExceptionResponseBytes : Prop :=
  (∀ (s : State) (i : Nat) (h : Handler) (tid pid : Half) (uid fc code : Byte),
    s.handlers[i]? = some h → h.state = .decode →
    exec (.excBuild i tid pid uid fc code) s = .next { s with handlers := s.handlers.set i { h with
      rsp := [hi8 tid, lo8 tid, hi8 pid, lo8 pid, 0x00, 0x03, uid, fc ||| 0x80, code] } }) ∧
  excFrame 0x0001 0x0000 0x01 0x03 0x0B = [0x00, 0x01, 0x00, 0x00, 0x00, 0x03, 0x01, 0x83, 0x0B] ∧
  (0x83 : Byte) ||| 0x80 = 0x83

/-- RSPOK of a verified reply: the echoed ids, the length big-endian and the reply without its checksum (43 R207,
30_encoding R81); it runs where RTUDEC calls it (log 18). -/
def Obligations.SuccessResponseBytes : Prop :=
  ∀ (s : State) (i : Nat) (h : Handler) (body : List Byte),
    s.handlers[i]? = some h → h.state = .decode → 3 ≤ body.length → body.length ≤ 258 →
    exec (.rspOk i (body ++ [lo8 (crc16 s.cfg.crc body), hi8 (crc16 s.cfg.crc body)])) s =
      .next { s with handlers := s.handlers.set i { h with
        rsp := [hi8 h.tid, lo8 h.tid, hi8 h.pid, lo8 h.pid, BitVec.ofNat 8 (body.length / 256),
          BitVec.ofNat 8 body.length] ++ body } }

/-- The unit-id classes write `bc`, where RTUENC computes it, and `0x00` and `0xFF` are the broadcast ones
(30_encoding R96, 10_state R27). The protocol-id classes: 0 is accepted; every other value ends the connection with
`UnsupportedProtocol` and no byte to the client (30_encoding R97, 60 R253). Where each runs is log 18, how the flag is
shown log 7, the words that carry the classes log 1, and that the ended connection's inputs go with it log 14. -/
def Obligations.UnitAndProtocolClasses : Prop :=
  (∀ (s : State) (i : Nat) (h : Handler) (uid : Byte), s.handlers[i]? = some h → h.state = .decode →
    exec (.uidBcast i uid) s = .next { s with handlers := s.handlers.set i { h with bc := true } } ∧
    exec (.uidUnicast i uid) s = .next { s with handlers := s.handlers.set i { h with bc := false } }) ∧
  (∀ uid il ih : Byte, decode [uid, 3, il, ih] =
    .ok (if uid = 0x00 ∨ uid = 0xFF then .uidBcast (il.toNat + 256 * ih.toNat) uid
      else .uidUnicast (il.toNat + 256 * ih.toNat) uid)) ∧
  (∀ (s : State) (i : Nat) (h : Handler) (p : ClientPort) (pid : Half), s.handlers[i]? = some h →
    s.ports[i]? = some p → h.state = .recv →
    exec (.pidModbus i) s = .next { s with trace := s.trace ++ [⟨s.now, .flag (.hdrErr none)⟩] } ∧
    exec (.pidOther i pid) s = .next { s with
      handlers := s.handlers.set i { h with state := .closed },
      ports := s.ports.set i { p with inbound := [], sendAns := [] },
      trace := s.trace ++ [⟨s.now, .flag (.hdrErr (some .unsupportedProtocol))⟩,
        ⟨s.now, .event (.handler i) .unsupportedProtocol⟩, ⟨s.now, .cliClose i⟩] })

/-! ## The Bus Worker -/

/-- BW.FETCH takes the oldest task; the others stay in order; while the queue is empty, or in another state, the
worker takes no step (42 R171). -/
def Obligations.FetchTakesOldestTask : Prop :=
  ∀ s : State,
    (∀ t ts, s.w.state = .idle → s.q = t :: ts →
      exec .bwFetch s = .next { s with q := ts, w := { s.w with task := some t, state := .write } }) ∧
    (s.w.state ≠ .idle ∨ s.q = [] → exec .bwFetch s = .next s)

/-- BW.WRITE writes the whole frame with one `SerWrite` and goes on by the device's answer and the broadcast flag (42
R172, R173; no read after a failed write is the spec's decision D10). Bytes pending at it are discarded under
`RX_STALE = flush` (70 R302, decision D11); otherwise they are the first the read takes that begins here, so that three
of them close its window at once, as does an error that has waited for it. That the error then ends the read before the
bytes do, and that the failed read consumes them, the first three or all there are, is the model's choice (logs 10, 22).
A window of length 0 is refused (93 U9). -/
def Obligations.WriteFrameToBus : Prop :=
  ∀ (s : State) (t : Task) (r : IoResult) (rs : List IoResult), s.w.state = .write → s.w.task = some t →
    s.ser.writeAns = r :: rs →
    let rx := if s.cfg.rxStale = .flush then [] else s.rxpend
    (r = .fail ∨ t.isBroadcast = true → exec .bwWrite s = .next { s with
      rxpend := rx,
      ser := { s.ser with writeAns := rs },
      trace := s.trace ++ [⟨s.now, .serWrite t.frame r⟩] ++
        (if r = .fail then [⟨s.now, .event .worker .serialWriteOrReadFailure⟩] else []),
      w := { s.w with reply := [], state := .deliver, timer := { s.w.timer with running := false } } }) ∧
    (r = .ok → t.isBroadcast = false → s.cfg.tSer ≠ 0 → exec .bwWrite s = .next { s with
      rxpend := if s.ser.rxFail = true ∨ 3 ≤ rx.length then rx.drop 3 else rx,
      ser := {
        writeAns := rs, rxFail := false, tie := false,
        readAns := if s.ser.rxFail = true then some .failed
          else if 3 ≤ rx.length then some (.got (rx.take 3)) else none },
      trace := s.trace ++ [⟨s.now, .serWrite t.frame .ok⟩],
      w := { s.w with state := .rdHdr, timer := ⟨true, s.cfg.tSer⟩ } }) ∧
    (r = .ok → t.isBroadcast = false → s.cfg.tSer = 0 → exec .bwWrite s = .refused .zeroSerialTimeout)

/-- BW.RDHDR when its read has returned three bytes: they are the header, `W.tlen` is inferred, and the second window
opens, or with 0 the reply is discarded (42 R174; discarding gives the empty reply by the spec's decision D16). Bytes
that are pending, and an error that has waited, meet the second window as they do the first: the error ends the read and
the failed read consumes the first `W.tlen` of them, the model's choice (logs 10, 22); a window of length 0 is refused
(93 U9). When the read returned fewer bytes they are dropped and the reply is empty; a device error is
reported and gives the empty reply; while the window is open the worker waits (42 R174, R180, 60 R257). -/
def Obligations.ReadReplyHeader : Prop :=
  ∀ (s : State) (t : Task) (fc : Byte), s.w.state = .rdHdr → s.w.task = some t → t.frame[1]? = some fc →
    (∀ b0 b1 b2 : Byte, s.ser.readAns = some (.got [b0, b1, b2]) →
      (rlen fc b1 b2 = 0 → exec .bwRdHdr s = .next { s with
        ser := { s.ser with readAns := none },
        trace := s.trace ++ [⟨s.now, .serRead 3 [b0, b1, b2]⟩],
        w := { s.w with
          hdr := [b0, b1, b2], tlen := 0, reply := [], state := .deliver,
          timer := { s.w.timer with running := false } } }) ∧
      (rlen fc b1 b2 ≠ 0 → s.cfg.tSer ≠ 0 → exec .bwRdHdr s = .next { s with
        rxpend := if s.ser.rxFail = true ∨ (rlen fc b1 b2).toNat ≤ s.rxpend.length
          then s.rxpend.drop (rlen fc b1 b2).toNat else s.rxpend,
        ser := {
          writeAns := s.ser.writeAns, rxFail := false, tie := false,
          readAns := if s.ser.rxFail = true then some .failed
            else if (rlen fc b1 b2).toNat ≤ s.rxpend.length
              then some (.got (s.rxpend.take (rlen fc b1 b2).toNat)) else none },
        trace := s.trace ++ [⟨s.now, .serRead 3 [b0, b1, b2]⟩],
        w := { s.w with
          hdr := [b0, b1, b2], tlen := rlen fc b1 b2, state := .rdTrl, timer := ⟨true, s.cfg.tSer⟩ } }) ∧
      (rlen fc b1 b2 ≠ 0 → s.cfg.tSer = 0 → exec .bwRdHdr s = .refused .zeroSerialTimeout)) ∧
    (∀ b : List Byte, s.ser.readAns = some (.got b) → b.length < 3 → exec .bwRdHdr s = .next { s with
      ser := { s.ser with readAns := none },
      trace := s.trace ++ [⟨s.now, .serRead 3 b⟩],
      w := { s.w with reply := [], state := .deliver, timer := { s.w.timer with running := false } } }) ∧
    (s.ser.readAns = some .failed → exec .bwRdHdr s = .next { s with
      ser := { s.ser with readAns := none },
      trace := s.trace ++ [⟨s.now, .serReadFail 3⟩, ⟨s.now, .event .worker .serialWriteOrReadFailure⟩],
      w := { s.w with reply := [], state := .deliver, timer := { s.w.timer with running := false } } }) ∧
    (s.ser.readAns = none → exec .bwRdHdr s = .next s)

/-- BW.RDTRL (42 R175): when its read has returned all `W.tlen` bytes, the reply is header and trailer; when it returned
fewer the reply is empty; a device error is reported and gives the empty reply; while the window is open the worker
waits. -/
def Obligations.ReadReplyTrailer : Prop :=
  ∀ s : State, s.w.state = .rdTrl →
    (∀ b : List Byte, s.ser.readAns = some (.got b) →
      (s.w.tlen.toNat ≤ b.length → exec .bwRdTrl s = .next { s with
        ser := { s.ser with readAns := none },
        trace := s.trace ++ [⟨s.now, .serRead s.w.tlen.toNat b⟩],
        w := { s.w with
          trl := b, reply := s.w.hdr ++ b, state := .deliver, timer := { s.w.timer with running := false } } }) ∧
      (b.length < s.w.tlen.toNat → exec .bwRdTrl s = .next { s with
        ser := { s.ser with readAns := none },
        trace := s.trace ++ [⟨s.now, .serRead s.w.tlen.toNat b⟩],
        w := { s.w with reply := [], state := .deliver, timer := { s.w.timer with running := false } } })) ∧
    (s.ser.readAns = some .failed → exec .bwRdTrl s = .next { s with
      ser := { s.ser with readAns := none },
      trace := s.trace ++ [⟨s.now, .serReadFail s.w.tlen.toNat⟩, ⟨s.now, .event .worker .serialWriteOrReadFailure⟩],
      w := { s.w with reply := [], state := .deliver, timer := { s.w.timer with running := false } } }) ∧
    (s.ser.readAns = none → exec .bwRdTrl s = .next s)

/-- BW.DELIVER puts the reply, empty or not, into the submitter's slot, drops the task and starts the quiet period of
`CFG.T_IFD` (42 R176). -/
def Obligations.DeliverReply : Prop :=
  ∀ (s : State) (t : Task) (h : Handler), s.w.state = .deliver → s.w.task = some t →
    s.handlers[t.src]? = some h →
    exec .bwDeliver s = .next { s with
      handlers := s.handlers.set t.src { h with rslot := some s.w.reply },
      w := { s.w with task := none, state := .quiet, timer := ⟨true, s.cfg.tIfd⟩ } }

/-- BW.QUIET ends the quiet period when the timer has expired, and not before (42 R177, 10_state R48). -/
def Obligations.QuietPeriodEnds : Prop :=
  ∀ s : State, s.w.state = .quiet → s.w.timer.running = true →
    (s.w.timer.left = 0 → exec .bwQuiet s = .next
      { s with w := { s.w with state := .idle, timer := { s.w.timer with running := false } } }) ∧
    (s.w.timer.left ≠ 0 → exec .bwQuiet s = .next s)

/-! ## The Connection Handler -/

/-- H.OPEN takes the connection the Listener presents (43 R200); H.CLOSE ends a connection, from `H_RECV` or `H_SEND`,
and leaves queue, worker and slot alone (R211). R211 has it performed by the entry rules of the connection-fatal
kinds; that it is also an operation of its own, which closes from the state its code names with no error kind raised,
is the model's choice (log 19), and so is that what the ended connection presented goes with it (log 14). -/
def Obligations.ConnectionOpensAndCloses : Prop :=
  ∀ (s : State) (i : Nat) (h : Handler) (p : ClientPort), s.handlers[i]? = some h → s.ports[i]? = some p →
    (h.state = .closed → p.openReq = true → exec (.hOpen i) s = .next { s with
      handlers := s.handlers.set i { h with state := .recv },
      ports := s.ports.set i { p with openReq := false },
      trace := s.trace ++ [⟨s.now, .cliOpen i⟩] }) ∧
    ∀ sending : Bool, h.state = (if sending then .send else .recv) → exec (.hClose i sending) s = .next { s with
      handlers := s.handlers.set i { h with state := .closed },
      ports := s.ports.set i { p with inbound := [], sendAns := [] },
      trace := s.trace ++ [⟨s.now, .cliClose i⟩] }

/-- H.RECV of a read with protocol id 0, a legal length and all its bytes stores read, count and fields and goes on to
`H_DECODE`, where RTUENC continues (43 R201, 41 R141). -/
def Obligations.RequestIsAccepted : Prop :=
  ∀ (s : State) (i : Nat) (h : Handler) (p : ClientPort) (t0 t1 l0 l1 u : Byte) (pdu : List Byte)
    (rest : List (List Byte)),
    s.handlers[i]? = some h → s.ports[i]? = some p → h.state = .recv →
    p.inbound = (t0 :: t1 :: 0 :: 0 :: l0 :: l1 :: u :: pdu) :: rest →
    6 ≤ l0.toNat * 256 + l1.toNat → l0.toNat * 256 + l1.toNat ≤ 250 → l0.toNat * 256 + l1.toNat ≤ pdu.length + 1 →
    exec (.hRecv i) s = .next { s with
      handlers := s.handlers.set i { h with
        req := t0 :: t1 :: 0 :: 0 :: l0 :: l1 :: u :: pdu, n := pdu.length + 7,
        tid := BitVec.ofNat 16 (t0.toNat * 256 + t1.toNat), pid := 0,
        len := BitVec.ofNat 16 (l0.toNat * 256 + l1.toNat), uid := u, state := .decode },
      ports := s.ports.set i { p with inbound := rest },
      trace := s.trace ++ [⟨s.now, .cliRecv i (t0 :: t1 :: 0 :: 0 :: l0 :: l1 :: u :: pdu)⟩] }

/-- H.RECV ends the connection, with the first error kind of 60 R262's order and no byte to the client, on a read of
fewer than 6 bytes, of 6 bytes, with a protocol id other than 0, or with an illegal length (43 R201, 60 R253, 41
R142); the read and its count are stored (43 R201). That what the ended connection still presented goes with it is log
14's. -/
def Obligations.BadRequestClosesConnection : Prop :=
  ∀ (s : State) (i : Nat) (h : Handler) (p : ClientPort) (b : List Byte) (rest : List (List Byte)),
    s.handlers[i]? = some h → s.ports[i]? = some p → h.state = .recv → p.inbound = b :: rest →
    let closes (k : ErrKind) : Prop :=
      exec (.hRecv i) s = .next { s with
        handlers := s.handlers.set i { h with req := b, n := b.length, state := .closed },
        ports := s.ports.set i { p with inbound := [], sendAns := [] },
        trace := s.trace ++ [⟨s.now, .cliRecv i b⟩, ⟨s.now, .event (.handler i) k⟩, ⟨s.now, .cliClose i⟩] }
    (b.length < 6 → closes .tooShort) ∧
    (b.length = 6 → closes .malformedHeader) ∧
    (∀ t0 t1 p0 p1 l0 l1 u pdu, b = t0 :: t1 :: p0 :: p1 :: l0 :: l1 :: u :: pdu → ¬(p0 = 0 ∧ p1 = 0) →
      closes .unsupportedProtocol) ∧
    (∀ t0 t1 l0 l1 u pdu, b = t0 :: t1 :: 0 :: 0 :: l0 :: l1 :: u :: pdu →
      l0.toNat * 256 + l1.toNat < 6 ∨ 250 < l0.toNat * 256 + l1.toNat →
      closes .invalidLength)

/-- A read with a good header but fewer bytes than its length field says (43 R202): `SHORT_REQ = refuse` gives it no
meaning, `close` treats it as `MalformedClientFrame(TooShort)`. That the four fields are then not stored, and what the
ended connection presented goes with it, is the model's choice (logs 13 and 14). -/
def Obligations.ShortRequestByParameter : Prop :=
  ∀ (s : State) (i : Nat) (h : Handler) (p : ClientPort) (t0 t1 l0 l1 u : Byte) (pdu : List Byte)
    (rest : List (List Byte)),
    s.handlers[i]? = some h → s.ports[i]? = some p → h.state = .recv →
    p.inbound = (t0 :: t1 :: 0 :: 0 :: l0 :: l1 :: u :: pdu) :: rest →
    6 ≤ l0.toNat * 256 + l1.toNat → l0.toNat * 256 + l1.toNat ≤ 250 → pdu.length + 1 < l0.toNat * 256 + l1.toNat →
    (s.cfg.shortReq = .refuse → exec (.hRecv i) s = .refused .shortRequest) ∧
    (s.cfg.shortReq = .close → exec (.hRecv i) s = .next { s with
      handlers := s.handlers.set i { h with
        req := t0 :: t1 :: 0 :: 0 :: l0 :: l1 :: u :: pdu, n := pdu.length + 7, state := .closed },
      ports := s.ports.set i { p with inbound := [], sendAns := [] },
      trace := s.trace ++ [⟨s.now, .cliRecv i (t0 :: t1 :: 0 :: 0 :: l0 :: l1 :: u :: pdu)⟩,
        ⟨s.now, .event (.handler i) .tooShort⟩, ⟨s.now, .cliClose i⟩] })

/-- RTUENC takes `len` bytes from the unit id on, whatever follows them, appends their checksum low byte first, and
keeps `bc` and `fc` (43 R203, 30_encoding R83, 40 R128); the frame it hands to SUBMIT is a function of the handler's
registers, which SUBMIT finds there (log 6). -/
def Obligations.RequestIsEncoded : Prop :=
  ∀ (s : State) (i : Nat) (h : Handler) (m0 m1 m2 m3 m4 m5 u fc : Byte) (data extra : List Byte),
    s.handlers[i]? = some h → h.state = .decode →
    h.req = m0 :: m1 :: m2 :: m3 :: m4 :: m5 :: u :: fc :: (data ++ extra) → h.len.toNat = data.length + 2 →
    let h' : Handler := { h with bc := decide (h.uid = 0x00 ∨ h.uid = 0xFF), fc := fc }
    exec (.rtuEnc i) s = .next { s with
      codec := { acc := crc16 s.cfg.crc (u :: fc :: data) },
      handlers := s.handlers.set i h' } ∧
    h'.frame s.cfg.crc = some (u :: fc :: data ++
      [lo8 (crc16 s.cfg.crc (u :: fc :: data)), hi8 (crc16 s.cfg.crc (u :: fc :: data))])

/-- SUBMIT appends one task with the frame RTUENC made of the handler's request (log 6), the handler's index and flag,
and the handler awaits its reply (43 R204, 10_state R30, R32). -/
def Obligations.TaskIsSubmitted : Prop :=
  ∀ (s : State) (i : Nat) (h : Handler) (m0 m1 m2 m3 m4 m5 : Byte) (payload extra : List Byte),
    s.handlers[i]? = some h → h.state = .decode →
    h.req = m0 :: m1 :: m2 :: m3 :: m4 :: m5 :: (payload ++ extra) → h.len.toNat = payload.length →
    exec (.submit i) s = .next { s with
      q := s.q ++ [{
        frame := payload ++ [lo8 (crc16 s.cfg.crc payload), hi8 (crc16 s.cfg.crc payload)],
        src := i, isBroadcast := h.bc }],
      handlers := s.handlers.set i { h with state := .await } }

/-- H.AWAIT empties the slot and goes on to `H_DECODE`, where RTUDEC continues (log 6); while the slot is empty the
handler waits, without timeout (43 R204, 10_state R33). -/
def Obligations.ReplyIsAwaited : Prop :=
  ∀ (s : State) (i : Nat) (h : Handler), s.handlers[i]? = some h → h.state = .await →
    (∀ r, h.rslot = some r → exec (.hAwait i) s = .next
      { s with handlers := s.handlers.set i { h with rslot := none, state := .decode } }) ∧
    (h.rslot = none → exec (.hAwait i) s = .next s)

/-- RTUDEC of a broadcast sends nothing; of a reply that verifies it builds the success response (43 R205, R207). -/
def Obligations.GoodReplyIsDecoded : Prop :=
  ∀ (s : State) (i : Nat) (h : Handler) (r : List Byte), s.handlers[i]? = some h → h.state = .decode →
    (h.bc = true → exec (.rtuDec ⟨i, r⟩) s = .next { s with handlers := s.handlers.set i { h with state := .recv } }) ∧
    (∀ body : List Byte, h.bc = false → 3 ≤ body.length →
      r = body ++ [lo8 (crc16 s.cfg.crc body), hi8 (crc16 s.cfg.crc body)] →
      exec (.rtuDec ⟨i, r⟩) s = .next { s with
        codec := { acc := crc16 s.cfg.crc body },
        handlers := s.handlers.set i { h with
          rsp := [hi8 h.tid, lo8 h.tid, hi8 h.pid, lo8 h.pid, hi8 (BitVec.ofNat 16 body.length),
            lo8 (BitVec.ofNat 16 body.length)] ++ body,
          state := .send } })

/-- RTUDEC of an empty, a short or a corrupted reply emits the kind, in that order, and builds the one exception
response with code `0x0B` (43 R205, R206, R208, R209, 60 R254 to R256, 44 R241). -/
def Obligations.BadReplyGivesException : Prop :=
  ∀ (s : State) (i : Nat) (h : Handler) (r : List Byte), s.handlers[i]? = some h → h.state = .decode →
    h.bc = false →
    let answers (k : ErrKind) (codec : Codec) : Prop :=
      exec (.rtuDec ⟨i, r⟩) s = .next { s with
        codec := codec,
        trace := s.trace ++ [⟨s.now, .event (.handler i) k⟩],
        handlers := s.handlers.set i { h with
          rsp := [hi8 h.tid, lo8 h.tid, hi8 h.pid, lo8 h.pid, 0x00, 0x03, h.uid, h.fc ||| 0x80, 0x0B],
          state := .send } }
    (r = [] → answers .noBusReply s.codec) ∧
    (1 ≤ r.length → r.length < 5 →
      answers .shortOrInvalidBusReply s.codec) ∧
    (∀ (body : List Byte) (lo hi : Byte), 3 ≤ body.length → r = body ++ [lo, hi] →
      ¬(lo = lo8 (crc16 s.cfg.crc body) ∧ hi = hi8 (crc16 s.cfg.crc body)) →
      answers .checksumMismatch { acc := crc16 s.cfg.crc body })

/-- H.SEND hands the whole response to the client with one `CliSend`; on `ok` the next request is received, on `fail`
the event is emitted and the connection closed (43 R210, R211, 60 R258; that what the ended connection still presented
goes with it is log 14's). -/
def Obligations.ResponseIsSent : Prop :=
  ∀ (s : State) (i : Nat) (h : Handler) (p : ClientPort) (rs : List IoResult),
    s.handlers[i]? = some h → s.ports[i]? = some p → h.state = .send →
    (p.sendAns = .ok :: rs → exec (.hSend i) s = .next { s with
      handlers := s.handlers.set i { h with state := .recv },
      ports := s.ports.set i { p with sendAns := rs },
      trace := s.trace ++ [⟨s.now, .cliSend i h.rsp .ok⟩] }) ∧
    (p.sendAns = .fail :: rs → exec (.hSend i) s = .next { s with
      handlers := s.handlers.set i { h with state := .closed },
      ports := s.ports.set i { p with inbound := [], sendAns := [] },
      trace := s.trace ++ [⟨s.now, .cliSend i h.rsp .fail⟩, ⟨s.now, .event (.handler i) .socketWriteFailure⟩,
        ⟨s.now, .cliClose i⟩] })

/-- An agent takes no step outside the state that enables its operation (42 R171 to R177, 43 R200 to R210): the state
stays as it is (log 8). -/
def Obligations.DisabledOperationsWait : Prop :=
  (∀ s : State,
    (s.w.state ≠ .idle → exec .bwFetch s = .next s) ∧ (s.w.state ≠ .write → exec .bwWrite s = .next s) ∧
    (s.w.state ≠ .rdHdr → exec .bwRdHdr s = .next s) ∧ (s.w.state ≠ .rdTrl → exec .bwRdTrl s = .next s) ∧
    (s.w.state ≠ .deliver → exec .bwDeliver s = .next s) ∧ (s.w.state ≠ .quiet → exec .bwQuiet s = .next s)) ∧
  (∀ (s : State) (i : Nat) (h : Handler) (p : ClientPort), s.handlers[i]? = some h → s.ports[i]? = some p →
    (h.state ≠ .closed ∨ p.openReq = false → exec (.hOpen i) s = .next s) ∧
    (h.state ≠ .recv ∨ p.inbound = [] → exec (.hRecv i) s = .next s) ∧
    (h.state ≠ .decode → exec (.rtuEnc i) s = .next s ∧ exec (.submit i) s = .next s ∧
      ∀ r, exec (.rtuDec ⟨i, r⟩) s = .next s) ∧
    (h.state ≠ .await → exec (.hAwait i) s = .next s) ∧
    (h.state ≠ .send ∨ p.sendAns = [] → exec (.hSend i) s = .next s))

/-! ## The environment -/

/-- A serial byte that arrives while a read window is open is taken by it, and the last one it asks for closes it
(10_state R47, 42 R173). While no window is open `RX_STALE` decides: `refuse` gives the run no meaning, otherwise the
byte is pending (10_state R50, 70 R302). A byte that comes at the instant at which a window has closed by its time
ends no run, whatever `RX_STALE` is (60 R263, 93 U5): the script says whether it is in time, and then it is the read's
last byte, or not, and then `refuse` loses it (log 24's choice). The last clause runs the tie: where one byte lacks
when the time ends, both the read without it and the complete read are runs. When the second window opens is log 11's;
that the arrival is recorded is log 17's. -/
def Obligations.SerialByteArrives : Prop :=
  ∀ (s : State) (b : Byte) (rest : List Item), s.Inv →
    let isOpen : Prop := (s.w.state = .rdHdr ∨ s.w.state = .rdTrl) ∧ s.ser.readAns = none
    let n : Nat := if s.w.state = .rdHdr then 3 else s.w.tlen.toNat
    let trace : List Crossing := s.trace ++ [⟨s.now, .serByte b⟩]
    (s.script = .env (.serByte b) :: rest →
      (isOpen → s.rxpend.length + 1 < n → step s = .next
        { s with rxpend := s.rxpend ++ [b], trace := trace, script := rest }) ∧
      (isOpen → n ≤ s.rxpend.length + 1 → step s = .next { s with
        rxpend := [], trace := trace, ser := { s.ser with readAns := some (.got (s.rxpend ++ [b])) },
        script := rest }) ∧
      (¬isOpen → s.cfg.rxStale = .refuse → s.ser.tie = false → step s = .refused .staleSerialByte) ∧
      (¬isOpen → s.cfg.rxStale = .refuse → s.ser.tie = true → step s = .next
        { s with ser := { s.ser with tie := false }, trace := trace, script := rest }) ∧
      (¬isOpen → s.cfg.rxStale ≠ .refuse → step s = .next { s with
        rxpend := s.rxpend ++ [b], ser := { s.ser with tie := false }, trace := trace, script := rest })) ∧
    (s.script = .env (.tiedByte b) :: rest →
      (∀ bs, s.ser.tie = true → s.ser.readAns = some (.got bs) → step s = .next { s with
        ser := { s.ser with readAns := some (.got (bs ++ [b])), tie := false }, trace := trace, script := rest }) ∧
      (s.ser.tie = false ∨ (∀ bs, s.ser.readAns ≠ some (.got bs)) →
        step s = step { s with script := .env (.serByte b) :: rest })) ∧
    (isOpen → s.rxpend.length + 1 = n →
      (s.script = .env (.elapse s.w.timer.left.toNat) :: .env (.serByte b) :: rest →
        ∃ t : State, Host.Core.run Sys2Proof.core 2 s = .next t ∧ t.ser.readAns = some (.got s.rxpend)) ∧
      (s.script = .env (.elapse s.w.timer.left.toNat) :: .env (.tiedByte b) :: rest →
        ∃ t : State, Host.Core.run Sys2Proof.core 2 s = .next t ∧ t.ser.readAns = some (.got (s.rxpend ++ [b]))))

/-- Time passing counts the running timer down to zero and no further, and a stopped one not at all (10_state R48).
When it ends an open window, the read returns the bytes that had come (10_state R47, 42 R173), and a byte that comes
while no more time has passed ties with that end (60 R263; how the model holds the tie is log 24's). -/
def Obligations.TimerCountsDown : Prop :=
  ∀ (s : State) (ms : Nat) (rest : List Item), s.Inv → s.script = .env (.elapse ms) :: rest →
    let ended : Prop := (s.w.state = .rdHdr ∨ s.w.state = .rdTrl) ∧ s.ser.readAns = none ∧ s.w.timer.left.toNat ≤ ms
    ∃ timer : Timer, timer.running = s.w.timer.running ∧
      timer.left.toNat = (if s.w.timer.running = true then s.w.timer.left.toNat - ms else s.w.timer.left.toNat) ∧
      (¬ended → step s = .next { s with
        now := s.now + ms, w := { s.w with timer := timer }, script := rest,
        ser := { s.ser with tie := decide (ms = 0) && s.ser.tie } }) ∧
      (ended → step s = .next { s with
        now := s.now + ms, w := { s.w with timer := timer }, script := rest,
        rxpend := [],
        ser := { s.ser with readAns := some (.got s.rxpend), tie := decide (ms = s.w.timer.left.toNat) } })

/-- What the clients and the device present stands at their ports and changes nothing else: a connection, of which a
second one is refused while the first waits (log 15), a read of at most REQ_MAX bytes, a longer one being no event of
the interface (10_state R44, log 21), and the answers to `CliSend` and `SerWrite`. A device error ends the read whose
window is open at once (60 R262); any other waits for the next read (60 R261, log 22). -/
def Obligations.InputsStandAtTheirPorts : Prop :=
  (∀ (s : State) (i : Nat) (p : ClientPort) (rest : List Item), s.ports[i]? = some p →
    (s.script = .env (.cliOpen i) :: rest →
      (p.openReq = false → step s = .next
        { s with ports := s.ports.set i { p with openReq := true }, script := rest }) ∧
      (p.openReq = true → step s = .refused .portBusy)) ∧
    (∀ b : List Byte, s.script = .env (.cliRecv i b) :: rest →
      (b.length ≤ 256 → step s = .next
        { s with ports := s.ports.set i { p with inbound := p.inbound ++ [b] }, script := rest }) ∧
      (256 < b.length → step s = .refused .readTooLong)) ∧
    (∀ r : IoResult, s.script = .env (.cliSendAns i r) :: rest → step s = .next
      { s with ports := s.ports.set i { p with sendAns := p.sendAns ++ [r] }, script := rest })) ∧
  (∀ (s : State) (r : IoResult) (rest : List Item), s.script = .env (.serWriteAns r) :: rest → step s = .next
    { s with ser := { s.ser with writeAns := s.ser.writeAns ++ [r] }, script := rest }) ∧
  (∀ (s : State) (rest : List Item), s.Inv → s.script = .env .serFail :: rest →
    let isOpen : Prop := (s.w.state = .rdHdr ∨ s.w.state = .rdTrl) ∧ s.ser.readAns = none
    (isOpen → step s = .next
      { s with rxpend := [], ser := { s.ser with readAns := some .failed }, script := rest }) ∧
    (¬isOpen → step s = .next { s with ser := { s.ser with rxFail := true }, script := rest }))

/-- A reset at any time returns the engine to the state of 70 R290 and loses everything in flight (R292); of a frame
that was being written it leaves the bytes already sent on the bus. The equation gives the model's whole start state,
of which two things are the model's choice and no rule's: the zero or empty data registers, which 10_state R55 leaves
unspecified (log 9), and that what stood at the client ports and the serial port is cleared (log 16). What the reset
does not reach, and how long it is held, is log 16's too. -/
def Obligations.ResetReturnsToStart : Prop :=
  ∀ (s : State) (ms sent : Nat) (rest : List Item), s.script = .env (.reset ms sent) :: rest →
    (∀ t : Task, s.w.state = .write → s.w.task = some t → 0 < sent → step s = .next { State.start s.cfg with
      now := s.now + ms, trace := s.trace ++ [⟨s.now, .serCut (t.frame.take sent)⟩], script := rest }) ∧
    (s.w.state ≠ .write ∨ s.w.task = none ∨ sent = 0 → step s = .next { State.start s.cfg with
      now := s.now + ms, trace := s.trace, script := rest })

/-! ## Whole transactions -/

/-- A request with a good header is forwarded as exactly one correctly checksummed RTU frame (property P1 of 95): the
handler's next turn appends one task with the unit id, the PDU and the checksum, and nothing of it has crossed a port
but the read. That one turn is the whole of the loop's steps 2 to 5 is log 6's. -/
def Obligations.RequestBecomesOneFrame : Prop :=
  ∀ (s : State) (i : Nat) (h : Handler) (p : ClientPort) (t0 t1 l0 l1 u fc : Byte) (data extra : List Byte)
    (more : List (List Byte)) (rest : List Item),
    s.handlers[i]? = some h → s.ports[i]? = some p → h.state = .recv →
    p.inbound = (t0 :: t1 :: 0 :: 0 :: l0 :: l1 :: u :: fc :: (data ++ extra)) :: more →
    l0.toNat * 256 + l1.toNat = data.length + 2 → 4 ≤ data.length → data.length ≤ 248 →
    s.script = .turn (.handler i) :: rest →
    ∃ (t : State) (x : Task), step s = .next t ∧ t.q = s.q ++ [x] ∧
      x.src = i ∧ x.isBroadcast = decide (u = 0x00 ∨ u = 0xFF) ∧
      x.frame = u :: fc :: data ++
        [lo8 (crc16 s.cfg.crc (u :: fc :: data)), hi8 (crc16 s.cfg.crc (u :: fc :: data))] ∧
      t.trace = s.trace ++
        [⟨s.now, .cliRecv i (t0 :: t1 :: 0 :: 0 :: l0 :: l1 :: u :: fc :: (data ++ extra))⟩] ∧
      t.w = s.w ∧ t.script = rest

/-- A well-formed reply that arrives in time reaches the client without its checksum (property P3 of 95): from any
state that meets the invariant, with the worker's first window on handler `i`'s task open and nothing arrived, the bytes
of the reply and the turns of the worker and of the handler send the client the request's ids, the length and the
reply's body. -/
def Obligations.GoodReplyReachesClient : Prop :=
  ∀ (s : State) (i : Nat) (p : ClientPort) (x : Task) (b0 b1 b2 fc : Byte) (more : List Byte)
    (as : List IoResult) (rest : List Item), s.Inv → s.cfg.tSer ≠ 0 →
    s.w.state = .rdHdr → s.ser.readAns = none → s.rxpend = [] → s.w.task = some x → x.src = i →
    x.frame[1]? = some fc → s.ports[i]? = some p → p.sendAns = .ok :: as →
    (rlen fc b1 b2).toNat = more.length + 2 →
    let trailer : List Byte := more ++
      [lo8 (crc16 s.cfg.crc (b0 :: b1 :: b2 :: more)), hi8 (crc16 s.cfg.crc (b0 :: b1 :: b2 :: more))]
    s.script = [.env (.serByte b0), .env (.serByte b1), .env (.serByte b2), .turn .worker] ++
      trailer.map (fun b => Item.env (.serByte b)) ++
      .turn .worker :: .turn .worker :: .turn (.handler i) :: .turn (.handler i) :: rest →
    ∃ (h : Handler) (t : State), s.handlers[i]? = some h ∧
      Host.Core.run Sys2Proof.core (more.length + 10) s = .next t ∧
      t.trace = s.trace ++
        [⟨s.now, .serByte b0⟩, ⟨s.now, .serByte b1⟩, ⟨s.now, .serByte b2⟩, ⟨s.now, .serRead 3 [b0, b1, b2]⟩] ++
        trailer.map (fun b => ⟨s.now, .serByte b⟩) ++
        [⟨s.now, .serRead (more.length + 2) trailer⟩,
        ⟨s.now, .cliSend i ([hi8 h.tid, lo8 h.tid, 0x00, 0x00, BitVec.ofNat 8 ((more.length + 3) / 256),
          BitVec.ofNat 8 (more.length + 3)] ++ b0 :: b1 :: b2 :: more) .ok⟩] ∧
      t.script = rest ∧ ∃ h', t.handlers[i]? = some h' ∧ h'.state = .recv

/-- A silent bus gives the client the exception response with code `0x0B` (property P4 of 95): from any state that
meets the invariant, with the first window of handler `i`'s task open, when its time passes and no further byte
comes. -/
def Obligations.SilentBusGivesException : Prop :=
  ∀ (s : State) (i : Nat) (p : ClientPort) (x : Task) (as : List IoResult) (rest : List Item), s.Inv →
    s.w.state = .rdHdr → s.ser.readAns = none → s.w.task = some x → x.src = i → s.ports[i]? = some p →
    p.sendAns = .ok :: as →
    s.script = .env (.elapse s.w.timer.left.toNat) :: .turn .worker :: .turn .worker :: .turn (.handler i) ::
      .turn (.handler i) :: rest →
    ∃ (h : Handler) (t : State), s.handlers[i]? = some h ∧ Host.Core.run Sys2Proof.core 5 s = .next t ∧
      t.trace = s.trace ++ [⟨s.now + s.w.timer.left.toNat, .serRead 3 s.rxpend⟩,
        ⟨s.now + s.w.timer.left.toNat, .event (.handler i) .noBusReply⟩,
        ⟨s.now + s.w.timer.left.toNat,
          .cliSend i [hi8 h.tid, lo8 h.tid, 0x00, 0x00, 0x00, 0x03, h.uid, h.fc ||| 0x80, 0x0B] .ok⟩] ∧
      ∃ h', t.handlers[i]? = some h' ∧ h'.state = .recv

/-- A broadcast is written, no reply is read, nothing is sent to the client, and its handler receives again (30_encoding
R96, 42 R172, 43 R205), whatever `RX_STALE` is: from any state that meets the invariant, with a broadcast about to be
written. -/
def Obligations.BroadcastRunsSilently : Prop :=
  ∀ (s : State) (x : Task) (as : List IoResult) (rest : List Item), s.Inv →
    s.w.state = .write → s.w.task = some x → x.isBroadcast = true → s.ser.writeAns = .ok :: as →
    s.script = .turn .worker :: .turn .worker :: .turn (.handler x.src) :: rest →
    ∃ t : State, Host.Core.run Sys2Proof.core 3 s = .next t ∧
      t.trace = s.trace ++ [⟨s.now, .serWrite x.frame .ok⟩] ∧ t.w.state = .quiet ∧ t.w.task = none ∧
      ∃ h', t.handlers[x.src]? = some h' ∧ h'.state = .recv

/-- Every task being read is answered within its two windows (20_memory R75, 70 R310): from any state that meets the
invariant, after the first window's and the second window's time and three turns of the worker, the submitter's slot
holds an RTU Reply, whatever the bus had sent. The turns and the time are named, since no fairness is assumed (log
27). -/
def Obligations.TaskIsAnsweredInBoundedTime : Prop :=
  ∀ (s : State) (x : Task) (rest : List Item), s.Inv → s.cfg.tSer ≠ 0 → s.w.state = .rdHdr → s.w.task = some x →
    s.script = .env (.elapse s.w.timer.left.toNat) :: .turn .worker :: .env (.elapse s.cfg.tSer.toNat) ::
      .turn .worker :: .turn .worker :: rest →
    ∃ (t : State) (h : Handler) (r : List Byte), Host.Core.run Sys2Proof.core 5 s = .next t ∧
      t.handlers[x.src]? = some h ∧ h.rslot = some r ∧ ReplyShape r
end

