-- ==== Sys2Proof/Laws/Bytes.lean ====
section
/-! SUPPORT. Byte order, counts and named buffers: what a writer puts, the reader gives back. -/

namespace Sys2Proof

theorem u16be_toNat (a b : Byte) : (u16be a b).toNat = a.toNat * 256 + b.toNat := by
  have ha := a.isLt
  have hb := b.isLt
  simp only [u16be, BitVec.toNat_or, BitVec.toNat_shiftLeft, BitVec.toNat_setWidth]
  rw [Nat.mod_eq_of_lt (by omega : a.toNat < 2 ^ 16), Nat.mod_eq_of_lt (by omega : b.toNat < 2 ^ 16),
    Nat.mod_eq_of_lt (by rw [Nat.shiftLeft_eq]; omega), ← Nat.shiftLeft_add_eq_or_of_lt hb, Nat.shiftLeft_eq]

theorem u16be_eq_ofNat (a b : Byte) : u16be a b = BitVec.ofNat 16 (a.toNat * 256 + b.toNat) := by
  have ha := a.isLt
  have hb := b.isLt
  apply BitVec.eq_of_toNat_eq
  rw [u16be_toNat, BitVec.toNat_ofNat, Nat.mod_eq_of_lt (by omega)]

theorem lo8_toNat (v : Half) : (lo8 v).toNat = v.toNat % 256 := by simp [lo8]

theorem hi8_toNat (v : Half) : (hi8 v).toNat = v.toNat / 256 := by
  have := v.isLt
  simp [hi8, Nat.shiftRight_eq_div_pow]
  omega

@[simp] theorem u16be_hi8_lo8 (v : Half) : u16be (hi8 v) (lo8 v) = v := by
  apply BitVec.eq_of_toNat_eq
  rw [u16be_toNat, hi8_toNat, lo8_toNat]
  omega

@[simp] theorem hi8_u16be (a b : Byte) : hi8 (u16be a b) = a := by
  apply BitVec.eq_of_toNat_eq
  have hb := b.isLt
  rw [hi8_toNat, u16be_toNat]
  omega

@[simp] theorem lo8_u16be (a b : Byte) : lo8 (u16be a b) = b := by
  apply BitVec.eq_of_toNat_eq
  have hb := b.isLt
  rw [lo8_toNat, u16be_toNat]
  omega

@[simp] theorem u16be_zero : u16be 0#8 0#8 = 0#16 := by decide

theorem u16be_eq_zero (a b : Byte) : u16be a b = 0 ↔ a = 0 ∧ b = 0 := by
  constructor
  · intro h
    exact ⟨(hi8_u16be a b).symm.trans (congrArg hi8 h), (lo8_u16be a b).symm.trans (congrArg lo8 h)⟩
  · rintro ⟨rfl, rfl⟩; rfl

theorem lo8_ofNat (n : Nat) : lo8 (BitVec.ofNat 16 n) = BitVec.ofNat 8 n := by
  apply BitVec.eq_of_toNat_eq
  rw [lo8_toNat]
  simp

theorem hi8_ofNat (n : Nat) (h : n < 65536) : hi8 (BitVec.ofNat 16 n) = BitVec.ofNat 8 (n / 256) := by
  apply BitVec.eq_of_toNat_eq
  rw [hi8_toNat]
  simp
  omega

/-- A number of 16 bits comes back from its two bytes. -/
theorem ofNat16_nat16 (n : Nat) (h : n < 65536) :
    ofNat16 (BitVec.ofNat 8 n) (BitVec.ofNat 8 (n / 256)) = n := by
  simp [ofNat16]
  omega

/-- Two bytes are the bytes of the number they hold. -/
theorem nat16_ofNat16 (lo hi : Byte) : nat16 (ofNat16 lo hi) = [lo, hi] := by
  have hl := lo.isLt
  have hh := hi.isLt
  simp only [nat16, ofNat16, List.cons.injEq, and_true]
  constructor
  · apply BitVec.eq_of_toNat_eq
    simp
    omega
  · apply BitVec.eq_of_toNat_eq
    simp
    omega

theorem ofNat16_lt (lo hi : Byte) : ofNat16 lo hi < 65536 := by
  have hl := lo.isLt
  have hh := hi.isLt
  simp [ofNat16]
  omega

/-- A counted sequence of fewer than 65536 bytes is read back whole. -/
theorem readCounted_counted (b : List Byte) (h : b.length < 65536) : readCounted (counted b) = some b := by
  simp [counted, nat16, readCounted, ofNat16_nat16 _ h]

/-- What `readCounted` reads is the counted form of it. -/
theorem counted_of_readCounted (w b : List Byte) (h : readCounted w = some b) :
    counted b = w ∧ b.length < 65536 := by
  match w with
  | [] => simp [readCounted] at h
  | [_] => simp [readCounted] at h
  | lo :: hi :: rest =>
    simp only [readCounted] at h
    split at h
    · rename_i hlen
      cases h
      exact ⟨by rw [counted, hlen, nat16_ofNat16]; rfl, by rw [hlen]; exact ofNat16_lt lo hi⟩
    · cases h

/-- Reading what was written into a buffer gives it back (00_scope R11). -/
theorem memRead_memWrite (buf v out : List Byte) (off : Nat) (h : memWrite buf off v = some out) :
    memRead out off v.length = some v := by
  simp only [memWrite] at h
  split at h
  · rename_i hle
    cases h
    have : off ≤ buf.length := by omega
    simp [memRead, this]
  · cases h

namespace Machine

theorem isBroadcastUid_eq_bcastUid (uid : Byte) : isBroadcastUid uid = bcastUid uid := rfl

theorem isBroadcastUid_iff (uid : Byte) : isBroadcastUid uid = true ↔ uid = 0x00 ∨ uid = 0xFF := by
  simp [isBroadcastUid]

theorem isBroadcastUid_eq_decide (uid : Byte) : isBroadcastUid uid = decide (uid = 0x00 ∨ uid = 0xFF) := by
  simp [isBroadcastUid, Bool.decide_or, beq_eq_decide]

/-- The read of the payload, when the request is that long. -/
theorem rtuPayload_of_append (m0 m1 m2 m3 m4 m5 : Byte) (p extra : List Byte) (len : Half)
    (h : len.toNat = p.length) : rtuPayload (m0 :: m1 :: m2 :: m3 :: m4 :: m5 :: (p ++ extra)) len = some p := by
  simp [rtuPayload, memRead, h]
  omega

/-- A checksum is verified by comparing it with the two bytes at the end. -/
theorem crcVerify_append (p : CrcParams) (body : List Byte) (lo hi : Byte) :
    crcVerify p (body ++ [lo, hi]) = decide (lo8 (crc16 p body) = lo ∧ hi8 (crc16 p body) = hi) := by
  have hlen : (body ++ [lo, hi]).length - 2 = body.length := by simp
  unfold crcVerify
  rw [hlen, List.drop_left, List.take_left]
  rw [Bool.eq_iff_iff]
  simp [bytesLe]
  constructor <;> rintro ⟨h1, h2⟩ <;> exact ⟨h1.symm, h2.symm⟩

theorem take_body (body : List Byte) (lo hi : Byte) :
    (body ++ [lo, hi]).take ((body ++ [lo, hi]).length - 2) = body := by
  have hlen : (body ++ [lo, hi]).length - 2 = body.length := by simp
  rw [hlen, List.take_left]

/-- Every sequence of two bytes or more is a body and two bytes. -/
theorem exists_body (f : List Byte) (h : 2 ≤ f.length) : ∃ body lo hi, f = body ++ [lo, hi] := by
  have hd : (f.drop (f.length - 2)).length = 2 := by simp; omega
  obtain ⟨lo, hi, hlh⟩ := List.length_eq_two.mp hd
  exact ⟨f.take (f.length - 2), lo, hi, by rw [← hlh, List.take_append_drop]⟩

/-- The read-type length does not wrap around (41 R150). -/
theorem readTypeLen_toNat (third : Byte) : (readTypeLen third).toNat = third.toNat + 2 := by
  have := third.isLt
  simp [readTypeLen]
  omega

/-- The reply-length inference never asks for more than 257 bytes, and never for one (41 R148). -/
theorem rlen_bounds (fc rfc third : Byte) :
    rlen fc rfc third = 0 ∨ 2 ≤ (rlen fc rfc third).toNat ∧ (rlen fc rfc third).toNat ≤ 257 := by
  have := third.isLt
  have h := readTypeLen_toNat third
  unfold rlen
  split_ifs <;> first | exact Or.inl rfl | (right; constructor <;> (try rw [h]) <;> (try omega) <;> decide)

/-- A header that the parser accepts (41 R141). -/
theorem hdrParse_fields (t0 t1 l0 l1 u : Byte) (rest : List Byte) (hlo : 6 ≤ l0.toNat * 256 + l1.toNat)
    (hhi : l0.toNat * 256 + l1.toNat ≤ 250) :
    hdrParse (t0 :: t1 :: 0 :: 0 :: l0 :: l1 :: u :: rest) =
      .fields (BitVec.ofNat 16 (t0.toNat * 256 + t1.toNat)) 0 (BitVec.ofNat 16 (l0.toNat * 256 + l1.toNat)) u := by
  have h1 : ¬((u16be l0 l1).toNat < lenMin ∨ lenMax < (u16be l0 l1).toNat) := by
    rw [u16be_toNat]; simp [lenMin, lenMax]; omega
  rw [hdrParse]
  simp only [ne_eq, u16be_eq_zero, and_self, not_true_eq_false, if_false, h1]
  simp [u16be_eq_ofNat]

theorem hdrParse_short (b : List Byte) (h : b.length < 7) : hdrParse b = .error .malformedHeader := by
  unfold hdrParse
  split
  · simp at h
    omega
  · rfl

theorem hdrParse_protocol (t0 t1 p0 p1 l0 l1 u : Byte) (rest : List Byte) (h : ¬(p0 = 0 ∧ p1 = 0)) :
    hdrParse (t0 :: t1 :: p0 :: p1 :: l0 :: l1 :: u :: rest) = .error .unsupportedProtocol := by
  have : u16be p0 p1 ≠ 0x0000 := fun hz => h ((u16be_eq_zero p0 p1).mp hz)
  rw [hdrParse]
  exact if_pos this

theorem hdrParse_length (t0 t1 l0 l1 u : Byte) (rest : List Byte)
    (h : l0.toNat * 256 + l1.toNat < 6 ∨ 250 < l0.toNat * 256 + l1.toNat) :
    hdrParse (t0 :: t1 :: 0 :: 0 :: l0 :: l1 :: u :: rest) = .error .invalidLength := by
  have h1 : (u16be l0 l1).toNat < lenMin ∨ lenMax < (u16be l0 l1).toNat := by
    rw [u16be_toNat]; simpa [lenMin, lenMax] using h
  simp [hdrParse, h1, u16be_zero]

/-- What an accepted read satisfies (41 R141, R142): enough bytes for the header, protocol id 0, a legal length, and
the unit id is its seventh byte. -/
theorem hdrParse_accepts {b : List Byte} {tid pid len : Half} {uid : Byte}
    (h : hdrParse b = .fields tid pid len uid) :
    pid = 0 ∧ lenMin ≤ len.toNat ∧ len.toNat ≤ lenMax ∧ b[6]? = some uid := by
  unfold hdrParse at h
  split at h
  · simp only at h
    split at h
    · cases h
    · split at h
      · cases h
      · rename_i hp hl
        cases h
        refine ⟨by simpa using hp, ?_, ?_, rfl⟩ <;> omega
  · cases h

end Machine

end Sys2Proof
end

