-- ==== Sys2Proof/Laws/State.lean ====
section
/-! SUPPORT. One lemma per field per update of the state, so that no later proof unfolds an update. -/

namespace Sys2Proof.Machine

section
variable (s : State)
@[simp] theorem State.setHandler_handlers (i : Nat) (h : Handler) : (s.setHandler i h).handlers = s.handlers.set i h := rfl
@[simp] theorem State.setHandler_q (i : Nat) (h : Handler) : (s.setHandler i h).q = s.q := rfl
@[simp] theorem State.setHandler_w (i : Nat) (h : Handler) : (s.setHandler i h).w = s.w := rfl
@[simp] theorem State.setHandler_codec (i : Nat) (h : Handler) : (s.setHandler i h).codec = s.codec := rfl
@[simp] theorem State.setHandler_ports (i : Nat) (h : Handler) : (s.setHandler i h).ports = s.ports := rfl
@[simp] theorem State.setHandler_ser (i : Nat) (h : Handler) : (s.setHandler i h).ser = s.ser := rfl
@[simp] theorem State.setHandler_rxpend (i : Nat) (h : Handler) : (s.setHandler i h).rxpend = s.rxpend := rfl
@[simp] theorem State.setHandler_cfg (i : Nat) (h : Handler) : (s.setHandler i h).cfg = s.cfg := rfl
@[simp] theorem State.setHandler_now (i : Nat) (h : Handler) : (s.setHandler i h).now = s.now := rfl
@[simp] theorem State.setHandler_trace (i : Nat) (h : Handler) : (s.setHandler i h).trace = s.trace := rfl
@[simp] theorem State.setHandler_script (i : Nat) (h : Handler) : (s.setHandler i h).script = s.script := rfl

@[simp] theorem State.modifyHandler_handlers (i : Nat) (f : Handler → Handler) : (s.modifyHandler i f).handlers = s.handlers.modify i f := rfl
@[simp] theorem State.modifyHandler_q (i : Nat) (f : Handler → Handler) : (s.modifyHandler i f).q = s.q := rfl
@[simp] theorem State.modifyHandler_w (i : Nat) (f : Handler → Handler) : (s.modifyHandler i f).w = s.w := rfl
@[simp] theorem State.modifyHandler_codec (i : Nat) (f : Handler → Handler) : (s.modifyHandler i f).codec = s.codec := rfl
@[simp] theorem State.modifyHandler_ports (i : Nat) (f : Handler → Handler) : (s.modifyHandler i f).ports = s.ports := rfl
@[simp] theorem State.modifyHandler_ser (i : Nat) (f : Handler → Handler) : (s.modifyHandler i f).ser = s.ser := rfl
@[simp] theorem State.modifyHandler_rxpend (i : Nat) (f : Handler → Handler) : (s.modifyHandler i f).rxpend = s.rxpend := rfl
@[simp] theorem State.modifyHandler_cfg (i : Nat) (f : Handler → Handler) : (s.modifyHandler i f).cfg = s.cfg := rfl
@[simp] theorem State.modifyHandler_now (i : Nat) (f : Handler → Handler) : (s.modifyHandler i f).now = s.now := rfl
@[simp] theorem State.modifyHandler_trace (i : Nat) (f : Handler → Handler) : (s.modifyHandler i f).trace = s.trace := rfl
@[simp] theorem State.modifyHandler_script (i : Nat) (f : Handler → Handler) : (s.modifyHandler i f).script = s.script := rfl

@[simp] theorem State.setWorker_handlers (w : Worker) : (s.setWorker w).handlers = s.handlers := rfl
@[simp] theorem State.setWorker_q (w : Worker) : (s.setWorker w).q = s.q := rfl
@[simp] theorem State.setWorker_w (w : Worker) : (s.setWorker w).w = w := rfl
@[simp] theorem State.setWorker_codec (w : Worker) : (s.setWorker w).codec = s.codec := rfl
@[simp] theorem State.setWorker_ports (w : Worker) : (s.setWorker w).ports = s.ports := rfl
@[simp] theorem State.setWorker_ser (w : Worker) : (s.setWorker w).ser = s.ser := rfl
@[simp] theorem State.setWorker_rxpend (w : Worker) : (s.setWorker w).rxpend = s.rxpend := rfl
@[simp] theorem State.setWorker_cfg (w : Worker) : (s.setWorker w).cfg = s.cfg := rfl
@[simp] theorem State.setWorker_now (w : Worker) : (s.setWorker w).now = s.now := rfl
@[simp] theorem State.setWorker_trace (w : Worker) : (s.setWorker w).trace = s.trace := rfl
@[simp] theorem State.setWorker_script (w : Worker) : (s.setWorker w).script = s.script := rfl

@[simp] theorem State.setCodec_handlers (c : Codec) : (s.setCodec c).handlers = s.handlers := rfl
@[simp] theorem State.setCodec_q (c : Codec) : (s.setCodec c).q = s.q := rfl
@[simp] theorem State.setCodec_w (c : Codec) : (s.setCodec c).w = s.w := rfl
@[simp] theorem State.setCodec_codec (c : Codec) : (s.setCodec c).codec = c := rfl
@[simp] theorem State.setCodec_ports (c : Codec) : (s.setCodec c).ports = s.ports := rfl
@[simp] theorem State.setCodec_ser (c : Codec) : (s.setCodec c).ser = s.ser := rfl
@[simp] theorem State.setCodec_rxpend (c : Codec) : (s.setCodec c).rxpend = s.rxpend := rfl
@[simp] theorem State.setCodec_cfg (c : Codec) : (s.setCodec c).cfg = s.cfg := rfl
@[simp] theorem State.setCodec_now (c : Codec) : (s.setCodec c).now = s.now := rfl
@[simp] theorem State.setCodec_trace (c : Codec) : (s.setCodec c).trace = s.trace := rfl
@[simp] theorem State.setCodec_script (c : Codec) : (s.setCodec c).script = s.script := rfl

@[simp] theorem State.setPort_handlers (i : Nat) (p : ClientPort) : (s.setPort i p).handlers = s.handlers := rfl
@[simp] theorem State.setPort_q (i : Nat) (p : ClientPort) : (s.setPort i p).q = s.q := rfl
@[simp] theorem State.setPort_w (i : Nat) (p : ClientPort) : (s.setPort i p).w = s.w := rfl
@[simp] theorem State.setPort_codec (i : Nat) (p : ClientPort) : (s.setPort i p).codec = s.codec := rfl
@[simp] theorem State.setPort_ports (i : Nat) (p : ClientPort) : (s.setPort i p).ports = s.ports.set i p := rfl
@[simp] theorem State.setPort_ser (i : Nat) (p : ClientPort) : (s.setPort i p).ser = s.ser := rfl
@[simp] theorem State.setPort_rxpend (i : Nat) (p : ClientPort) : (s.setPort i p).rxpend = s.rxpend := rfl
@[simp] theorem State.setPort_cfg (i : Nat) (p : ClientPort) : (s.setPort i p).cfg = s.cfg := rfl
@[simp] theorem State.setPort_now (i : Nat) (p : ClientPort) : (s.setPort i p).now = s.now := rfl
@[simp] theorem State.setPort_trace (i : Nat) (p : ClientPort) : (s.setPort i p).trace = s.trace := rfl
@[simp] theorem State.setPort_script (i : Nat) (p : ClientPort) : (s.setPort i p).script = s.script := rfl

@[simp] theorem State.modifyPort_handlers (i : Nat) (f : ClientPort → ClientPort) : (s.modifyPort i f).handlers = s.handlers := rfl
@[simp] theorem State.modifyPort_q (i : Nat) (f : ClientPort → ClientPort) : (s.modifyPort i f).q = s.q := rfl
@[simp] theorem State.modifyPort_w (i : Nat) (f : ClientPort → ClientPort) : (s.modifyPort i f).w = s.w := rfl
@[simp] theorem State.modifyPort_codec (i : Nat) (f : ClientPort → ClientPort) : (s.modifyPort i f).codec = s.codec := rfl
@[simp] theorem State.modifyPort_ports (i : Nat) (f : ClientPort → ClientPort) : (s.modifyPort i f).ports = s.ports.modify i f := rfl
@[simp] theorem State.modifyPort_ser (i : Nat) (f : ClientPort → ClientPort) : (s.modifyPort i f).ser = s.ser := rfl
@[simp] theorem State.modifyPort_rxpend (i : Nat) (f : ClientPort → ClientPort) : (s.modifyPort i f).rxpend = s.rxpend := rfl
@[simp] theorem State.modifyPort_cfg (i : Nat) (f : ClientPort → ClientPort) : (s.modifyPort i f).cfg = s.cfg := rfl
@[simp] theorem State.modifyPort_now (i : Nat) (f : ClientPort → ClientPort) : (s.modifyPort i f).now = s.now := rfl
@[simp] theorem State.modifyPort_trace (i : Nat) (f : ClientPort → ClientPort) : (s.modifyPort i f).trace = s.trace := rfl
@[simp] theorem State.modifyPort_script (i : Nat) (f : ClientPort → ClientPort) : (s.modifyPort i f).script = s.script := rfl

@[simp] theorem State.setSerial_handlers (p : SerialPort) : (s.setSerial p).handlers = s.handlers := rfl
@[simp] theorem State.setSerial_q (p : SerialPort) : (s.setSerial p).q = s.q := rfl
@[simp] theorem State.setSerial_w (p : SerialPort) : (s.setSerial p).w = s.w := rfl
@[simp] theorem State.setSerial_codec (p : SerialPort) : (s.setSerial p).codec = s.codec := rfl
@[simp] theorem State.setSerial_ports (p : SerialPort) : (s.setSerial p).ports = s.ports := rfl
@[simp] theorem State.setSerial_ser (p : SerialPort) : (s.setSerial p).ser = p := rfl
@[simp] theorem State.setSerial_rxpend (p : SerialPort) : (s.setSerial p).rxpend = s.rxpend := rfl
@[simp] theorem State.setSerial_cfg (p : SerialPort) : (s.setSerial p).cfg = s.cfg := rfl
@[simp] theorem State.setSerial_now (p : SerialPort) : (s.setSerial p).now = s.now := rfl
@[simp] theorem State.setSerial_trace (p : SerialPort) : (s.setSerial p).trace = s.trace := rfl
@[simp] theorem State.setSerial_script (p : SerialPort) : (s.setSerial p).script = s.script := rfl

@[simp] theorem State.setPending_handlers (rx : List Byte) : (s.setPending rx).handlers = s.handlers := rfl
@[simp] theorem State.setPending_q (rx : List Byte) : (s.setPending rx).q = s.q := rfl
@[simp] theorem State.setPending_w (rx : List Byte) : (s.setPending rx).w = s.w := rfl
@[simp] theorem State.setPending_codec (rx : List Byte) : (s.setPending rx).codec = s.codec := rfl
@[simp] theorem State.setPending_ports (rx : List Byte) : (s.setPending rx).ports = s.ports := rfl
@[simp] theorem State.setPending_ser (rx : List Byte) : (s.setPending rx).ser = s.ser := rfl
@[simp] theorem State.setPending_cfg (rx : List Byte) : (s.setPending rx).cfg = s.cfg := rfl
@[simp] theorem State.setPending_now (rx : List Byte) : (s.setPending rx).now = s.now := rfl
@[simp] theorem State.setPending_trace (rx : List Byte) : (s.setPending rx).trace = s.trace := rfl
@[simp] theorem State.setPending_script (rx : List Byte) : (s.setPending rx).script = s.script := rfl
@[simp] theorem State.setPending_rxpend (rx : List Byte) : (s.setPending rx).rxpend = rx := rfl

@[simp] theorem State.cross_handlers (e : PortEvent) : (s.cross e).handlers = s.handlers := rfl
@[simp] theorem State.cross_q (e : PortEvent) : (s.cross e).q = s.q := rfl
@[simp] theorem State.cross_w (e : PortEvent) : (s.cross e).w = s.w := rfl
@[simp] theorem State.cross_codec (e : PortEvent) : (s.cross e).codec = s.codec := rfl
@[simp] theorem State.cross_ports (e : PortEvent) : (s.cross e).ports = s.ports := rfl
@[simp] theorem State.cross_ser (e : PortEvent) : (s.cross e).ser = s.ser := rfl
@[simp] theorem State.cross_rxpend (e : PortEvent) : (s.cross e).rxpend = s.rxpend := rfl
@[simp] theorem State.cross_cfg (e : PortEvent) : (s.cross e).cfg = s.cfg := rfl
@[simp] theorem State.cross_now (e : PortEvent) : (s.cross e).now = s.now := rfl
@[simp] theorem State.cross_trace (e : PortEvent) : (s.cross e).trace = s.trace ++ [{ at' := s.now, ev := e }] := rfl
@[simp] theorem State.cross_script (e : PortEvent) : (s.cross e).script = s.script := rfl

@[simp] theorem State.emit_handlers (a : Agent) (k : ErrKind) : (s.emit a k).handlers = s.handlers := rfl
@[simp] theorem State.emit_q (a : Agent) (k : ErrKind) : (s.emit a k).q = s.q := rfl
@[simp] theorem State.emit_w (a : Agent) (k : ErrKind) : (s.emit a k).w = s.w := rfl
@[simp] theorem State.emit_codec (a : Agent) (k : ErrKind) : (s.emit a k).codec = s.codec := rfl
@[simp] theorem State.emit_ports (a : Agent) (k : ErrKind) : (s.emit a k).ports = s.ports := rfl
@[simp] theorem State.emit_ser (a : Agent) (k : ErrKind) : (s.emit a k).ser = s.ser := rfl
@[simp] theorem State.emit_rxpend (a : Agent) (k : ErrKind) : (s.emit a k).rxpend = s.rxpend := rfl
@[simp] theorem State.emit_cfg (a : Agent) (k : ErrKind) : (s.emit a k).cfg = s.cfg := rfl
@[simp] theorem State.emit_now (a : Agent) (k : ErrKind) : (s.emit a k).now = s.now := rfl
@[simp] theorem State.emit_trace (a : Agent) (k : ErrKind) : (s.emit a k).trace = s.trace ++ [{ at' := s.now, ev := .event a k }] := rfl
@[simp] theorem State.emit_script (a : Agent) (k : ErrKind) : (s.emit a k).script = s.script := rfl

@[simp] theorem State.enqueue_handlers (t : Task) : (s.enqueue t).handlers = s.handlers := rfl
@[simp] theorem State.enqueue_q (t : Task) : (s.enqueue t).q = s.q ++ [t] := rfl
@[simp] theorem State.enqueue_w (t : Task) : (s.enqueue t).w = s.w := rfl
@[simp] theorem State.enqueue_codec (t : Task) : (s.enqueue t).codec = s.codec := rfl
@[simp] theorem State.enqueue_ports (t : Task) : (s.enqueue t).ports = s.ports := rfl
@[simp] theorem State.enqueue_ser (t : Task) : (s.enqueue t).ser = s.ser := rfl
@[simp] theorem State.enqueue_rxpend (t : Task) : (s.enqueue t).rxpend = s.rxpend := rfl
@[simp] theorem State.enqueue_cfg (t : Task) : (s.enqueue t).cfg = s.cfg := rfl
@[simp] theorem State.enqueue_now (t : Task) : (s.enqueue t).now = s.now := rfl
@[simp] theorem State.enqueue_trace (t : Task) : (s.enqueue t).trace = s.trace := rfl
@[simp] theorem State.enqueue_script (t : Task) : (s.enqueue t).script = s.script := rfl

@[simp] theorem State.deliver_handlers (i : Nat) (r : List Byte) : (s.deliver i r).handlers = s.handlers.modify i fun h => { h with rslot := some r } := rfl
@[simp] theorem State.deliver_q (i : Nat) (r : List Byte) : (s.deliver i r).q = s.q := rfl
@[simp] theorem State.deliver_w (i : Nat) (r : List Byte) : (s.deliver i r).w = s.w := rfl
@[simp] theorem State.deliver_codec (i : Nat) (r : List Byte) : (s.deliver i r).codec = s.codec := rfl
@[simp] theorem State.deliver_ports (i : Nat) (r : List Byte) : (s.deliver i r).ports = s.ports := rfl
@[simp] theorem State.deliver_ser (i : Nat) (r : List Byte) : (s.deliver i r).ser = s.ser := rfl
@[simp] theorem State.deliver_rxpend (i : Nat) (r : List Byte) : (s.deliver i r).rxpend = s.rxpend := rfl
@[simp] theorem State.deliver_cfg (i : Nat) (r : List Byte) : (s.deliver i r).cfg = s.cfg := rfl
@[simp] theorem State.deliver_now (i : Nat) (r : List Byte) : (s.deliver i r).now = s.now := rfl
@[simp] theorem State.deliver_trace (i : Nat) (r : List Byte) : (s.deliver i r).trace = s.trace := rfl
@[simp] theorem State.deliver_script (i : Nat) (r : List Byte) : (s.deliver i r).script = s.script := rfl

@[simp] theorem State.finish_handlers (r : List Byte) : (s.finish r).handlers = s.handlers := rfl
@[simp] theorem State.finish_q (r : List Byte) : (s.finish r).q = s.q := rfl
@[simp] theorem State.finish_w (r : List Byte) : (s.finish r).w = { s.w with reply := r, state := .deliver, timer := s.w.timer.stop } := rfl
@[simp] theorem State.finish_codec (r : List Byte) : (s.finish r).codec = s.codec := rfl
@[simp] theorem State.finish_ports (r : List Byte) : (s.finish r).ports = s.ports := rfl
@[simp] theorem State.finish_ser (r : List Byte) : (s.finish r).ser = s.ser := rfl
@[simp] theorem State.finish_rxpend (r : List Byte) : (s.finish r).rxpend = s.rxpend := rfl
@[simp] theorem State.finish_cfg (r : List Byte) : (s.finish r).cfg = s.cfg := rfl
@[simp] theorem State.finish_now (r : List Byte) : (s.finish r).now = s.now := rfl
@[simp] theorem State.finish_trace (r : List Byte) : (s.finish r).trace = s.trace := rfl
@[simp] theorem State.finish_script (r : List Byte) : (s.finish r).script = s.script := rfl

@[simp] theorem State.closeConnection_handlers (i : Nat) : (s.closeConnection i).handlers = s.handlers.modify i fun h => { h with state := .closed } := rfl
@[simp] theorem State.closeConnection_q (i : Nat) : (s.closeConnection i).q = s.q := rfl
@[simp] theorem State.closeConnection_w (i : Nat) : (s.closeConnection i).w = s.w := rfl
@[simp] theorem State.closeConnection_codec (i : Nat) : (s.closeConnection i).codec = s.codec := rfl
@[simp] theorem State.closeConnection_ports (i : Nat) : (s.closeConnection i).ports = s.ports.modify i fun p => { p with inbound := [], sendAns := [] } := rfl
@[simp] theorem State.closeConnection_ser (i : Nat) : (s.closeConnection i).ser = s.ser := rfl
@[simp] theorem State.closeConnection_rxpend (i : Nat) : (s.closeConnection i).rxpend = s.rxpend := rfl
@[simp] theorem State.closeConnection_cfg (i : Nat) : (s.closeConnection i).cfg = s.cfg := rfl
@[simp] theorem State.closeConnection_now (i : Nat) : (s.closeConnection i).now = s.now := rfl
@[simp] theorem State.closeConnection_trace (i : Nat) : (s.closeConnection i).trace = s.trace ++ [{ at' := s.now, ev := .cliClose i }] := rfl
@[simp] theorem State.closeConnection_script (i : Nat) : (s.closeConnection i).script = s.script := rfl

@[simp] theorem State.synthesize_handlers (i : Nat) : (s.synthesize i).handlers = s.handlers.modify i fun h => { h with rsp := excFrame h.tid h.pid h.uid h.fc excCode, state := .send } := rfl
@[simp] theorem State.synthesize_q (i : Nat) : (s.synthesize i).q = s.q := rfl
@[simp] theorem State.synthesize_w (i : Nat) : (s.synthesize i).w = s.w := rfl
@[simp] theorem State.synthesize_codec (i : Nat) : (s.synthesize i).codec = s.codec := rfl
@[simp] theorem State.synthesize_ports (i : Nat) : (s.synthesize i).ports = s.ports := rfl
@[simp] theorem State.synthesize_ser (i : Nat) : (s.synthesize i).ser = s.ser := rfl
@[simp] theorem State.synthesize_rxpend (i : Nat) : (s.synthesize i).rxpend = s.rxpend := rfl
@[simp] theorem State.synthesize_cfg (i : Nat) : (s.synthesize i).cfg = s.cfg := rfl
@[simp] theorem State.synthesize_now (i : Nat) : (s.synthesize i).now = s.now := rfl
@[simp] theorem State.synthesize_trace (i : Nat) : (s.synthesize i).trace = s.trace := rfl
@[simp] theorem State.synthesize_script (i : Nat) : (s.synthesize i).script = s.script := rfl

@[simp] theorem State.runCrc_handlers (b : List Byte) : (s.runCrc b).handlers = s.handlers := rfl
@[simp] theorem State.runCrc_q (b : List Byte) : (s.runCrc b).q = s.q := rfl
@[simp] theorem State.runCrc_w (b : List Byte) : (s.runCrc b).w = s.w := rfl
@[simp] theorem State.runCrc_codec (b : List Byte) : (s.runCrc b).codec = { s.codec with acc := crc16 s.cfg.crc b } := rfl
@[simp] theorem State.runCrc_ports (b : List Byte) : (s.runCrc b).ports = s.ports := rfl
@[simp] theorem State.runCrc_ser (b : List Byte) : (s.runCrc b).ser = s.ser := rfl
@[simp] theorem State.runCrc_rxpend (b : List Byte) : (s.runCrc b).rxpend = s.rxpend := rfl
@[simp] theorem State.runCrc_cfg (b : List Byte) : (s.runCrc b).cfg = s.cfg := rfl
@[simp] theorem State.runCrc_now (b : List Byte) : (s.runCrc b).now = s.now := rfl
@[simp] theorem State.runCrc_trace (b : List Byte) : (s.runCrc b).trace = s.trace := rfl
@[simp] theorem State.runCrc_script (b : List Byte) : (s.runCrc b).script = s.script := rfl

@[simp] theorem State.runVerify_handlers (f : List Byte) : (s.runVerify f).handlers = s.handlers := rfl
@[simp] theorem State.runVerify_q (f : List Byte) : (s.runVerify f).q = s.q := rfl
@[simp] theorem State.runVerify_w (f : List Byte) : (s.runVerify f).w = s.w := rfl
@[simp] theorem State.runVerify_codec (f : List Byte) : (s.runVerify f).codec = { s.codec with acc := crc16 s.cfg.crc (f.take (f.length - 2)) } := rfl
@[simp] theorem State.runVerify_ports (f : List Byte) : (s.runVerify f).ports = s.ports := rfl
@[simp] theorem State.runVerify_ser (f : List Byte) : (s.runVerify f).ser = s.ser := rfl
@[simp] theorem State.runVerify_rxpend (f : List Byte) : (s.runVerify f).rxpend = s.rxpend := rfl
@[simp] theorem State.runVerify_cfg (f : List Byte) : (s.runVerify f).cfg = s.cfg := rfl
@[simp] theorem State.runVerify_now (f : List Byte) : (s.runVerify f).now = s.now := rfl
@[simp] theorem State.runVerify_trace (f : List Byte) : (s.runVerify f).trace = s.trace := rfl
@[simp] theorem State.runVerify_script (f : List Byte) : (s.runVerify f).script = s.script := rfl

end

end Sys2Proof.Machine
end

