-- ==== Sys2Proof/Laws/Ops.lean ====
section
/-! SUPPORT. One lemma for each shared operation: what it is on the arguments it is used with, and everything it can
answer. -/

namespace Sys2Proof.Machine

/-! ## Lists of registers -/

theorem modify_eq_set {α : Type} {l : List α} {i : Nat} {a : α} (f : α → α) (h : l[i]? = some a) :
    l.modify i f = l.set i (f a) := by
  apply List.ext_getElem?
  intro j
  rw [List.getElem?_modify, List.getElem?_set]
  by_cases hij : i = j
  · subst hij
    have hi : i < l.length := by
      by_contra hn
      rw [List.getElem?_eq_none (by omega)] at h
      cases h
    simp [hi, (List.getElem?_eq_some_iff.mp h).2]
  · simp [hij]

@[simp] theorem set_modify {α : Type} (l : List α) (i : Nat) (a : α) (f : α → α) :
    (l.set i a).modify i f = l.set i (f a) := by
  apply List.ext_getElem?
  intro j
  rw [List.getElem?_modify, List.getElem?_set, List.getElem?_set]
  by_cases hij : i = j
  · subst hij
    by_cases hi : i < l.length <;> simp [hi]
  · simp [hij]

theorem lt_of_getElem? {α : Type} {l : List α} {i : Nat} {a : α} (h : l[i]? = some a) : i < l.length := by
  by_contra hn
  rw [List.getElem?_eq_none (by omega)] at h
  cases h

theorem getElem?_set_of_some {α : Type} {l : List α} {i : Nat} {a : α} (h : l[i]? = some a) (b : α) :
    (l.set i b)[i]? = some b := by
  simp [lt_of_getElem? h]

/-! ## Access to a handler and a port -/

theorem withHandler_of {i : Nat} {s : State} {h : Handler} (k : Handler → Out) (hh : s.handlers[i]? = some h) :
    withHandler i s k = k h := by simp [withHandler, hh]

theorem withPort_of {i : Nat} {s : State} {h : Handler} {p : ClientPort} (k : Handler → ClientPort → Out)
    (hh : s.handlers[i]? = some h) (hp : s.ports[i]? = some p) : withPort i s k = k h p := by
  simp [withPort, hh, hp]

theorem withHandler_next {i : Nat} {s t : State} {k : Handler → Out} (e : withHandler i s k = .next t) :
    ∃ h, s.handlers[i]? = some h ∧ k h = .next t := by
  unfold withHandler at e
  split at e
  · exact ⟨_, ‹_›, e⟩
  · cases e

theorem withPort_next {i : Nat} {s t : State} {k : Handler → ClientPort → Out} (e : withPort i s k = .next t) :
    ∃ h p, s.handlers[i]? = some h ∧ s.ports[i]? = some p ∧ k h p = .next t := by
  unfold withPort at e
  split at e
  · exact ⟨_, _, ‹_›, ‹_›, e⟩
  · cases e

theorem withClientPort_next {i : Nat} {s t : State} {k : ClientPort → Out} (e : withClientPort i s k = .next t) :
    ∃ p, s.ports[i]? = some p ∧ k p = .next t := by
  unfold withClientPort at e
  split at e
  · exact ⟨_, ‹_›, e⟩
  · cases e

@[simp] theorem waits_next {s t : State} : waits s = .next t ↔ s = t := by simp [waits]

/-! ## Timer -/

@[simp] theorem Timer.stop_running (t : Timer) : t.stop.running = false := rfl
@[simp] theorem Timer.stop_left (t : Timer) : t.stop.left = t.left := rfl
@[simp] theorem Timer.start_running (ms : BitVec 32) : (Timer.start ms).running = true := rfl
@[simp] theorem Timer.start_left (ms : BitVec 32) : (Timer.start ms).left = ms := rfl

@[simp] theorem Timer.expired_iff (t : Timer) : t.expired = true ↔ t.running = true ∧ t.left = 0 := by
  simp [Timer.expired]

@[simp] theorem Timer.elapse_running (ms : Nat) (t : Timer) : (t.elapse ms).running = t.running := by
  unfold Timer.elapse
  split <;> simp_all

theorem Timer.elapse_left (ms : Nat) (t : Timer) :
    (t.elapse ms).left.toNat = if t.running then t.left.toNat - ms else t.left.toNat := by
  have := t.left.isLt
  unfold Timer.elapse
  split
  · simp [*]; omega
  · simp [*]

/-! ## Windows and serial reads -/

@[simp] theorem reading_iff (s : State) : s.reading = true ↔ s.w.state = .rdHdr ∨ s.w.state = .rdTrl := by
  simp [State.reading]

theorem windowOpen_iff (s : State) :
    s.windowOpen = true ↔ (s.w.state = .rdHdr ∨ s.w.state = .rdTrl) ∧ s.ser.readAns = none := by
  simp [State.windowOpen]

/-- Nothing has closed a window that lacks bytes, has time left and has met no error. -/
theorem readEnds_none {n : Nat} {rx : List Byte} {fail expired : Bool} :
    readEnds n rx fail expired = none ↔ fail = false ∧ rx.length < n ∧ expired = false := by
  unfold readEnds
  cases fail <;> cases expired <;> by_cases h : n ≤ rx.length <;> simp [h]
  omega

/-- A read returns no more than it asked for. -/
theorem readEnds_bounded {n : Nat} {rx b : List Byte} {fail expired : Bool}
    (h : readEnds n rx fail expired = some (.got b)) : b.length ≤ n := by
  unfold readEnds at h
  split at h
  · cases h
  · split at h
    · cases h; simp
    · split at h
      · cases h; omega
      · cases h

/-- A closed window, and no window, has nothing to settle. -/
theorem settle_closed {s : State} (h : s.windowOpen = false) : s.settle = s := by simp [State.settle, h]

/-- A window that nothing has closed stays open. -/
theorem settle_waiting {s : State} (h : readEnds s.asked s.rxpend s.ser.rxFail s.w.timer.expired = none) :
    s.settle = s := by simp [State.settle, h]

/-- What has closed the window becomes the answer to its read, which asked for `n` bytes. -/
theorem settle_ended {s : State} {n : Nat} {r : ReadResult} (ho : s.windowOpen = true) (hn : s.asked = n)
    (h : readEnds n s.rxpend s.ser.rxFail s.w.timer.expired = some r) :
    s.settle = { s with
      rxpend := s.rxpend.drop n, ser := { s.ser with readAns := some r, rxFail := false } } := by
  subst hn
  simp [State.settle, ho, h]

/-- Everything `settle` can do: nothing, when no window is open or nothing has closed it; else close it. -/
theorem settle_cases (s : State) :
    s.settle = s ∧ (s.windowOpen = true → readEnds s.asked s.rxpend s.ser.rxFail s.w.timer.expired = none) ∨
    ∃ r, s.windowOpen = true ∧ readEnds s.asked s.rxpend s.ser.rxFail s.w.timer.expired = some r ∧
      s.settle = { s with
        rxpend := s.rxpend.drop s.asked, ser := { s.ser with readAns := some r, rxFail := false } } := by
  cases ho : s.windowOpen
  · exact .inl ⟨settle_closed ho, nofun⟩
  · cases h : readEnds s.asked s.rxpend s.ser.rxFail s.w.timer.expired with
    | none => exact .inl ⟨settle_waiting h, fun _ => rfl⟩
    | some r => exact .inr ⟨r, rfl, rfl, settle_ended ho rfl h⟩

/-- `settle` writes only `SER.rxpend` and the serial port. -/
theorem settle_frame (s : State) : s.settle = { s with rxpend := s.settle.rxpend, ser := s.settle.ser } := by
  obtain ⟨h, -⟩ | ⟨r, -, -, h⟩ := settle_cases s <;> rw [h]

@[simp] theorem settle_handlers (s : State) : s.settle.handlers = s.handlers := by rw [settle_frame]
@[simp] theorem settle_q (s : State) : s.settle.q = s.q := by rw [settle_frame]
@[simp] theorem settle_w (s : State) : s.settle.w = s.w := by rw [settle_frame]
@[simp] theorem settle_codec (s : State) : s.settle.codec = s.codec := by rw [settle_frame]
@[simp] theorem settle_ports (s : State) : s.settle.ports = s.ports := by rw [settle_frame]
@[simp] theorem settle_cfg (s : State) : s.settle.cfg = s.cfg := by rw [settle_frame]
@[simp] theorem settle_now (s : State) : s.settle.now = s.now := by rw [settle_frame]
@[simp] theorem settle_trace (s : State) : s.settle.trace = s.trace := by rw [settle_frame]
@[simp] theorem settle_script (s : State) : s.settle.script = s.script := by rw [settle_frame]

@[simp] theorem elapse_handlers (ms : Nat) (s : State) : (s.elapse ms).handlers = s.handlers := settle_handlers _
@[simp] theorem elapse_q (ms : Nat) (s : State) : (s.elapse ms).q = s.q := settle_q _
@[simp] theorem elapse_w (ms : Nat) (s : State) : (s.elapse ms).w = { s.w with timer := s.w.timer.elapse ms } :=
  settle_w _
@[simp] theorem elapse_codec (ms : Nat) (s : State) : (s.elapse ms).codec = s.codec := settle_codec _
@[simp] theorem elapse_ports (ms : Nat) (s : State) : (s.elapse ms).ports = s.ports := settle_ports _
@[simp] theorem elapse_cfg (ms : Nat) (s : State) : (s.elapse ms).cfg = s.cfg := settle_cfg _
@[simp] theorem elapse_now (ms : Nat) (s : State) : (s.elapse ms).now = s.now + ms := settle_now _
@[simp] theorem elapse_trace (ms : Nat) (s : State) : (s.elapse ms).trace = s.trace := settle_trace _
@[simp] theorem elapse_script (ms : Nat) (s : State) : (s.elapse ms).script = s.script := settle_script _

/-- Settling makes the windows well-formed, whatever has just happened to an open one. -/
theorem settle_windowOk {s : State} (answered : s.ser.readAns ≠ none → s.reading = true)
    (bounded : ∀ b, s.ser.readAns = some (.got b) → b.length ≤ s.asked ∧ (s.ser.tie = true → b.length < s.asked))
    (running : s.windowOpen = true → s.w.timer.running = true)
    (tie : s.windowOpen = true → s.ser.tie = true →
      s.w.timer.left = 0 ∧ s.rxpend.length < s.asked ∧ s.ser.rxFail = false)
    (stale : s.cfg.rxStale = .refuse → s.windowOpen = false → s.rxpend = [])
    (fits : s.cfg.rxStale = .refuse → s.windowOpen = true → s.rxpend.length ≤ s.asked) : s.settle.WindowOk := by
  obtain ⟨h, hn⟩ | ⟨r, ho, hr, h⟩ := settle_cases s <;> rw [h]
  · refine ⟨answered, bounded, fun ho => ?_, stale⟩
    obtain ⟨h1, h2, h3⟩ := readEnds_none.mp (hn ho)
    have hrun := running ho
    have hl : s.w.timer.left ≠ 0 := by simpa [Timer.expired, hrun] using h3
    exact ⟨h2, hl, h1, by simpa using fun ht => hl (tie ho ht).1⟩
  · have hread : s.reading = true := by simp only [State.windowOpen, Bool.and_eq_true] at ho; exact ho.1
    refine ⟨fun _ => hread, ?_, ?_, ?_⟩
    · intro b hb
      cases hb
      refine ⟨readEnds_bounded hr, fun ht => ?_⟩
      obtain ⟨h1, h2, h3⟩ := tie ho ht
      simp [readEnds, h3, Nat.not_le.mpr h2] at hr
      exact hr.2 ▸ h2
    · intro ho'
      simp [State.windowOpen] at ho'
    · intro hc _
      exact List.drop_eq_nil_of_le (fits hc ho)

theorem openWindow_next {st : WState} {s t : State} (e : s.openWindow st = .next t) :
    s.cfg.tSer ≠ 0 ∧ t = ((s.setWorker { s.w with state := st, timer := Timer.start s.cfg.tSer }).setSerial
      { s.ser with readAns := none, tie := false }).settle := by
  unfold State.openWindow at e
  split at e
  · cases e
  · exact ⟨‹_›, by cases e; rfl⟩

theorem openWindow_of {st : WState} {s : State} (h : s.cfg.tSer ≠ 0) :
    s.openWindow st = .next ((s.setWorker { s.w with state := st, timer := Timer.start s.cfg.tSer }).setSerial
      { s.ser with readAns := none, tie := false }).settle := if_neg h

/-- A serial read returns the answer of its closed window, once. -/
theorem serRead_cases {n : Nat} {s t : State} {r : ReadResult} (e : s.serRead n = some (r, t)) :
    s.ser.readAns = some r ∧ t = (s.setSerial { s.ser with readAns := none }).cross (r.crossing n) := by
  unfold State.serRead at e
  split at e
  · cases e; exact ⟨‹_›, rfl⟩
  · cases e

theorem serRead_of {n : Nat} {s : State} {r : ReadResult} (h : s.ser.readAns = some r) :
    s.serRead n = some (r, (s.setSerial { s.ser with readAns := none }).cross (r.crossing n)) := by
  simp [State.serRead, h]

theorem serRead_none {n : Nat} {s : State} (h : s.ser.readAns = none) : s.serRead n = none := by
  simp [State.serRead, h]

/-- Flushing discards the pending bytes or, with another `RX_STALE`, nothing (70 R302). -/
theorem flushStale_eq (s : State) :
    s.flushStale = s.setPending (if s.cfg.rxStale = .flush then [] else s.rxpend) := by
  unfold State.flushStale
  split <;> rfl

/-- What a reset leaves of a write: a part of the frame on the bus, or nothing (70 R292). -/
theorem cutWrite_cases (sent : Nat) (s : State) :
    s.cutWrite sent = s ∨ ∃ t, s.w.state = .write ∧ s.w.task = some t ∧
      s.cutWrite sent = s.cross (.serCut (t.frame.take sent)) := by
  unfold State.cutWrite
  split
  · split
    · rename_i ht h; exact .inr ⟨_, h.1, ht, rfl⟩
    · exact .inl rfl
  · exact .inl rfl

/-! ## Error kinds -/

/-- The kinds that end a connection (60_exceptions R253, R258). -/
def ErrKind.fatal : ErrKind → Bool
  | .tooShort => true
  | .malformedHeader => true
  | .unsupportedProtocol => true
  | .invalidLength => true
  | .socketWriteFailure => true
  | .noBusReply => false
  | .shortOrInvalidBusReply => false
  | .checksumMismatch => false
  | .serialWriteOrReadFailure => false

/-- The kinds answered with the exception response (60_exceptions R254 to R256). -/
def ErrKind.answered : ErrKind → Bool
  | .noBusReply => true
  | .shortOrInvalidBusReply => true
  | .checksumMismatch => true
  | .tooShort => false
  | .malformedHeader => false
  | .unsupportedProtocol => false
  | .invalidLength => false
  | .socketWriteFailure => false
  | .serialWriteOrReadFailure => false

theorem raise_fatal (k : ErrKind) (i : Nat) (s : State) (h : k.fatal = true) :
    s.raise k (.handler i) = (s.emit (.handler i) k).closeConnection i := by
  cases k <;> first | rfl | cases h

theorem raise_answered (k : ErrKind) (i : Nat) (s : State) (h : k.answered = true) :
    s.raise k (.handler i) = (s.emit (.handler i) k).synthesize i := by
  cases k <;> first | rfl | cases h

@[simp] theorem raise_serial (s : State) :
    s.raise .serialWriteOrReadFailure .worker = (s.emit .worker .serialWriteOrReadFailure).finish [] := rfl

@[simp] theorem raise_tooShort (i : Nat) (s : State) :
    s.raise .tooShort (.handler i) = (s.emit (.handler i) .tooShort).closeConnection i := rfl

@[simp] theorem raise_socketWriteFailure (i : Nat) (s : State) :
    s.raise .socketWriteFailure (.handler i) = (s.emit (.handler i) .socketWriteFailure).closeConnection i := rfl

@[simp] theorem raise_unsupportedProtocol (i : Nat) (s : State) :
    s.raise .unsupportedProtocol (.handler i) = (s.emit (.handler i) .unsupportedProtocol).closeConnection i := rfl

@[simp] theorem raise_noBusReply (i : Nat) (s : State) :
    s.raise .noBusReply (.handler i) = (s.emit (.handler i) .noBusReply).synthesize i := rfl

@[simp] theorem raise_shortOrInvalidBusReply (i : Nat) (s : State) :
    s.raise .shortOrInvalidBusReply (.handler i) = (s.emit (.handler i) .shortOrInvalidBusReply).synthesize i := rfl

@[simp] theorem raise_checksumMismatch (i : Nat) (s : State) :
    s.raise .checksumMismatch (.handler i) = (s.emit (.handler i) .checksumMismatch).synthesize i := rfl

@[simp] theorem raise_hdrErr (e : HdrErr) (i : Nat) (s : State) :
    s.raise e.kind (.handler i) = (s.emit (.handler i) e.kind).closeConnection i := by cases e <;> rfl

end Sys2Proof.Machine
end

