-- ==== Sys2Proof/Laws/Moves.lean ====
section
/-! SUPPORT. Everything an operation, an environment event and a step can do, said once: one constructor per outcome,
with the guards it was reached under and the whole next state. -/

namespace Sys2Proof.Machine

/-- What kind of operation a handler runs: SUBMIT, the one that reaches the queue; H.RECV or H.AWAIT, the two that lead
to `H_DECODE`; or any other. -/
inductive HKind where
  | plain | submits | decodes
  deriving DecidableEq, Repr

/-- What an operation of handler `i` can do, by its kind `k`. -/
inductive HMove (i : Nat) (k : HKind) (s : State) : State → Prop where
  | wait : HMove i k s s
  | opened (h : Handler) (p : ClientPort) (hh : s.handlers[i]? = some h) (hp : s.ports[i]? = some p)
      (hs : h.state = .closed) (ho : p.openReq = true) :
      HMove i k s { s with
        handlers := s.handlers.set i { h with state := .recv },
        ports := s.ports.set i { p with openReq := false },
        trace := s.trace ++ [⟨s.now, .cliOpen i⟩] }
  | rejected (h : Handler) (p : ClientPort) (b : List Byte) (rest : List (List Byte)) (e : ErrKind)
      (hh : s.handlers[i]? = some h) (hp : s.ports[i]? = some p) (hs : h.state = .recv) (hb : p.inbound = b :: rest) :
      HMove i k s { s with
        handlers := s.handlers.set i { h with req := b, n := b.length, state := .closed },
        ports := s.ports.set i { p with inbound := [], sendAns := [] },
        trace := s.trace ++ [⟨s.now, .cliRecv i b⟩, ⟨s.now, .event (.handler i) e⟩, ⟨s.now, .cliClose i⟩] }
  | accepted (h : Handler) (p : ClientPort) (b : List Byte) (rest : List (List Byte)) (tid pid len : Half) (uid : Byte)
      (hh : s.handlers[i]? = some h) (hp : s.ports[i]? = some p) (hs : h.state = .recv)
      (hb : p.inbound = b :: rest) (hparse : hdrParse b = .fields tid pid len uid)
      (hlen : 6 + len.toNat ≤ b.length) (hk : k = .decodes) :
      HMove i k s { s with
        handlers := s.handlers.set i { h with
          req := b, n := b.length, tid := tid, pid := pid, len := len, uid := uid, state := .decode },
        ports := s.ports.set i { p with inbound := rest },
        trace := s.trace ++ [⟨s.now, .cliRecv i b⟩] }
  | parsed (h : Handler) (b : List Byte) (tid pid len : Half) (uid : Byte) (v : FlagValue)
      (hh : s.handlers[i]? = some h) (hs : h.state = .recv) (hparse : hdrParse b = .fields tid pid len uid) :
      HMove i k s { s with
        handlers := s.handlers.set i { h with tid := tid, pid := pid, len := len, uid := uid },
        trace := s.trace ++ [⟨s.now, .flag v⟩] }
  | flagged (h : Handler) (v : FlagValue) (hh : s.handlers[i]? = some h) (hs : h.state = .recv) :
      HMove i k s { s with trace := s.trace ++ [⟨s.now, .flag v⟩] }
  | fatal (h : Handler) (e : ErrKind) (v : FlagValue) (hh : s.handlers[i]? = some h) (hs : h.state = .recv) :
      HMove i k s { s with
        handlers := s.handlers.set i { h with state := .closed },
        ports := s.ports.modify i fun p => { p with inbound := [], sendAns := [] },
        trace := s.trace ++ [⟨s.now, .flag v⟩, ⟨s.now, .event (.handler i) e⟩, ⟨s.now, .cliClose i⟩] }
  | classified (h : Handler) (bc : Bool) (hh : s.handlers[i]? = some h) (hs : h.state = .decode) :
      HMove i k s { s with handlers := s.handlers.set i { h with bc := bc } }
  | encoded (h : Handler) (fc : Byte) (payload : List Byte) (c : Codec) (hh : s.handlers[i]? = some h)
      (hs : h.state = .decode) (hfc : h.req[7]? = some fc)
      (hpl : rtuPayload h.req h.len = some payload) :
      HMove i k s { s with
        handlers := s.handlers.set i { h with bc := isBroadcastUid h.uid, fc := fc },
        codec := c }
  | submitted (h : Handler) (frame : List Byte) (hh : s.handlers[i]? = some h) (hs : h.state = .decode)
      (hframe : h.frame s.cfg.crc = some frame) (hk : k = .submits) :
      HMove i k s { s with
        q := s.q ++ [{ frame := frame, src := i, isBroadcast := h.bc }],
        handlers := s.handlers.set i { h with state := .await } }
  | answered (h : Handler) (r : List Byte) (hh : s.handlers[i]? = some h) (hs : h.state = .await)
      (hr : h.rslot = some r) (hk : k = .decodes) :
      HMove i k s { s with handlers := s.handlers.set i { h with rslot := none, state := .decode } }
  | broadcastDone (h : Handler) (hh : s.handlers[i]? = some h) (hs : h.state = .decode) (hb : h.bc = true) :
      HMove i k s { s with handlers := s.handlers.set i { h with state := .recv } }
  | succeeded (h : Handler) (r : List Byte) (c : Codec) (hh : s.handlers[i]? = some h) (hs : h.state = .decode)
      (hb : h.bc = false) (hlen : 5 ≤ r.length)
      (hv : crcVerify s.cfg.crc r = true) :
      HMove i k s { s with
        handlers := s.handlers.set i { h with rsp := rspOkFrame h.tid h.pid r, state := .send }, codec := c }
  | excepted (h : Handler) (e : ErrKind) (c : Codec) (hh : s.handlers[i]? = some h) (hs : h.state = .decode)
      (hb : h.bc = false) :
      HMove i k s { s with
        handlers := s.handlers.set i { h with rsp := excFrame h.tid h.pid h.uid h.fc excCode, state := .send },
        codec := c,
        trace := s.trace ++ [⟨s.now, .event (.handler i) e⟩] }
  | built (h : Handler) (rsp : List Byte) (hh : s.handlers[i]? = some h) (hs : h.state = .decode) :
      HMove i k s { s with handlers := s.handlers.set i { h with rsp := rsp } }
  | sent (h : Handler) (p : ClientPort) (rs : List IoResult) (hh : s.handlers[i]? = some h)
      (hp : s.ports[i]? = some p) (hs : h.state = .send) (ha : p.sendAns = .ok :: rs) :
      HMove i k s { s with
        handlers := s.handlers.set i { h with state := .recv },
        ports := s.ports.set i { p with sendAns := rs },
        trace := s.trace ++ [⟨s.now, .cliSend i h.rsp .ok⟩] }
  | sendFailed (h : Handler) (p : ClientPort) (rs : List IoResult) (hh : s.handlers[i]? = some h)
      (hp : s.ports[i]? = some p) (hs : h.state = .send) (ha : p.sendAns = .fail :: rs) :
      HMove i k s { s with
        handlers := s.handlers.set i { h with state := .closed },
        ports := s.ports.set i { p with inbound := [], sendAns := [] },
        trace := s.trace ++ [⟨s.now, .cliSend i h.rsp .fail⟩,
          ⟨s.now, .event (.handler i) .socketWriteFailure⟩, ⟨s.now, .cliClose i⟩] }
  | closed (h : Handler) (hh : s.handlers[i]? = some h) (hs : h.state = .recv ∨ h.state = .send) :
      HMove i k s { s with
        handlers := s.handlers.set i { h with state := .closed },
        ports := s.ports.modify i fun p => { p with inbound := [], sendAns := [] },
        trace := s.trace ++ [⟨s.now, .cliClose i⟩] }

/-- What a step of handler `i` can do: one operation that leads to no `H_DECODE`, or one that does together with what
completes its loop pass (10_state R25). -/
inductive PMove (i : Nat) (s : State) : State → Prop where
  | alone (k : HKind) (t : State) (hk : k ≠ .decodes) (m : HMove i k s t) : PMove i s t
  | forwarded (h : Handler) (p : ClientPort) (b : List Byte) (rest : List (List Byte)) (tid pid len : Half)
      (uid fc : Byte) (payload : List Byte) (c : Codec) (hh : s.handlers[i]? = some h) (hp : s.ports[i]? = some p)
      (hs : h.state = .recv) (hb : p.inbound = b :: rest) (hparse : hdrParse b = .fields tid pid len uid)
      (hlen : 6 + len.toNat ≤ b.length) (hfc : b[7]? = some fc) (hpl : rtuPayload b len = some payload) :
      PMove i s { s with
        handlers := s.handlers.set i { h with
          req := b, n := b.length, tid := tid, pid := pid, len := len, uid := uid, fc := fc,
          bc := isBroadcastUid uid, state := .await },
        ports := s.ports.set i { p with inbound := rest },
        trace := s.trace ++ [⟨s.now, .cliRecv i b⟩],
        codec := c,
        q := s.q ++ [{ frame := rtuFrame s.cfg.crc payload, src := i, isBroadcast := isBroadcastUid uid }] }
  | broadcastDone (h : Handler) (r : List Byte) (hh : s.handlers[i]? = some h) (hs : h.state = .await)
      (hr : h.rslot = some r) (hb : h.bc = true) :
      PMove i s { s with handlers := s.handlers.set i { h with rslot := none, state := .recv } }
  | succeeded (h : Handler) (r : List Byte) (c : Codec) (hh : s.handlers[i]? = some h) (hs : h.state = .await)
      (hr : h.rslot = some r) (hb : h.bc = false) (hlen : 5 ≤ r.length) (hv : crcVerify s.cfg.crc r = true) :
      PMove i s { s with
        handlers := s.handlers.set i { h with
          rslot := none, rsp := rspOkFrame h.tid h.pid r, state := .send },
        codec := c }
  | excepted (h : Handler) (r : List Byte) (e : ErrKind) (c : Codec) (hh : s.handlers[i]? = some h)
      (hs : h.state = .await) (hr : h.rslot = some r) (hb : h.bc = false) :
      PMove i s { s with
        handlers := s.handlers.set i { h with
          rslot := none, rsp := excFrame h.tid h.pid h.uid h.fc excCode, state := .send },
        codec := c,
        trace := s.trace ++ [⟨s.now, .event (.handler i) e⟩] }

/-- What an operation of the Bus Worker can do. -/
inductive WMove (s : State) : State → Prop where
  | wait : WMove s s
  | fetched (t : Task) (ts : List Task) (hs : s.w.state = .idle) (hq : s.q = t :: ts) :
      WMove s { s with q := ts, w := { s.w with task := some t, state := .write } }
  | writeDone (t : Task) (r : IoResult) (rs : List IoResult) (rx : List Byte) (new : List Crossing)
      (hs : s.w.state = .write) (ht : s.w.task = some t) (ha : s.ser.writeAns = r :: rs)
      (hnew : new = [⟨s.now, .serWrite t.frame r⟩] ∨
        new = [⟨s.now, .serWrite t.frame r⟩, ⟨s.now, .event .worker .serialWriteOrReadFailure⟩])
      (hrx : rx = [] ∨ rx = s.rxpend) :
      WMove s { s with
        rxpend := rx,
        ser := { s.ser with writeAns := rs },
        trace := s.trace ++ new,
        w := { s.w with reply := [], state := .deliver, timer := s.w.timer.stop } }
  | writeAwaits (t : Task) (rs : List IoResult) (rx : List Byte) (hs : s.w.state = .write)
      (ht : s.w.task = some t) (ha : s.ser.writeAns = .ok :: rs) (hb : t.isBroadcast = false)
      (hts : s.cfg.tSer ≠ 0) (hrx : rx = [] ∨ rx = s.rxpend) :
      WMove s (State.settle { s with
        rxpend := rx,
        ser := { s.ser with writeAns := rs, readAns := none, tie := false },
        trace := s.trace ++ [⟨s.now, .serWrite t.frame .ok⟩],
        w := { s.w with state := .rdHdr, timer := Timer.start s.cfg.tSer } })
  | inferred (tlen : BitVec 9) (hs : s.w.state = .rdHdr) : WMove s { s with w := { s.w with tlen := tlen } }
  | noReply (hdr : List Byte) (tlen : BitVec 9) (new : List Crossing)
      (hs : s.w.state = .rdHdr ∨ s.w.state = .rdTrl) (hr : s.ser.readAns ≠ none)
      (hnew : (∃ n b, new = [⟨s.now, .serRead n b⟩]) ∨
        ∃ n, new = [⟨s.now, .serReadFail n⟩, ⟨s.now, .event .worker .serialWriteOrReadFailure⟩]) :
      WMove s { s with
        ser := { s.ser with readAns := none },
        trace := s.trace ++ new,
        w := { s.w with hdr := hdr, tlen := tlen, reply := [], state := .deliver, timer := s.w.timer.stop } }
  | header (b0 b1 b2 fc : Byte) (hs : s.w.state = .rdHdr) (hfc : s.taskFc = some fc)
      (hr : s.ser.readAns = some (.got [b0, b1, b2])) (hts : s.cfg.tSer ≠ 0) (hl : rlen fc b1 b2 ≠ 0) :
      WMove s (State.settle { s with
        ser := { s.ser with readAns := none, tie := false },
        trace := s.trace ++ [⟨s.now, .serRead 3 [b0, b1, b2]⟩],
        w := { s.w with
          hdr := [b0, b1, b2], tlen := rlen fc b1 b2, state := .rdTrl, timer := Timer.start s.cfg.tSer } })
  | trailer (b : List Byte) (hs : s.w.state = .rdTrl) (hr : s.ser.readAns = some (.got b))
      (hlen : s.w.tlen.toNat ≤ b.length) :
      WMove s { s with
        ser := { s.ser with readAns := none },
        trace := s.trace ++ [⟨s.now, .serRead s.w.tlen.toNat b⟩],
        w := { s.w with trl := b, reply := s.w.hdr ++ b, state := .deliver, timer := s.w.timer.stop } }
  | delivered (t : Task) (hs : s.w.state = .deliver) (ht : s.w.task = some t) :
      WMove s { s with
        handlers := s.handlers.modify t.src fun h => { h with rslot := some s.w.reply },
        w := { s.w with task := none, state := .quiet, timer := Timer.start s.cfg.tIfd } }
  | quietOver (hs : s.w.state = .quiet) (hr : s.w.timer.running = true) (hl : s.w.timer.left = 0) :
      WMove s { s with w := { s.w with state := .idle, timer := s.w.timer.stop } }

/-- What an environment event other than a reset can do. -/
inductive EMove (s : State) : State → Prop where
  | port (i : Nat) (p p' : ClientPort) (hp : s.ports[i]? = some p)
      (hin : p'.inbound = p.inbound ∨ ∃ b, b.length ≤ reqMax ∧ p'.inbound = p.inbound ++ [b]) :
      EMove s { s with ports := s.ports.set i p' }
  | writeAns (r : IoResult) : EMove s { s with ser := { s.ser with writeAns := s.ser.writeAns ++ [r] } }
  | arrived (b : Byte) (ha : s.windowOpen = true ∨ s.cfg.rxStale ≠ .refuse) :
      EMove s (State.settle { s with
        rxpend := s.rxpend ++ [b],
        ser := { s.ser with tie := false },
        trace := s.trace ++ [⟨s.now, .serByte b⟩] })
  | tooLate (b : Byte) (hw : s.windowOpen = false) (ht : s.ser.tie = true) :
      EMove s { s with ser := { s.ser with tie := false }, trace := s.trace ++ [⟨s.now, .serByte b⟩] }
  | inTime (b : Byte) (bs : List Byte) (ht : s.ser.tie = true) (hr : s.ser.readAns = some (.got bs)) :
      EMove s { s with
        ser := { s.ser with readAns := some (.got (bs ++ [b])), tie := false },
        trace := s.trace ++ [⟨s.now, .serByte b⟩] }
  | rxFail : EMove s (State.settle { s with ser := { s.ser with rxFail := true } })
  | elapsed (ms : Nat) : EMove s (s.elapse ms)

/-! ## The handlers' operations -/

theorem emit_closeConnection {i : Nat} {s : State} {h : Handler} (k : ErrKind) (hh : s.handlers[i]? = some h) :
    (s.emit (.handler i) k).closeConnection i = { s with
      handlers := s.handlers.set i { h with state := .closed },
      ports := s.ports.modify i fun p => { p with inbound := [], sendAns := [] },
      trace := s.trace ++ [⟨s.now, .event (.handler i) k⟩, ⟨s.now, .cliClose i⟩] } := by
  simp [State.closeConnection, State.emit, State.cross, State.modifyHandler, State.modifyPort, modify_eq_set _ hh]

theorem emit_synthesize {i : Nat} {s : State} {h : Handler} (k : ErrKind) (hh : s.handlers[i]? = some h) :
    (s.emit (.handler i) k).synthesize i = { s with
      handlers := s.handlers.set i { h with rsp := excFrame h.tid h.pid h.uid h.fc excCode, state := .send },
      trace := s.trace ++ [⟨s.now, .event (.handler i) k⟩] } := by
  simp [State.synthesize, State.emit, State.cross, State.modifyHandler, modify_eq_set _ hh]

theorem execHOpen_moves {i : Nat} {s t : State} (e : execHOpen i s = .next t) : HMove i .plain s t := by
  obtain ⟨h, p, hh, hp, e⟩ := withPort_next e
  split at e
  · rename_i hc
    cases e
    exact .opened h p hh hp hc.1 hc.2
  · cases e; exact .wait

theorem execHRecv_moves {i : Nat} {s t : State} (e : execHRecv i s = .next t) : HMove i .decodes s t := by
  obtain ⟨h, p, hh, hp, e⟩ := withPort_next e
  have closes : ∀ (b : List Byte) (rest : List (List Byte)) (k : ErrKind) (u : State),
      p.inbound = b :: rest → h.state = .recv →
      u = { s with
        ports := s.ports.set i { p with inbound := rest },
        handlers := s.handlers.set i { h with req := b, n := b.length },
        trace := s.trace ++ [⟨s.now, .cliRecv i b⟩] } →
      HMove i .decodes s ((u.emit (.handler i) k).closeConnection i) := by
    rintro b rest k u hb hs rfl
    rw [emit_closeConnection k (getElem?_set_of_some hh _)]
    have := HMove.rejected (k := .decodes) h p b rest k hh hp hs hb
    simpa [List.set_set, List.append_assoc] using this
  split at e
  · rename_i hs
    split at e
    · cases e; exact .wait
    · rename_i b rest hb
      dsimp only at e
      split at e
      · cases e
        exact closes b rest _ _ hb hs rfl
      · split at e
        · cases e
          rw [raise_hdrErr]
          exact closes b rest _ _ hb hs rfl
        · rename_i tid pid len uid hparse
          split at e
          · split at e
            · cases e
            · cases e
              exact closes b rest _ _ hb hs rfl
          · cases e
            have := HMove.accepted (k := .decodes) h p b rest tid pid len uid hh hp hs hb hparse (by omega) rfl
            simpa [State.setHandler, State.setPort, State.cross] using this
  · cases e; exact .wait

theorem execHdrParse_moves {i : Nat} {b : List Byte} {s t : State} (e : execHdrParse i b s = .next t) :
    HMove i .plain s t := by
  obtain ⟨h, hh, e⟩ := withHandler_next e
  split at e
  · rename_i hs
    dsimp only at e
    split at e
    · rename_i hparse
      cases e
      exact .parsed h b _ _ _ _ _ hh hs hparse
    · rename_i err _
      cases e
      rw [raise_hdrErr, emit_closeConnection _ (by exact hh)]
      have := HMove.fatal (k := .plain) h err.kind (.hdrErr (hdrParse b).flag) hh hs
      simpa [State.cross, List.append_assoc] using this
  · cases e; exact .wait

theorem execRtuEnc_moves {i : Nat} {s t : State} (e : execRtuEnc i s = .next t) : HMove i .plain s t := by
  obtain ⟨h, hh, e⟩ := withHandler_next e
  split at e
  · rename_i hs
    split at e
    · rename_i fc pl hfc hpl
      cases e
      exact .encoded h fc pl { s.codec with acc := crc16 s.cfg.crc pl } hh hs hfc hpl
    · cases e
  · cases e; exact .wait

theorem execSubmit_moves {i : Nat} {s t : State} (e : execSubmit i s = .next t) : HMove i .submits s t := by
  obtain ⟨h, hh, e⟩ := withHandler_next e
  split at e
  · rename_i hs
    split at e
    · rename_i frame hframe
      cases e
      exact .submitted h frame hh hs hframe rfl
    · cases e
  · cases e; exact .wait

theorem execHAwait_moves {i : Nat} {s t : State} (e : execHAwait i s = .next t) : HMove i .decodes s t := by
  obtain ⟨h, hh, e⟩ := withHandler_next e
  split at e
  · rename_i hs
    split at e
    · rename_i r hr
      cases e
      exact .answered h r hh hs hr rfl
    · cases e; exact .wait
  · cases e; exact .wait

theorem execRtuDec_moves {d : TakenReply} {s t : State} (e : execRtuDec d s = .next t) :
    HMove d.handler .plain s t := by
  obtain ⟨h, hh, e⟩ := withHandler_next e
  have answers : ∀ (k : ErrKind) (c : Codec), h.state = .decode → ¬h.bc = true →
      HMove d.handler .plain s (((s.setCodec c).emit (.handler d.handler) k).synthesize d.handler) := by
    intro k c hs hb
    rw [emit_synthesize k (by exact hh)]
    exact .excepted h k c hh hs (by simpa using hb)
  dsimp only at e
  split at e
  · rename_i hs
    split at e
    · rename_i hb
      cases e
      exact .broadcastDone h hh hs hb
    · rename_i hb
      split at e
      · cases e; exact answers _ s.codec hs hb
      · split at e
        · cases e; exact answers _ s.codec hs hb
        · split at e
          · rename_i hl hv
            cases e
            exact .succeeded h d.reply _ hh hs (by simpa using hb) (by omega) hv
          · cases e; exact answers _ _ hs hb
  · cases e; exact .wait

theorem execRspOk_moves {i : Nat} {r : List Byte} {s t : State} (e : execRspOk i r s = .next t) :
    HMove i .plain s t := by
  obtain ⟨h, hh, e⟩ := withHandler_next e
  split at e
  · rename_i hs
    cases e
    exact .built h _ hh hs.1
  · cases e; exact .wait

theorem execExcBuild_moves {i : Nat} {tid pid : Half} {uid fc code : Byte} {s t : State}
    (e : execExcBuild i tid pid uid fc code s = .next t) : HMove i .plain s t := by
  obtain ⟨h, hh, e⟩ := withHandler_next e
  split at e
  · rename_i hs
    cases e
    exact .built h _ hh hs
  · cases e; exact .wait

theorem execHSend_moves {i : Nat} {s t : State} (e : execHSend i s = .next t) : HMove i .plain s t := by
  obtain ⟨h, p, hh, hp, e⟩ := withPort_next e
  split at e
  · rename_i hs
    split at e
    · cases e; exact .wait
    · rename_i r rs ha
      dsimp only at e
      split at e
      · cases e
        rw [raise_socketWriteFailure, emit_closeConnection (h := h) _ (by exact hh)]
        have := HMove.sendFailed (k := .plain) h p rs hh hp hs ha
        simpa [State.setPort, State.cross, List.append_assoc] using this
      · cases e
        exact .sent h p rs hh hp hs ha
  · cases e; exact .wait

theorem execHClose_moves {i : Nat} {sending : Bool} {s t : State} (e : execHClose i sending s = .next t) :
    HMove i .plain s t := by
  obtain ⟨h, hh, e⟩ := withHandler_next e
  by_cases hs : h.state = (if sending then .send else .recv)
  · rw [if_pos hs] at e
    cases e
    have := HMove.closed (k := .plain) h hh (by cases sending <;> simp_all)
    simpa [State.closeConnection, State.cross, State.modifyHandler, State.modifyPort, modify_eq_set _ hh] using this
  · rw [if_neg hs] at e
    cases e; exact .wait

theorem classified_moves {i : Nat} {bc : Bool} {s t : State} (e : s.classified i bc = .next t) :
    HMove i .plain s t := by
  obtain ⟨h, hh, e⟩ := withHandler_next e
  split at e
  · rename_i hs
    cases e
    exact .classified h bc hh hs
  · cases e; exact .wait

theorem execPidModbus_moves {i : Nat} {s t : State} (e : execPidModbus i s = .next t) : HMove i .plain s t := by
  obtain ⟨h, hh, e⟩ := withHandler_next e
  split at e
  · rename_i hs
    cases e
    exact .flagged h _ hh hs
  · cases e; exact .wait

theorem execPidOther_moves {i : Nat} {pid : Half} {s t : State} (e : execPidOther i pid s = .next t) :
    HMove i .plain s t := by
  obtain ⟨h, hh, e⟩ := withHandler_next e
  split at e
  · rename_i hs
    cases e
    rw [raise_unsupportedProtocol, emit_closeConnection _ (by exact hh)]
    have := HMove.fatal (k := .plain) h .unsupportedProtocol (.hdrErr (some .unsupportedProtocol)) hh hs
    simpa [State.cross, List.append_assoc] using this
  · cases e; exact .wait

/-! ## The Bus Worker's operations -/

theorem execBwFetch_moves {s t : State} (e : execBwFetch s = .next t) : WMove s t := by
  unfold execBwFetch at e
  split at e
  · rename_i hs
    unfold State.dequeue at e
    split at e
    · rename_i hd
      split at hd
      · rename_i x xs hq
        cases hd
        cases e
        exact .fetched _ _ hs hq
      · cases hd
    · cases e; exact .wait
  · cases e; exact .wait

theorem execBwWrite_moves {s t : State} (e : execBwWrite s = .next t) : WMove s t := by
  unfold execBwWrite at e
  split at e
  · rename_i hs
    split at e
    · rename_i x r rs ht ha
      have hrx : (if s.cfg.rxStale = .flush then [] else s.rxpend) = [] ∨
          (if s.cfg.rxStale = .flush then [] else s.rxpend) = s.rxpend := by split <;> simp
      rw [flushStale_eq] at e
      dsimp only at e
      split at e
      · obtain rfl := Host.Outcome.next.inj e
        have := WMove.writeDone _ .fail _ _ _ hs ht ha (.inr rfl) hrx
        simpa [State.emit, State.cross, State.finish, State.setWorker, State.setSerial, State.setPending] using this
      · split at e
        · cases e
          exact .writeDone _ .ok _ _ _ hs ht ha (.inl rfl) hrx
        · rename_i hb
          obtain ⟨hts, rfl⟩ := openWindow_next e
          exact .writeAwaits _ _ _ hs ht ha (by simpa using hb) hts hrx
    · cases e; exact .wait
  · cases e; exact .wait

/-- A read that failed ends the transaction with the empty reply. -/
theorem failed_moves {n : Nat} {s s1 : State} (hs : s.w.state = .rdHdr ∨ s.w.state = .rdTrl)
    (hr : s.serRead n = some (.failed, s1)) : WMove s (s1.raise .serialWriteOrReadFailure .worker) := by
  obtain ⟨hans, rfl⟩ := serRead_cases hr
  have := WMove.noReply s.w.hdr s.w.tlen _ hs (by simp [hans]) (.inr ⟨n, rfl⟩)
  simpa [State.emit, State.cross, State.finish, State.setWorker, State.setSerial, ReadResult.crossing] using this

theorem execBwRdHdr_moves {s t : State} (e : execBwRdHdr s = .next t) : WMove s t := by
  unfold execBwRdHdr at e
  split at e
  · rename_i hs
    split at e
    · rename_i s1 hfc hr
      cases e
      exact failed_moves (.inl hs) hr
    · rename_i fc h s1 hfc hr
      obtain ⟨hans, rfl⟩ := serRead_cases hr
      split at e
      · rename_i b0 b1 b2
        dsimp only at e
        split at e
        · cases e
          exact .noReply [b0, b1, b2] (rlen fc b1 b2) _ (.inl hs) (by simp [hans]) (.inl ⟨3, [b0, b1, b2], rfl⟩)
        · rename_i h0
          obtain ⟨hts, rfl⟩ := openWindow_next e
          exact .header b0 b1 b2 fc hs hfc hans hts h0
      · cases e
        exact .noReply s.w.hdr s.w.tlen _ (.inl hs) (by simp [hans]) (.inl ⟨3, h, rfl⟩)
    · cases e; exact .wait
  · cases e; exact .wait

theorem execBwRdTrl_moves {s t : State} (e : execBwRdTrl s = .next t) : WMove s t := by
  unfold execBwRdTrl at e
  split at e
  · rename_i hs
    split at e
    · rename_i s1 hr
      cases e
      exact failed_moves (.inr hs) hr
    · rename_i h s1 hr
      obtain ⟨hans, rfl⟩ := serRead_cases hr
      split at e
      · cases e
        exact .noReply s.w.hdr s.w.tlen _ (.inr hs) (by simp [hans]) (.inl ⟨_, _, rfl⟩)
      · cases e
        exact .trailer h hs hans (by omega)
    · cases e; exact .wait
  · cases e; exact .wait

theorem execBwDeliver_moves {s t : State} (e : execBwDeliver s = .next t) : WMove s t := by
  unfold execBwDeliver at e
  split at e
  · rename_i hs
    split at e
    · rename_i x ht
      cases e
      exact .delivered x hs ht
    · cases e; exact .wait
  · cases e; exact .wait

theorem execBwQuiet_moves {s t : State} (e : execBwQuiet s = .next t) : WMove s t := by
  unfold execBwQuiet at e
  split at e
  · rename_i hc
    cases e
    have hx := (Timer.expired_iff _).mp hc.2
    exact .quietOver hc.1 hx.1 hx.2
  · cases e; exact .wait

theorem inferred_moves {s t : State} {tlen : BitVec 9} (e : s.inferred tlen = .next t) : WMove s t := by
  unfold State.inferred at e
  split at e
  · rename_i hs
    cases e
    exact .inferred tlen hs
  · cases e; exact .wait

/-! ## Any operation, any event, any step -/

/-- What a codec operation given as a word can do: write the accumulator and hand a flag to whoever gave the word. -/
inductive CMove (s : State) : State → Prop where
  | computed (c : Codec) : CMove s { s with codec := c }
  | verified (c : Codec) (v : FlagValue) : CMove s { s with codec := c, trace := s.trace ++ [⟨s.now, .flag v⟩] }

/-- What any operation can do: a move of a handler, of the worker, or of the codec. Only H.RECV and H.AWAIT lead
to `H_DECODE`. -/
theorem exec_moves {op : Instr} {s t : State} (e : exec op s = .next t) :
    (∃ i k, HMove i k s t ∧ (k = .decodes → op = .hRecv i ∨ op = .hAwait i)) ∨ WMove s t ∨ CMove s t := by
  cases op
  case rlenExc => exact .inr (.inl (inferred_moves e))
  case rlenFc01 => exact .inr (.inl (inferred_moves e))
  case rlenFc02 => exact .inr (.inl (inferred_moves e))
  case rlenFc03 => exact .inr (.inl (inferred_moves e))
  case rlenFc04 => exact .inr (.inl (inferred_moves e))
  case rlenFc05 => exact .inr (.inl (inferred_moves e))
  case rlenFc06 => exact .inr (.inl (inferred_moves e))
  case rlenFc0F => exact .inr (.inl (inferred_moves e))
  case rlenFc10 => exact .inr (.inl (inferred_moves e))
  case rlenOther => exact .inr (.inl (inferred_moves e))
  case crc16 b => cases e; exact .inr (.inr (.computed _))
  case crcVerify f =>
    simp only [exec, execCrcVerify] at e
    split at e
    · cases e
    · cases e; exact .inr (.inr (.verified _ _))
  case hdrParse i b => exact .inl ⟨i, _, execHdrParse_moves e, by simp⟩
  case excBuild i _ _ _ _ _ => exact .inl ⟨i, _, execExcBuild_moves e, by simp⟩
  case bwFetch => exact .inr (.inl (execBwFetch_moves e))
  case bwWrite => exact .inr (.inl (execBwWrite_moves e))
  case bwRdHdr => exact .inr (.inl (execBwRdHdr_moves e))
  case bwRdTrl => exact .inr (.inl (execBwRdTrl_moves e))
  case bwDeliver => exact .inr (.inl (execBwDeliver_moves e))
  case bwQuiet => exact .inr (.inl (execBwQuiet_moves e))
  case hOpen i => exact .inl ⟨i, _, execHOpen_moves e, by simp⟩
  case hRecv i => exact .inl ⟨i, _, execHRecv_moves e, by simp⟩
  case rtuEnc i => exact .inl ⟨i, _, execRtuEnc_moves e, by simp⟩
  case submit i => exact .inl ⟨i, _, execSubmit_moves e, by simp⟩
  case hAwait i => exact .inl ⟨i, _, execHAwait_moves e, by simp⟩
  case rtuDec d => exact .inl ⟨d.handler, _, execRtuDec_moves e, by simp⟩
  case rspOk i _ => exact .inl ⟨i, _, execRspOk_moves e, by simp⟩
  case hSend i => exact .inl ⟨i, _, execHSend_moves e, by simp⟩
  case hClose i _ => exact .inl ⟨i, _, execHClose_moves e, by simp⟩
  case uidBcast i _ => exact .inl ⟨i, _, classified_moves e, by simp⟩
  case uidUnicast i _ => exact .inl ⟨i, _, classified_moves e, by simp⟩
  case pidModbus i => exact .inl ⟨i, _, execPidModbus_moves e, by simp⟩
  case pidOther i pid => exact .inl ⟨i, _, execPidOther_moves (pid := pid) e, by simp⟩

/-! ## A loop pass in one step -/

theorem runAll_one (op : Instr) (s : State) : runAll [op] s = exec op s := by
  simp only [runAll]
  split <;> simp_all

theorem runAll_cons {op : Instr} {ops : List Instr} {s t : State} (e : exec op s = .next t) :
    runAll (op :: ops) s = runAll ops t := by simp [runAll, e]

/-- An operation that nothing completes is a step by itself. -/
theorem perform_alone {op : Instr} {s : State} (h : s.continuation op = []) : perform op s = exec op s := by
  rw [perform, h, runAll_one]

theorem perform_next {op : Instr} {s t : State} (e : perform op s = .next t) :
    ∃ u, exec op s = .next u ∧ runAll (s.continuation op) u = .next t := by
  simp only [perform, runAll] at e
  split at e
  · exact ⟨_, ‹_›, e⟩
  · cases e
  · cases e

theorem afterRecv_of {i : Nat} {s : State} {h : Handler} (hh : s.handlers[i]? = some h) :
    s.afterRecv i = if h.state = .recv then [.rtuEnc i, .submit i] else [] := by simp [State.afterRecv, hh]

theorem afterAwait_of {i : Nat} {s : State} {h : Handler} {r : List Byte} (hh : s.handlers[i]? = some h)
    (hr : h.rslot = some r) :
    s.afterAwait i = if h.state = .await then [.rtuDec ⟨i, r⟩] else [] := by simp [State.afterAwait, hh, hr]

/-- Outside `H_DECODE` what completes a pass waits. -/
theorem afterRecv_waits {i : Nat} {s u : State} {h : Handler} (hh : u.handlers[i]? = some h) (hs : h.state ≠ .decode) :
    runAll (s.afterRecv i) u = .next u := by
  have h1 : exec (.rtuEnc i) u = .next u := by
    show execRtuEnc i u = _
    rw [execRtuEnc, withHandler_of _ hh, if_neg hs]; rfl
  have h2 : exec (.submit i) u = .next u := by
    show execSubmit i u = _
    rw [execSubmit, withHandler_of _ hh, if_neg hs]; rfl
  unfold State.afterRecv
  split
  · split
    · rw [runAll_cons h1, runAll_cons h2]; rfl
    · rfl
  · rfl

/-- A request that H.RECV accepts has a function code and its payload, so that RTUENC is never short (43 R203). -/
theorem accepted_payload {b : List Byte} {tid pid len : Half} {uid : Byte} (h : hdrParse b = .fields tid pid len uid)
    (hlen : 6 + len.toNat ≤ b.length) :
    ∃ fc, b[7]? = some fc ∧ ∃ payload, rtuPayload b len = some payload := by
  have := (hdrParse_accepts h).2.1
  have h7 : 7 < b.length := by unfold lenMin at this; omega
  exact ⟨b[7], List.getElem?_eq_getElem h7, _, if_pos hlen⟩

/-- What a step that begins with H.RECV can do: wait, end the connection, or forward the request. -/
theorem performRecv_moves {i : Nat} {s t : State} (e : perform (.hRecv i) s = .next t) : PMove i s t := by
  obtain ⟨u, e1, e2⟩ := perform_next e
  obtain ⟨h, p, hh, hp, ew⟩ := withPort_next e1
  have plain (m : HMove i .plain s u) (g : Handler) (hg : u.handlers[i]? = some g) (hd : g.state ≠ .decode) :
      PMove i s t := by
    cases (afterRecv_waits hg hd).symm.trans e2
    exact .alone .plain t (by decide) m
  by_cases hs : h.state = .recv
  · have same {g : Handler} (hg : s.handlers[i]? = some g) : g.state = .recv := by
      cases hh.symm.trans hg; exact hs
    cases execHRecv_moves e1 with
    | wait => exact plain .wait h hh (by simp [hs])
    | opened g _ hg _ h' => cases (same hg).symm.trans h'
    | rejected g p b rest k hg hp h' hb =>
      exact plain (.rejected g p b rest k hg hp h' hb) _ (getElem?_set_of_some hg _) (by simp)
    | parsed g b tid pid len uid v hg h' hparse =>
      exact plain (.parsed g b tid pid len uid v hg h' hparse) _ (getElem?_set_of_some hg _) (by simp [h'])
    | flagged g v hg h' => exact plain (.flagged g v hg h') g hg (by simp [h'])
    | fatal g k v hg h' => exact plain (.fatal g k v hg h') _ (getElem?_set_of_some hg _) (by simp)
    | classified g bc hg h' => cases (same hg).symm.trans h'
    | encoded g fc pl c hg h' => cases (same hg).symm.trans h'
    | broadcastDone g hg h' => cases (same hg).symm.trans h'
    | succeeded g r c hg h' => cases (same hg).symm.trans h'
    | excepted g k c hg h' => cases (same hg).symm.trans h'
    | built g rsp hg h' => cases (same hg).symm.trans h'
    | sent g p rs hg hp h' => cases (same hg).symm.trans h'
    | sendFailed g p rs hg hp h' => cases (same hg).symm.trans h'
    | closed g hg h' => exact plain (.closed g hg h') _ (getElem?_set_of_some hg _) (by simp)
    | answered g r hg h' => cases (same hg).symm.trans h'
    | submitted g frame hg h' => cases (same hg).symm.trans h'
    | accepted g p b rest tid pid len uid hg hp h' hb hparse hlen =>
      obtain ⟨fc, hfc, pl, hpl⟩ := accepted_payload hparse hlen
      rw [show s.continuation (.hRecv i) = [.rtuEnc i, .submit i] from (afterRecv_of hg).trans (if_pos h')] at e2
      simp [runAll, exec, execRtuEnc, execSubmit, withHandler, lt_of_getElem? hg, hfc, hpl, Handler.frame] at e2
      subst e2
      have := PMove.forwarded g p b rest tid pid len uid fc pl { s.codec with acc := crc16 s.cfg.crc pl } hg hp h' hb
        hparse hlen hfc hpl
      simpa [State.setHandler, State.enqueue, State.runCrc, State.setCodec] using this
  · rw [if_neg hs] at ew
    cases ew
    rw [show s.continuation (.hRecv i) = [] from (afterRecv_of hh).trans (if_neg hs)] at e2
    cases e2
    exact .alone .plain s (by decide) .wait

/-- What a step that begins with H.AWAIT can do: wait, or answer the request as RTUDEC says. -/
theorem performAwait_moves {i : Nat} {s t : State} (e : perform (.hAwait i) s = .next t) : PMove i s t := by
  obtain ⟨u, e1, e2⟩ := perform_next e
  obtain ⟨h, hh, ew⟩ := withHandler_next e1
  have waits (e1 : u = s) (hc : s.continuation (.hAwait i) = []) : PMove i s t := by
    subst e1
    rw [hc] at e2
    cases e2
    exact .alone .plain t (by decide) .wait
  by_cases hs : h.state = .await
  · rw [if_pos hs] at ew
    cases hr : h.rslot with
    | none =>
      rw [hr] at ew
      cases ew
      exact waits rfl (by simp [State.continuation, State.afterAwait, hh, hr])
    | some r =>
      rw [hr] at ew
      cases ew
      rw [show s.continuation (.hAwait i) = [.rtuDec ⟨i, r⟩] from (afterAwait_of hh hr).trans (if_pos hs),
        runAll_one] at e2
      obtain ⟨g, hg, e2⟩ := withHandler_next e2
      have answers (k : ErrKind) (c : Codec) (hb : ¬h.bc = true) : PMove i s
          ((((s.setHandler i { h with rslot := none, state := .decode }).setCodec c).emit (.handler i) k).synthesize
            i) := by
        rw [emit_synthesize k (getElem?_set_of_some hh _)]
        have := PMove.excepted h r k c hh hs hr (by simpa using hb)
        simpa [State.setHandler, State.setCodec] using this
      dsimp only at e2
      cases (getElem?_set_of_some hh _).symm.trans hg
      rw [if_pos rfl] at e2
      split at e2
      · rename_i hb
        cases e2
        have := PMove.broadcastDone h r hh hs hr hb
        simpa [State.setHandler] using this
      · rename_i hb
        split at e2
        · cases e2; exact answers _ s.codec hb
        · split at e2
          · cases e2; exact answers _ s.codec hb
          · split at e2
            · rename_i hl hv
              cases e2
              have := PMove.succeeded h r { s.codec with acc := crc16 s.cfg.crc (r.take (r.length - 2)) } hh hs hr
                (by simpa using hb) (by omega) hv
              simpa [State.setHandler, State.runVerify, State.runCrc, State.setCodec] using this
            · cases e2; exact answers _ _ hb
  · rw [if_neg hs] at ew
    cases ew
    refine waits rfl ?_
    show s.afterAwait i = []
    unfold State.afterAwait
    simp only [hh]
    split
    · exact if_neg hs
    · rfl

/-- What any step of an agent can do. -/
theorem perform_moves {op : Instr} {s t : State} (e : perform op s = .next t) :
    (∃ i, PMove i s t) ∨ WMove s t ∨ CMove s t := by
  by_cases hr : ∃ i, op = .hRecv i
  · obtain ⟨i, rfl⟩ := hr
    exact .inl ⟨i, performRecv_moves e⟩
  · by_cases ha : ∃ i, op = .hAwait i
    · obtain ⟨i, rfl⟩ := ha
      exact .inl ⟨i, performAwait_moves e⟩
    · have hc : s.continuation op = [] := by
        cases op <;> first | rfl | exact absurd ⟨_, rfl⟩ hr | exact absurd ⟨_, rfl⟩ ha
      rw [perform_alone hc] at e
      obtain ⟨i, k, m, hk⟩ | m := exec_moves e
      · refine .inl ⟨i, .alone k t (fun h => ?_) m⟩
        obtain h | h := hk h
        · exact hr ⟨i, h⟩
        · exact ha ⟨i, h⟩
      · exact .inr m

/-! ## Events and steps -/

/-- What an arriving byte can do: be taken or kept, or miss a window that has just closed. -/
theorem arrive_moves {b : Byte} {s t : State} (e : arrive b s = .next t) : EMove s t := by
  unfold arrive at e
  dsimp only at e
  split at e
  · cases e; exact .arrived b ‹_›
  · rename_i hw
    split at e
    · cases e; exact .tooLate b (by simpa using fun h => hw (.inl h)) ‹_›
    · cases e

/-- What an environment event can do: a move, or a reset. -/
theorem applyEnv_moves {ev : EnvEvent} {s t : State} (e : applyEnv ev s = .next t) :
    EMove s t ∨ ∃ ms sent, ev = .reset ms sent ∧ t = resetEngine ms sent s := by
  cases ev
  case cliOpen i =>
    obtain ⟨p, hp, e⟩ := withClientPort_next e
    split at e
    · cases e
    · cases e; exact .inl (.port i p _ hp (.inl rfl))
  case cliRecv i b =>
    obtain ⟨p, hp, e⟩ := withClientPort_next e
    split at e
    · cases e
    · cases e; exact .inl (.port i p _ hp (.inr ⟨b, by omega, rfl⟩))
  case cliSendAns i r =>
    obtain ⟨p, hp, e⟩ := withClientPort_next e
    cases e
    exact .inl (.port i p _ hp (.inl rfl))
  case serWriteAns r => cases e; exact .inl (.writeAns r)
  case serByte b => exact .inl (arrive_moves e)
  case tiedByte b =>
    simp only [applyEnv, arriveInTime] at e
    split at e
    · cases e; exact .inl (.inTime b _ ‹_› ‹_›)
    · exact .inl (arrive_moves e)
  case serFail => cases e; exact .inl .rxFail
  case elapse ms => cases e; exact .inl (.elapsed ms)
  case reset ms sent => cases e; exact .inr ⟨ms, sent, rfl, rfl⟩

/-- What the first item of a schedule does to the state `s` it leaves: a move of an agent or of the codec, an event of
the environment, or a reset. -/
inductive IMove (it : Item) (s : State) : State → Prop where
  | handler (i : Nat) (t : State) (m : PMove i s t) : IMove it s t
  | worker (t : State) (m : WMove s t) : IMove it s t
  | codec (t : State) (m : CMove s t) : IMove it s t
  | env (t : State) (m : EMove s t) : IMove it s t
  | reset (ms sent : Nat) (hit : it = .env (.reset ms sent)) : IMove it s (resetEngine ms sent s)

theorem issue_moves {it : Item} {s t : State} (e : issue it s = .next t) : IMove it s t := by
  have run : ∀ op, perform op s = .next t → IMove it s t := by
    intro op eo
    obtain ⟨i, m⟩ | m | m := perform_moves eo
    · exact .handler i t m
    · exact .worker t m
    · exact .codec t m
  cases it with
  | env ev =>
    obtain m | ⟨ms, sent, rfl, rfl⟩ := applyEnv_moves e
    · exact .env t m
    · exact .reset ms sent rfl
  | turn a =>
    cases a with
    | worker => exact run _ e
    | handler i =>
      obtain ⟨h, -, e⟩ := withHandler_next e
      split at e
      · exact run _ e
      · cases e; exact .worker _ .wait
  | op word =>
    simp only [issue] at e
    split at e
    · exact run _ e
    · cases e

/-- What a step can do: with nothing scheduled nothing; else what the schedule's first item does, which is used up. -/
theorem step_moves {s t : State} (e : step s = .next t) :
    t = s ∨ ∃ it rest, s.script = it :: rest ∧ IMove it { s with script := rest } t := by
  unfold step runSchedule at e
  split at e
  · cases e; exact .inl rfl
  · exact .inr ⟨_, _, ‹_›, issue_moves e⟩

end Sys2Proof.Machine
end

