-- ==== Sys2Proof/Laws/PerInstr.lean ====
section
/-! SUPPORT. Statements made per operation: the first byte of an operation word is the code opcode_table.json gives
the row, the second names the space the code belongs to. -/

namespace Sys2Proof.Laws.WordHead

/-- The head of an operation's word, by the `match` of its row: the function code in the function-code space 0 (the
request's, whatever is echoed, for RLEN.EXC and RLEN.OTHER), the 3-bit code of `W.state` in space 1 and of
`H[i].state` in space 2, the unit id in space 3, the protocol id's low byte in space 4, and in space 5 the rows that
are selected by call. -/
def head : Instr → Byte × Byte
  | .rlenExc fc _ _ => (fc, 0)
  | .rlenFc01 _ => (0x01, 0)
  | .rlenFc02 _ => (0x02, 0)
  | .rlenFc03 _ => (0x03, 0)
  | .rlenFc04 _ => (0x04, 0)
  | .rlenFc05 _ => (0x05, 0)
  | .rlenFc06 _ => (0x06, 0)
  | .rlenFc0F _ => (0x0F, 0)
  | .rlenFc10 _ => (0x10, 0)
  | .rlenOther fc _ => (fc, 0)
  | .crc16 _ => (0, 5)
  | .crcVerify _ => (1, 5)
  | .hdrParse _ _ => (2, 5)
  | .excBuild _ _ _ _ _ _ => (3, 5)
  | .bwFetch => (0b000, 1)
  | .bwWrite => (0b001, 1)
  | .bwRdHdr => (0b010, 1)
  | .bwRdTrl => (0b011, 1)
  | .bwDeliver => (0b100, 1)
  | .bwQuiet => (0b101, 1)
  | .hOpen _ => (0b000, 2)
  | .hRecv _ => (0b001, 2)
  | .rtuEnc _ => (0b100, 2)
  | .submit _ => (0b100, 2)
  | .hAwait _ => (0b010, 2)
  | .rtuDec _ => (0b100, 2)
  | .rspOk _ _ => (0b100, 2)
  | .hSend _ => (0b011, 2)
  | .hClose _ sending => (if sending then 0b011 else 0b001, 2)
  | .uidBcast _ uid => (uid, 3)
  | .uidUnicast _ uid => (uid, 3)
  | .pidModbus _ => (0x00, 4)
  | .pidOther _ pid => (lo8 pid, 4)

/-- The word of `i` begins with `i`'s head. -/
def Statement (i : Instr) : Prop := (encode i).take 2 = [(head i).1, (head i).2]

theorem rlenExc (fc rfc third : Byte) : Statement (.rlenExc fc rfc third) := rfl
theorem rlenFc01 (third : Byte) : Statement (.rlenFc01 third) := rfl
theorem rlenFc02 (third : Byte) : Statement (.rlenFc02 third) := rfl
theorem rlenFc03 (third : Byte) : Statement (.rlenFc03 third) := rfl
theorem rlenFc04 (third : Byte) : Statement (.rlenFc04 third) := rfl
theorem rlenFc05 (third : Byte) : Statement (.rlenFc05 third) := rfl
theorem rlenFc06 (third : Byte) : Statement (.rlenFc06 third) := rfl
theorem rlenFc0F (third : Byte) : Statement (.rlenFc0F third) := rfl
theorem rlenFc10 (third : Byte) : Statement (.rlenFc10 third) := rfl
theorem rlenOther (fc third : Byte) : Statement (.rlenOther fc third) := rfl
theorem crc16 (b : List Byte) : Statement (.crc16 b) := rfl
theorem crcVerify (f : List Byte) : Statement (.crcVerify f) := rfl
theorem hdrParse (i : Nat) (b : List Byte) : Statement (.hdrParse i b) := rfl
theorem excBuild (i : Nat) (tid pid : Half) (uid fc code : Byte) : Statement (.excBuild i tid pid uid fc code) := rfl
theorem bwFetch : Statement (.bwFetch) := rfl
theorem bwWrite : Statement (.bwWrite) := rfl
theorem bwRdHdr : Statement (.bwRdHdr) := rfl
theorem bwRdTrl : Statement (.bwRdTrl) := rfl
theorem bwDeliver : Statement (.bwDeliver) := rfl
theorem bwQuiet : Statement (.bwQuiet) := rfl
theorem hOpen (i : Nat) : Statement (.hOpen i) := rfl
theorem hRecv (i : Nat) : Statement (.hRecv i) := rfl
theorem rtuEnc (i : Nat) : Statement (.rtuEnc i) := rfl
theorem submit (i : Nat) : Statement (.submit i) := rfl
theorem hAwait (i : Nat) : Statement (.hAwait i) := rfl
theorem rtuDec (t : TakenReply) : Statement (.rtuDec t) := rfl
theorem rspOk (i : Nat) (r : List Byte) : Statement (.rspOk i r) := rfl
theorem hSend (i : Nat) : Statement (.hSend i) := rfl
theorem hClose (i : Nat) (sending : Bool) : Statement (.hClose i sending) := rfl
theorem uidBcast (i : Nat) (uid : Byte) : Statement (.uidBcast i uid) := rfl
theorem uidUnicast (i : Nat) (uid : Byte) : Statement (.uidUnicast i uid) := rfl
theorem pidModbus (i : Nat) : Statement (.pidModbus i) := rfl
theorem pidOther (i : Nat) (pid : Half) : Statement (.pidOther i pid) := rfl

end Sys2Proof.Laws.WordHead
end

