-- ==== Sys2Proof/Tests/Slice0.lean ====
section
/-! SUPPORT. Tests. Expected results are the spec's: 40 R122 and R123, 41 R160, 43 R214, 95_test_vectors V1 to V4 and
its sections 2.1 to 2.8, and the codes of opcode_table.json. Witnesses show that the hypotheses of each statement are
met, clause by clause, at the boundary values of their ranges. -/

namespace Sys2Proof.Tests

open Sys2Proof Sys2Proof.Machine

/-! ## Small states -/

/-- The state after reset with handler 0, its client port, the worker, the serial port, the schedule and the pending
bytes given. -/
def st (h : Handler := Handler.reset) (p : ClientPort := ClientPort.reset) (w : Worker := Worker.reset)
    (ser : SerialPort := SerialPort.reset) (script : List Item := []) (rxpend : List Byte := []) : State :=
  { State.reset with handlers := [h, Handler.reset], ports := [p, ClientPort.reset], w := w, ser := ser,
                     script := script, rxpend := rxpend }

/-- The next state, when there is one. -/
def after : Out → Option State
  | .next s => some s
  | .fault _ => none
  | .refused _ => none

/-- The refusal, when there is one. -/
def refusal : Out → Option Refusal
  | .next _ => none
  | .fault _ => none
  | .refused r => some r

/-- The fault, when there is one. -/
def fault : Out → Option Fault
  | .next _ => none
  | .fault f => some f
  | .refused _ => none

/-- Handler 0 after an operation. -/
def h0 (o : Out) : Option Handler := (after o).bind fun s => s.handlers[0]?

/-- The Bus Worker after an operation. -/
def wk (o : Out) : Option Worker := (after o).map fun s => s.w

/-- What an operation on a state with an empty trace put across the ports. -/
def crossed (o : Out) : Option (List PortEvent) := (after o).map fun s => s.trace.map Crossing.ev

/-- V1's request, its frame and its reply. -/
def req1 : List Byte := [0x00, 0x01, 0x00, 0x00, 0x00, 0x06, 0x01, 0x03, 0x00, 0x00, 0x00, 0x01]
def frame1 : List Byte := [0x01, 0x03, 0x00, 0x00, 0x00, 0x01, 0x84, 0x0A]
def reply1 : List Byte := [0x01, 0x03, 0x02, 0x00, 0x2A, 0x39, 0x9B]

def task1 : Task := { frame := frame1, src := 0, isBroadcast := false }
def bcastTask : Task := { frame := [0x00, 0x06, 0x00, 0x01, 0x00, 0x03, 0x99, 0xDA], src := 0, isBroadcast := true }

/-- A handler in `H_RECV`. -/
def hRecvState : Handler := { Handler.reset with state := .recv }
/-- A handler that has accepted `req1`. -/
def hEnc : Handler :=
  { Handler.reset with state := .decode, req := req1, n := 12, tid := 1, len := 6, uid := 0x01 }
/-- The same handler after RTUENC. -/
def hSubmit : Handler := { hEnc with fc := 0x03 }
/-- And awaiting the reply. -/
def hWaiting : Handler := { hSubmit with state := .await }
/-- And with a reply taken from its slot (43 R214). -/
def hDec (uid fc : Byte) (bc : Bool) : Handler := { hWaiting with state := .decode, uid := uid, fc := fc, bc := bc }
/-- A handler with a response to send. -/
def hSendState : Handler :=
  { hWaiting with state := .send, rsp := [0x00, 0x01, 0x00, 0x00, 0x00, 0x03, 0x01, 0x83, 0x0B] }

def wAt (state : WState) (task : Option Task := some task1) (running : Bool := false) (left : BitVec 32 := 0) :
    Worker :=
  { Worker.reset with state := state, task := task, timer := { running := running, left := left } }

/-- A worker in its second window, for two more bytes. -/
def wTrl (left : BitVec 32) : Worker := { wAt .rdTrl (some task1) true left with hdr := [0x01, 0x83, 0x02], tlen := 2 }

/-- Handler 0 is about to decode a reply. -/
def stDec (uid fc : Byte) (bc : Bool) : State := st (h := hDec uid fc bc)

/-- The read in progress has ended with `r`. -/
def ended (r : ReadResult) : SerialPort := { SerialPort.reset with readAns := some r }

/-! ## Decoding: every constructor's word, written out -/

theorem test_decode_rlen :
    decode [0x03, 0, 0x80, 0x02] = .ok (.rlenExc 0x03 0x83 0x02) ∧
    decode [0x01, 0, 0x00, 0x7D] = .ok (.rlenFc01 0x7D) ∧
    decode [0x02, 0, 0x00, 0xFE] = .ok (.rlenFc02 0xFE) ∧
    decode [0x03, 0, 0x00, 0x02] = .ok (.rlenFc03 0x02) ∧
    decode [0x04, 0, 0x00, 0x04] = .ok (.rlenFc04 0x04) ∧
    decode [0x05, 0, 0x00, 0xFF] = .ok (.rlenFc05 0xFF) ∧
    decode [0x06, 0, 0x00, 0x00] = .ok (.rlenFc06 0x00) ∧
    decode [0x0F, 0, 0x00, 0x13] = .ok (.rlenFc0F 0x13) ∧
    decode [0x10, 0, 0x00, 0x01] = .ok (.rlenFc10 0x01) ∧
    decode [0x83, 0, 0x00, 0x02] = .ok (.rlenOther 0x83 0x02) := by decide

theorem test_decode_worker :
    decode [0b000, 1] = .ok .bwFetch ∧ decode [0b001, 1] = .ok .bwWrite ∧ decode [0b010, 1] = .ok .bwRdHdr ∧
    decode [0b011, 1] = .ok .bwRdTrl ∧ decode [0b100, 1] = .ok .bwDeliver ∧ decode [0b101, 1] = .ok .bwQuiet ∧
    decode [0b110, 1] = .bad .unusedCode ∧ decode [0b111, 1] = .bad .unusedCode ∧
    decode [0b101, 1, 0] = .bad .operandCount := by decide

theorem test_decode_handler :
    decode [0b000, 2, 0, 5, 0] = .ok (.hOpen 5) ∧ decode [0b001, 2, 0, 5, 1] = .ok (.hRecv 261) ∧
    decode [0b100, 2, 0, 0, 0] = .ok (.rtuEnc 0) ∧ decode [0b100, 2, 1, 0, 0] = .ok (.submit 0) ∧
    decode [0b010, 2, 0, 0, 0] = .ok (.hAwait 0) ∧ decode [0b100, 2, 2, 0, 0] = .bad .operandCount ∧
    decode [0b100, 2, 2, 0, 0, 0, 0] = .ok (.rtuDec ⟨0, []⟩) ∧
    decode [0b100, 2, 2, 5, 1, 3, 0, 0x01, 0x03, 0x02] = .ok (.rtuDec ⟨261, [0x01, 0x03, 0x02]⟩) ∧
    decode [0b100, 2, 3, 0, 0, 5, 0, 0x01, 0x83, 0x02, 0xC0, 0xF1] =
      .ok (.rspOk 0 [0x01, 0x83, 0x02, 0xC0, 0xF1]) ∧
    decode [0b011, 2, 0, 0, 0] = .ok (.hSend 0) ∧ decode [0b001, 2, 1, 0, 0] = .ok (.hClose 0 false) ∧
    decode [0b011, 2, 1, 0, 0] = .ok (.hClose 0 true) ∧
    decode [0b101, 2, 0, 0, 0] = .bad .unusedCode ∧ decode [0b111, 2, 0, 0, 0] = .bad .unusedCode := by decide

theorem test_decode_call :
    decode [0, 5, 2, 0, 0x00, 0x01] = .ok (.crc16 [0x00, 0x01]) ∧
    decode [1, 5, 2, 0, 0xFF, 0xFF] = .ok (.crcVerify [0xFF, 0xFF]) ∧
    decode [2, 5, 1, 0, 3, 0, 0x0A, 0x0B, 0x0C] = .ok (.hdrParse 1 [0x0A, 0x0B, 0x0C]) ∧
    decode [3, 5, 1, 0, 0x12, 0x34, 0x00, 0x00, 0x01, 0x03, 0x0B] =
      .ok (.excBuild 1 0x1234 0x0000 0x01 0x03 0x0B) ∧
    decode [1, 5, 3, 0, 0xFF, 0xFF] = .bad .operandCount := by decide

theorem test_decode_classes :
    decode [0x00, 3, 0, 0] = .ok (.uidBcast 0 0x00) ∧ decode [0xFF, 3, 0, 0] = .ok (.uidBcast 0 0xFF) ∧
    decode [0x01, 3, 0, 0] = .ok (.uidUnicast 0 0x01) ∧ decode [0xFE, 3, 0, 0] = .ok (.uidUnicast 0 0xFE) ∧
    decode [0x00, 4, 0x00, 0, 0] = .ok (.pidModbus 0) ∧ decode [0x01, 4, 0x00, 0, 0] = .ok (.pidOther 0 0x0001) ∧
    decode [0x00, 4, 0x01, 0, 0] = .ok (.pidOther 0 0x0100) ∧
    decode [0x00, 6] = .bad .unknownSelector ∧ decode [0x00] = .bad .noSelector ∧ decode [] = .bad .noSelector := by
  decide

/-- The rows' bits, numbered as the table numbers them. -/
theorem test_decode_table_word :
    decodeTableWord 3 4 = some .bwDeliver ∧ decodeTableWord 8 0x10 = some (.rlenFc10 0) ∧
    decodeTableWord 16 0 = some (.pidModbus 0) ∧ decodeTableWord 3 6 = none := by decide

/-- A word at the head of the schedule is what the next step runs. -/
theorem test_fetch_word :
    after (step ((st (w := wAt .rdHdr)).withFetchWord 8 0x05)) =
      after (exec (.rlenFc05 0) (st (w := wAt .rdHdr))) := by decide

/-! ## WellFormed refuses, one ill-formed term for each check -/

theorem test_ill_formed :
    WellFormed (.rlenExc 0x03 0x03 0x02) = false ∧ WellFormed (.rlenOther 0x10 0x00) = false ∧
    WellFormed (.crcVerify [0x00]) = false ∧ WellFormed (.excBuild 65536 0 0 0 0 0) = false ∧
    WellFormed (.hOpen 65536) = false ∧ WellFormed (.hRecv 65536) = false ∧ WellFormed (.rtuEnc 65536) = false ∧
    WellFormed (.submit 65536) = false ∧ WellFormed (.hAwait 65536) = false ∧ WellFormed (.rtuDec ⟨65536, []⟩) = false ∧
    WellFormed (.rspOk 65536 reply1) = false ∧ WellFormed (.rspOk 0 [0, 0, 0, 0]) = false ∧
    WellFormed (.hSend 65536) = false ∧ WellFormed (.hClose 65536 true) = false ∧
    WellFormed (.uidBcast 0 0x01) = false ∧ WellFormed (.uidBcast 65536 0x00) = false ∧
    WellFormed (.uidUnicast 0 0xFF) = false ∧ WellFormed (.uidUnicast 65536 0x01) = false ∧
    WellFormed (.pidModbus 65536) = false ∧ WellFormed (.pidOther 0 0x0000) = false ∧
    WellFormed (.pidOther 65536 0x0001) = false ∧ WellFormed (.hdrParse 65536 []) = false := by decide

theorem test_ill_formed_long (b : List Byte) :
    (b.length = 65536 → WellFormed (.crc16 b) = false ∧ WellFormed (.crcVerify b) = false) ∧
    (b.length = 257 → WellFormed (.hdrParse 0 b) = false) ∧
    (b.length = 261 → WellFormed (.rspOk 0 b) = false ∧ WellFormed (.rtuDec ⟨0, b⟩) = false) := by
  refine ⟨fun h => ?_, fun h => ?_, fun h => ?_⟩ <;> simp [WellFormed, countFits, portFits, reqMax, replyMax, h]

/-- The decoder refuses what is ill-formed. -/
theorem test_decode_ill_formed :
    decode [1, 5, 1, 0, 0x00] = .bad .operandRange ∧
    decode [0b100, 2, 3, 0, 0, 4, 0, 1, 2, 3, 4] = .bad .operandRange := by decide

/-! ## The checksum (40 R122, R123, 95 section 2.1, 2.2) -/

theorem test_crc16 :
    crc16 CrcParams.modbus [] = 0xFFFF ∧ crc16 CrcParams.modbus [0x01] = 0x807E ∧
    crc16 CrcParams.modbus [0x00, 0x00] = 0xB001 ∧ crc16 CrcParams.modbus [0xFF, 0xFF] = 0x0000 ∧
    crc16 CrcParams.modbus [0x01, 0x83, 0x02] = 0xF1C0 := by decide +kernel

theorem test_crc16_operation :
    (after (exec (.crc16 [0x01, 0x03, 0x02, 0x00, 0x2A]) (st))).map (fun s => s.codec.acc) = some 0x9B39 := by
  decide +kernel

theorem test_crc_table : crcTable 1 = 0xC0C1 ∧ crcTable 7 = 0xC241 ∧ crcTable 128 = 0xA001 ∧ crcTable 255 = 0x4040 := by
  decide

theorem test_crcverify :
    crcVerify CrcParams.modbus reply1 = true ∧
    crcVerify CrcParams.modbus [0x01, 0x03, 0x02, 0x00, 0x2A, 0x9B, 0x39] = false ∧
    crcVerify CrcParams.modbus [0x01, 0x03, 0x02, 0x00, 0x2A, 0x39, 0x9A] = false := by decide +kernel

theorem test_crcverify_operation :
    crossed (exec (.crcVerify [0x01, 0x83, 0x02, 0xC0, 0xF1]) (st)) = some [.flag (.crcOk true)] ∧
    refusal (exec (.crcVerify [0xFF]) (st)) = some .verifyTooShort := by decide +kernel

/-! ## The header parser (95 section 2.3) -/

theorem test_hdrparse :
    hdrParse [0x00, 0x01, 0x00, 0x00, 0x00, 0x06] = .error .malformedHeader ∧
    hdrParse [0x00, 0x01, 0x00, 0x00, 0x00, 0x06, 0x01] = .fields 0x0001 0x0000 6 0x01 ∧
    hdrParse [0xFF, 0xFF, 0x00, 0x00, 0x00, 0xFA, 0x00] = .fields 0xFFFF 0x0000 250 0x00 ∧
    hdrParse [0x00, 0x01, 0x01, 0x00, 0x00, 0x06, 0x01, 0x03] = .error .unsupportedProtocol ∧
    hdrParse [0x00, 0x01, 0x00, 0x00, 0x00, 0x05, 0x01, 0x03] = .error .invalidLength ∧
    hdrParse [0x00, 0x01, 0x00, 0x00, 0x00, 0xFB, 0x01, 0x03] = .error .invalidLength ∧
    hdrParse [0x00, 0x01, 0x00, 0x00, 0x06, 0x00, 0x01, 0x03] = .error .invalidLength ∧
    hdrParse [0x00, 0x01, 0x00, 0x01, 0x00, 0x00, 0x01] = .error .unsupportedProtocol := by decide

theorem test_hdrparse_operation :
    (h0 (exec (.hdrParse 0 req1) (st (h := hRecvState)))).map (fun h => (h.tid, h.pid, h.len, h.uid)) =
      some (0x0001, 0x0000, 6, 0x01) := by decide

theorem test_pid :
    crossed (exec (.pidOther 0 0x0001) (st (h := hRecvState))) =
      some [.flag (.hdrErr (some .unsupportedProtocol)), .event (.handler 0) .unsupportedProtocol, .cliClose 0] ∧
    crossed (exec (.pidModbus 0) (st (h := hRecvState))) = some [.flag (.hdrErr none)] := by decide

/-! ## The reply-length inference (41 R160, all its rows) -/

theorem test_rlen :
    rlen 0x03 0x03 0x00 = 2 ∧ rlen 0x03 0x03 0x02 = 4 ∧ rlen 0x03 0x03 0xFF = 257 ∧ rlen 0x01 0x01 0x7D = 127 ∧
    rlen 0x02 0x02 0xFE = 256 ∧ rlen 0x04 0x04 0x04 = 6 ∧ rlen 0x05 0x05 0xFF = 5 ∧ rlen 0x06 0x06 0x00 = 5 ∧
    rlen 0x0F 0x0F 0x13 = 5 ∧ rlen 0x10 0x10 0x01 = 5 ∧ rlen 0x03 0x83 0x02 = 2 ∧ rlen 0x10 0x90 0x03 = 2 ∧
    rlen 0x03 0x00 0x00 = 2 ∧ rlen 0x07 0x87 0x01 = 2 ∧ rlen 0x07 0x07 0x05 = 0 ∧ rlen 0x00 0x00 0x00 = 0 ∧
    rlen 0x11 0x11 0x09 = 0 ∧ rlen 0x83 0x83 0x02 = 0 ∧ rlen 0xFF 0xFF 0xFF = 0 := by decide

theorem test_rlen_operations :
    (wk (exec (.rlenExc 0x03 0x83 0x02) (st (w := wAt .rdHdr)))).map Worker.tlen = some 2 ∧
    (wk (exec (.rlenFc01 0x7D) (st (w := wAt .rdHdr)))).map Worker.tlen = some 127 ∧
    (wk (exec (.rlenFc02 0xFE) (st (w := wAt .rdHdr)))).map Worker.tlen = some 256 ∧
    (wk (exec (.rlenFc03 0xFF) (st (w := wAt .rdHdr)))).map Worker.tlen = some 257 ∧
    (wk (exec (.rlenFc04 0x04) (st (w := wAt .rdHdr)))).map Worker.tlen = some 6 ∧
    (wk (exec (.rlenFc05 0xFF) (st (w := wAt .rdHdr)))).map Worker.tlen = some 5 ∧
    (wk (exec (.rlenFc06 0x00) (st (w := wAt .rdHdr)))).map Worker.tlen = some 5 ∧
    (wk (exec (.rlenFc0F 0x13) (st (w := wAt .rdHdr)))).map Worker.tlen = some 5 ∧
    (wk (exec (.rlenFc10 0x01) (st (w := wAt .rdHdr)))).map Worker.tlen = some 5 ∧
    (wk (exec (.rlenOther 0x83 0x02) (st (w := wAt .rdHdr)))).map Worker.tlen = some 0 := by decide

/-! ## The handlers (95 sections 2.5 to 2.8, 43 R214) -/

theorem test_hopen :
    crossed (exec (.hOpen 0) (st (p := { ClientPort.reset with openReq := true }))) = some [.cliOpen 0] := by decide

theorem test_hrecv :
    (h0 (exec (.hRecv 0) (st (h := hRecvState) (p := { ClientPort.reset with inbound := [req1] })))) = some hEnc ∧
    crossed (exec (.hRecv 0) (st (h := hRecvState) (p := { ClientPort.reset with
      inbound := [[0x00, 0x01, 0x00, 0x01, 0x00, 0x06, 0x01, 0x03, 0x00, 0x00, 0x00, 0x01]] }))) =
      some [.cliRecv 0 [0x00, 0x01, 0x00, 0x01, 0x00, 0x06, 0x01, 0x03, 0x00, 0x00, 0x00, 0x01],
        .event (.handler 0) .unsupportedProtocol, .cliClose 0] := by decide

theorem test_rtuenc :
    h0 (exec (.rtuEnc 0) (st (h := hEnc))) = some hSubmit ∧
    hSubmit.frame CrcParams.modbus = some frame1 := by decide +kernel

/-- A broadcast with two bytes more than its length field says (43 R202). -/
theorem test_rtuenc_broadcast :
    let o := exec (.rtuEnc 0) (st (h := { hEnc with
      req := [0x00, 0x01, 0x00, 0x00, 0x00, 0x06, 0xFF, 0x06, 0x00, 0x01, 0x00, 0x03, 0xDE, 0xAD], uid := 0xFF }))
    (h0 o).map (fun h => (h.bc, h.fc)) = some (true, 0x06) ∧
    (h0 o).bind (Handler.frame CrcParams.modbus) = some [0xFF, 0x06, 0x00, 0x01, 0x00, 0x03, 0x8D, 0xD5] := by
  decide +kernel

theorem test_uid :
    (h0 (exec (.uidBcast 0 0xFF) (st (h := hEnc)))).map Handler.bc = some true ∧
    (h0 (exec (.uidUnicast 0 0xFE) (st (h := { hEnc with bc := true })))).map Handler.bc = some false := by decide

theorem test_submit :
    (after (exec (.submit 0) (st (h := hSubmit)))).map (fun s => s.q) = some [task1] ∧
    h0 (exec (.submit 0) (st (h := hSubmit))) = some hWaiting := by decide +kernel

theorem test_hawait :
    h0 (exec (.hAwait 0) (st (h := { hWaiting with rslot := some reply1 }))) =
      some { hWaiting with state := .decode } ∧
    after (exec (.hAwait 0) (st (h := hWaiting))) = some (st (h := hWaiting)) := by decide

/-- A turn takes a request through steps 2 to 5 of the loop, and a reply through steps 6 to 8, in one step (10_state
R25). -/
theorem test_pass :
    (after (step (st (h := hRecvState) (p := ⟨false, [req1], []⟩) (script := [.turn (.handler 0)])))).map
      (fun s => (s.handlers[0]?, s.q)) = some (some hWaiting, [task1]) ∧
    (h0 (step (st (h := { hWaiting with rslot := some [0x01, 0x83, 0x02, 0xC0, 0xF1] })
      (script := [.turn (.handler 0)])))).map (fun h => (h.state, h.rslot, h.rsp)) =
      some (.send, none, [0x00, 0x01, 0x00, 0x00, 0x00, 0x03, 0x01, 0x83, 0x02]) := by decide +kernel

/-- The rows of 43 R214 with a response. -/
theorem test_rtudec_response :
    (h0 (exec (.rtuDec ⟨0, reply1⟩) (stDec 0x01 0x03 false))).map Handler.rsp =
      some [0x00, 0x01, 0x00, 0x00, 0x00, 0x05, 0x01, 0x03, 0x02, 0x00, 0x2A] ∧
    (h0 (exec (.rtuDec ⟨0, [0x01, 0x83, 0x02, 0xC0, 0xF1]⟩) (stDec 0x01 0x03 false))).map Handler.rsp =
      some [0x00, 0x01, 0x00, 0x00, 0x00, 0x03, 0x01, 0x83, 0x02] ∧
    (h0 (exec (.rtuDec ⟨0, []⟩) (stDec 0x01 0x03 false))).map Handler.rsp =
      some [0x00, 0x01, 0x00, 0x00, 0x00, 0x03, 0x01, 0x83, 0x0B] ∧
    (h0 (exec (.rtuDec ⟨0, [0x11, 0x05, 0x00, 0xAC, 0xFF, 0x00, 0x4E, 0x8B]⟩)
      (stDec 0x11 0x05 false))).map Handler.rsp =
      some [0x00, 0x01, 0x00, 0x00, 0x00, 0x06, 0x11, 0x05, 0x00, 0xAC, 0xFF, 0x00] ∧
    (h0 (exec (.rtuDec ⟨0, []⟩) (stDec 0x01 0x83 false))).map Handler.rsp =
      some [0x00, 0x01, 0x00, 0x00, 0x00, 0x03, 0x01, 0x83, 0x0B] := by decide +kernel

/-- The rows of 43 R214 with an event, and the broadcast ones. -/
theorem test_rtudec_event :
    crossed (exec (.rtuDec ⟨0, []⟩) (stDec 0x01 0x03 false)) = some [.event (.handler 0) .noBusReply] ∧
    crossed (exec (.rtuDec ⟨0, [0x01, 0x03, 0x02, 0x00, 0x2A, 0x39, 0x9A]⟩) (stDec 0x01 0x03 false)) =
      some [.event (.handler 0) .checksumMismatch] ∧
    crossed (exec (.rtuDec ⟨0, [0x01, 0x03, 0x02]⟩) (stDec 0x01 0x03 false)) =
      some [.event (.handler 0) .shortOrInvalidBusReply] ∧
    (h0 (exec (.rtuDec ⟨0, []⟩) (stDec 0x00 0x06 true))).map Handler.state = some .recv := by decide +kernel

theorem test_rspok :
    (h0 (exec (.rspOk 0 reply1) (stDec 0x01 0x03 false))).map Handler.rsp =
      some [0x00, 0x01, 0x00, 0x00, 0x00, 0x05, 0x01, 0x03, 0x02, 0x00, 0x2A] := by decide +kernel

theorem test_excbuild :
    (h0 (exec (.excBuild 0 0x0001 0x0000 0x01 0x83 0x0B) (stDec 0x01 0x83 false))).map Handler.rsp =
      some [0x00, 0x01, 0x00, 0x00, 0x00, 0x03, 0x01, 0x83, 0x0B] := by decide

theorem test_hsend :
    crossed (exec (.hSend 0) (st (h := hSendState) (p := { ClientPort.reset with sendAns := [.ok] }))) =
      some [.cliSend 0 [0x00, 0x01, 0x00, 0x00, 0x00, 0x03, 0x01, 0x83, 0x0B] .ok] ∧
    crossed (exec (.hSend 0) (st (h := hSendState) (p := { ClientPort.reset with sendAns := [.fail] }))) =
      some [.cliSend 0 [0x00, 0x01, 0x00, 0x00, 0x00, 0x03, 0x01, 0x83, 0x0B] .fail,
        .event (.handler 0) .socketWriteFailure, .cliClose 0] := by decide

theorem test_hclose :
    (h0 (exec (.hClose 0 true) (st (h := hSendState)))).map Handler.state = some .closed ∧
    (h0 (exec (.hClose 0 false) (st (h := hSendState)))).map Handler.state = some .send := by decide

theorem test_no_such_port : fault (exec (.hOpen 2) (st)) = some (.noSuchPort 2) := by decide

/-! ## The Bus Worker (42 R171 to R177) -/

theorem test_fetch :
    (wk (exec .bwFetch { st with q := [task1, bcastTask] })).map (fun w => (w.state, w.task)) =
      some (.write, some task1) := by decide

theorem test_write :
    crossed (exec .bwWrite (st (w := wAt .write) (ser := { SerialPort.reset with writeAns := [.ok] }))) =
      some [.serWrite frame1 .ok] ∧
    crossed (exec .bwWrite (st (w := wAt .write) (ser := { SerialPort.reset with writeAns := [.fail] }))) =
      some [.serWrite frame1 .fail, .event .worker .serialWriteOrReadFailure] := by decide

theorem test_rdhdr :
    (wk (exec .bwRdHdr (st (w := wAt .rdHdr) (ser := ended (.got [0x01, 0x03, 0x02]))))).map
      (fun w => (w.state, w.hdr, w.tlen)) = some (.rdTrl, [0x01, 0x03, 0x02], 4) ∧
    (wk (exec .bwRdHdr (st (w := wAt .rdHdr) (ser := ended (.got [0x01, 0x03]))))).map
      (fun w => (w.state, w.reply)) = some (.deliver, []) := by decide

theorem test_rdtrl :
    (wk (exec .bwRdTrl (st (w := wTrl 5) (ser := ended (.got [0xC0, 0xF1]))))).map (fun w => (w.state, w.reply)) =
      some (.deliver, [0x01, 0x83, 0x02, 0xC0, 0xF1]) ∧
    (wk (exec .bwRdTrl (st (w := wTrl 0) (ser := ended (.got [0xC0]))))).map (fun w => (w.state, w.reply)) =
      some (.deliver, []) := by decide

/-- Whichever is first closes the window (10_state R47): the third byte, or the end of the time, a millisecond after
which a byte is stale (70 R302). -/
theorem test_window_closes :
    (after (step (st (w := wAt .rdHdr (some task1) true 5) (rxpend := [0x01, 0x03])
      (script := [.env (.serByte 0x02)])))).map (fun s => (s.ser.readAns, s.rxpend)) =
      some (some (.got [0x01, 0x03, 0x02]), []) ∧
    ((after (step (st (w := wAt .rdHdr (some task1) true 5) (rxpend := [0x01, 0x03])
      (script := [.env (.elapse 6), .env (.serByte 0x02)])))).bind fun s => refusal (step s)) =
      some .staleSerialByte := by decide

/-- The third byte comes at the very instant at which the window ends: with `RX_STALE = refuse` too, the read without it
and the complete read are both runs (60 R263). -/
theorem test_tie :
    let s : State := st (w := wAt .rdHdr (some task1) true 5) (rxpend := [0x01, 0x03])
    ((after (step { s with script := [.env (.elapse 5), .env (.serByte 0x02)] })).bind fun s => after (step s)).map
      (fun s => s.ser.readAns) = some (some (.got [0x01, 0x03])) ∧
    ((after (step { s with script := [.env (.elapse 5), .env (.tiedByte 0x02)] })).bind fun s => after (step s)).map
      (fun s => s.ser.readAns) = some (some (.got [0x01, 0x03, 0x02])) := by decide

theorem test_deliver :
    (h0 (exec .bwDeliver (st (h := hWaiting) (w := { wAt .deliver with reply := reply1 })))).map Handler.rslot =
      some (some reply1) ∧
    (wk (exec .bwDeliver (st (h := hWaiting) (w := wAt .deliver)))).map (fun w => (w.state, w.timer.left)) =
      some (.quiet, 10) := by decide

theorem test_quiet :
    (wk (exec .bwQuiet (st (w := wAt .quiet none true 0)))).map Worker.state = some .idle ∧
    (wk (exec .bwQuiet (st (w := wAt .quiet none true 1)))).map Worker.state = some .quiet := by decide

/-! ## Witnesses: the hypotheses of each statement are met -/

theorem witness_EncodedOperationDecodes :
    WellFormed (.hRecv 65535) = true ∧ WellFormed (.rspOk 0 [0, 0, 0, 0, 0]) = true ∧
    WellFormed (.crcVerify [0, 0]) = true ∧ WellFormed (.uidUnicast 0 0xFE) = true := by decide

theorem witness_DecodedWordIsItsEncoding : decode [0x03, 0, 0x80, 0x02] = .ok (.rlenExc 0x03 0x83 0x02) := by decide

theorem witness_CodeMapWordsInferLength : (st (w := wAt .rdHdr)).w.state = .rdHdr := by decide

/-- Words that decode, and one that does not; a handler that receives a request, one that holds a reply, and one that
does neither. -/
theorem witness_StepRunsDecodedWord :
    (st (script := [.op [0b000, 1]])).script = .op [0b000, 1] :: [] ∧ decode [0b000, 1] = .ok .bwFetch ∧
    (st (script := [.op [0b110, 1]])).script = .op [0b110, 1] :: [] ∧ decode [0b110, 1] = .bad .unusedCode ∧
    (∀ i, (.bwFetch : Instr) ≠ .hRecv i ∧ (.bwFetch : Instr) ≠ .hAwait i) ∧
    (∃ s u v : State, s.handlers[0]? = some hRecvState ∧ exec (.hRecv 0) s = .next u ∧ exec (.rtuEnc 0) u = .next v) ∧
    (∃ s u : State, s.handlers[0]? = some { hWaiting with rslot := some [] } ∧ exec (.hAwait 0) s = .next u) ∧
    (∃ s : State, s.handlers[0]? = some Handler.reset ∧ Handler.reset.state ≠ .recv ∧
      Handler.reset.state ≠ .await) :=
  ⟨by decide, by decide, by decide, by decide, fun _ => ⟨nofun, nofun⟩,
    ⟨st (h := hRecvState) (p := ⟨false, [req1], []⟩), _, _, rfl, rfl, rfl⟩,
    ⟨st (h := { hWaiting with rslot := some [] }), _, rfl, rfl⟩, ⟨st, by decide⟩⟩

theorem witness_TurnRunsSelectedOperation :
    (st (script := [.turn .worker])).script = .turn .worker :: [] ∧
    (st (script := [.turn (.handler 0)])).script = .turn (.handler 0) :: [] ∧
    (st (script := [.turn (.handler 0)])).handlers[0]? = some Handler.reset := by decide

/-- A step that moves worker, queue and trace: the worker fetches. -/
theorem witness_steps :
    after (step { st (script := [.turn .worker]) with q := [task1] }) = some (st (w := wAt .write)) := by decide

theorem witness_WorkerTransitions : ∃ s t : State, step s = .next t ∧ s.w.state = .idle ∧ t.w.state = .write :=
  ⟨{ st (script := [.turn .worker]) with q := [task1] }, st (w := wAt .write), rfl, rfl, rfl⟩

/-- A schedule whose one turn is handler 0's, which has a request to receive. -/
def stRecv : State := st (h := hRecvState) (p := ⟨false, [req1], []⟩) (script := [.turn (.handler 0)])

theorem witness_HandlerTransitions : ∃ t : State, step stRecv = .next t ∧ stRecv.handlers[0]? = some hRecvState ∧
    (t.handlers[0]?).map Handler.state = some .await := ⟨_, rfl, rfl, rfl⟩

theorem witness_ConfigurationAndHistoryStay : ∃ s t : State, step s = .next t ∧ t.now = s.now + 7 :=
  ⟨st (script := [.env (.elapse 7)]), { st with now := 7 }, rfl, rfl⟩

theorem witness_QueueIsFirstInFirstOut :
    (∃ t : State, step stRecv = .next t ∧ t.q.length = stRecv.q.length + 1) ∧
    (∃ s t : State, step s = .next t ∧ s.q = task1 :: t.q ∧ t.w.task = some task1) :=
  ⟨⟨_, rfl, rfl⟩, { st (script := [.turn .worker]) with q := [task1] }, st (w := wAt .write), rfl, rfl, rfl⟩

theorem witness_HandlerOperationsAreIsolated :
    (∃ t : State, exec (.submit 0) (st (h := hSubmit)) = .next t) ∧
    (∃ t : State, exec (.rtuDec ⟨0, []⟩) (stDec 0x01 0x03 false) = .next t) := ⟨⟨_, rfl⟩, _, rfl⟩

theorem witness_WorkerOperationsAreIsolated : ∃ s t : State, exec .bwDeliver s = .next t ∧
    s.handlers[0]? = some hWaiting ∧ t.handlers[0]? = some { hWaiting with rslot := some [] } :=
  ⟨st (h := hWaiting) (w := wAt .deliver),
    st (h := { hWaiting with rslot := some [] }) (w := wAt .quiet none true 10), rfl, rfl, rfl⟩

theorem witness_OnlyWorkerUsesSerialPort : ∃ s t : State, exec .bwRdTrl s = .next t ∧ t.ser ≠ s.ser :=
  ⟨st (w := wTrl 5) (ser := ended (.got [0xC0, 0xF1])),
    { st (w := { wTrl 5 with trl := [0xC0, 0xF1], reply := [0x01, 0x83, 0x02, 0xC0, 0xF1], state := .deliver,
                             timer := ⟨false, 5⟩ }) with trace := [⟨0, .serRead 2 [0xC0, 0xF1]⟩] }, rfl, by decide⟩

theorem witness_OnlyMissingPortsFault : (st (script := [.turn (.handler 2)])).handlers.length =
      (st (script := [.turn (.handler 2)])).ports.length ∧
    fault (step (st (script := [.turn (.handler 2)]))) = some (.noSuchPort 2) := by decide

theorem witness_VerifiedMeansZeroRemainder : 2 ≤ ([0xFF, 0xFF] : List Byte).length := by decide

theorem witness_ChecksumIsAccumulated : st.cfg.crc = CrcParams.modbus := by decide

theorem witness_VerifyComparesLastTwoBytes : ([0xFF] : List Byte).length < 2 := by decide

/-- Lengths 6 and 250. -/
theorem witness_HeaderIsParsed :
    (st (h := hRecvState)).handlers[0]? = some hRecvState ∧ hRecvState.state = .recv ∧
    6 ≤ (0x00 : Byte).toNat * 256 + (0x06 : Byte).toNat ∧ (0x00 : Byte).toNat * 256 + (0xFA : Byte).toNat ≤ 250 := by
  decide

/-- Six bytes; protocol ids 0x0001 and 0x0100; lengths 5 and 251. -/
theorem witness_HeaderErrorsClose :
    (st (h := hRecvState)).handlers[0]? = some hRecvState ∧ (st (h := hRecvState)).ports[0]? = some ClientPort.reset ∧
    hRecvState.state = .recv ∧ ([0, 0, 0, 0, 0, 6] : List Byte).length < 7 ∧
    ¬((0x00 : Byte) = 0 ∧ (0x01 : Byte) = 0) ∧ ¬((0x01 : Byte) = 0 ∧ (0x00 : Byte) = 0) ∧
    (0x00 : Byte).toNat * 256 + (0x05 : Byte).toNat < 6 ∧
    250 < (0x00 : Byte).toNat * 256 + (0xFB : Byte).toNat := by decide

theorem witness_WriteTypeReplyLengths : (st (w := wAt .rdHdr)).w.state = .rdHdr := by decide

/-- Third bytes 0x00 and 0xFF are `test_rlen`'s. -/
theorem witness_OtherReplyLengths : (st (w := wAt .rdHdr)).w.state = .rdHdr := by decide

theorem witness_ExceptionResponseBytes :
    (stDec 0x01 0x03 false).handlers[0]? = some (hDec 0x01 0x03 false) ∧
    (hDec 0x01 0x03 false).state = .decode := by decide

/-- Bodies of 3 and of 258 bytes. -/
theorem witness_SuccessResponseBytes :
    (stDec 0x01 0x03 false).handlers[0]? = some (hDec 0x01 0x03 false) ∧ (hDec 0x01 0x03 false).state = .decode ∧
    3 ≤ ([0x01, 0x83, 0x02] : List Byte).length ∧ (List.replicate 258 (0xAA : Byte)).length ≤ 258 := by decide +kernel

theorem witness_UnitAndProtocolClasses :
    (st (h := hEnc)).handlers[0]? = some hEnc ∧ hEnc.state = .decode ∧
    (st (h := hRecvState)).handlers[0]? = some hRecvState ∧ hRecvState.state = .recv ∧
    (st (h := hRecvState)).ports[0]? = some ClientPort.reset := by decide

theorem witness_FetchTakesOldestTask :
    st.w.state = .idle ∧ ({ st with q := [task1, bcastTask] } : State).q = task1 :: [bcastTask] ∧ st.q = [] ∧
    (st (w := wAt .quiet)).w.state ≠ .idle := by
  decide

/-- Answered `fail`; a broadcast; `ok` with an error waiting, with three bytes kept, and with `T_SER = 0`. -/
theorem witness_WriteFrameToBus :
    (∃ s : State, s.w.state = .write ∧ s.w.task = some task1 ∧ s.ser.writeAns = .fail :: []) ∧
    (∃ s : State, s.w.state = .write ∧ s.w.task = some bcastTask ∧ s.ser.writeAns = .ok :: [] ∧
      bcastTask.isBroadcast = true) ∧
    (∃ s : State, s.w.state = .write ∧ s.w.task = some task1 ∧ s.ser.writeAns = .ok :: [] ∧
      task1.isBroadcast = false ∧ s.cfg.tSer ≠ 0 ∧ s.ser.rxFail = true) ∧
    (∃ s : State, s.w.state = .write ∧ s.w.task = some task1 ∧ s.ser.writeAns = .ok :: [] ∧ s.cfg.tSer ≠ 0 ∧
      s.cfg.rxStale = .keep ∧ s.rxpend.length = 3) ∧
    (∃ s : State, s.w.state = .write ∧ s.w.task = some task1 ∧ s.ser.writeAns = .ok :: [] ∧ s.cfg.tSer = 0) :=
  ⟨⟨st (w := wAt .write) (ser := ⟨[.fail], none, false, false⟩), by decide⟩,
    ⟨st (w := wAt .write (some bcastTask)) (ser := ⟨[.ok], none, false, false⟩), by decide⟩,
    ⟨st (w := wAt .write) (ser := ⟨[.ok], none, true, false⟩), by decide⟩,
    ⟨{ st (w := wAt .write) (ser := ⟨[.ok], none, false, false⟩) (rxpend := [0, 0, 0]) with
        cfg := { Config.default with rxStale := .keep } }, by decide⟩,
    ⟨{ st (w := wAt .write) (ser := ⟨[.ok], none, false, false⟩) with
        cfg := { Config.default with tSer := 0 } }, by decide⟩⟩

/-- Three bytes with a length of 0, and of 2 with `T_SER` other than 0 and 0; two bytes; an error; an open window. -/
theorem witness_ReadReplyHeader :
    task1.frame[1]? = some 0x03 ∧ rlen 0x03 0x03 0x00 ≠ 0 ∧
    (∃ s : State, s.w.state = .rdHdr ∧ s.w.task = some { task1 with frame := [0x01, 0x07] } ∧
      s.ser.readAns = some (.got [0x01, 0x07, 0x05]) ∧ rlen 0x07 0x07 0x05 = 0) ∧
    (∃ s : State, s.w.state = .rdHdr ∧ s.w.task = some task1 ∧ s.ser.readAns = some (.got [0x01, 0x03, 0x00]) ∧
      s.cfg.tSer ≠ 0) ∧
    (∃ s : State, s.w.state = .rdHdr ∧ s.w.task = some task1 ∧ s.ser.readAns = some (.got [0x01, 0x03, 0x00]) ∧
      s.cfg.tSer = 0) ∧
    (∃ s : State, s.w.state = .rdHdr ∧ s.w.task = some task1 ∧ s.ser.readAns = some (.got [0x01, 0x03])) ∧
    (∃ s : State, s.w.state = .rdHdr ∧ s.w.task = some task1 ∧ s.ser.readAns = some .failed) ∧
    (∃ s : State, s.w.state = .rdHdr ∧ s.w.task = some task1 ∧ s.ser.readAns = none) :=
  ⟨by decide, by decide,
    ⟨st (w := wAt .rdHdr (some { task1 with frame := [0x01, 0x07] })) (ser := ended (.got [0x01, 0x07, 0x05])),
      by decide⟩,
    ⟨st (w := wAt .rdHdr) (ser := ended (.got [0x01, 0x03, 0x00])), by decide⟩,
    ⟨{ st (w := wAt .rdHdr) (ser := ended (.got [0x01, 0x03, 0x00])) with cfg := { Config.default with tSer := 0 } },
      by decide⟩,
    ⟨st (w := wAt .rdHdr) (ser := ended (.got [0x01, 0x03])), by decide⟩,
    ⟨st (w := wAt .rdHdr) (ser := ended .failed), by decide⟩, ⟨st (w := wAt .rdHdr), by decide⟩⟩

/-- Two bytes of two, one of two, an error, and an open window. -/
theorem witness_ReadReplyTrailer :
    (∃ s : State, s.w.state = .rdTrl ∧ s.ser.readAns = some (.got [0xC0, 0xF1]) ∧ s.w.tlen.toNat = 2) ∧
    (∃ s : State, s.w.state = .rdTrl ∧ s.ser.readAns = some (.got [0xC0]) ∧ s.w.tlen.toNat = 2) ∧
    (∃ s : State, s.w.state = .rdTrl ∧ s.ser.readAns = some .failed) ∧
    (∃ s : State, s.w.state = .rdTrl ∧ s.ser.readAns = none) :=
  ⟨⟨st (w := wTrl 1) (ser := ended (.got [0xC0, 0xF1])), by decide⟩,
    ⟨st (w := wTrl 0) (ser := ended (.got [0xC0])), by decide⟩,
    ⟨st (w := wTrl 1) (ser := ended .failed), by decide⟩, ⟨st (w := wTrl 1), by decide⟩⟩

theorem witness_DeliverReply :
    ∃ s : State, s.w.state = .deliver ∧ s.w.task = some task1 ∧ s.handlers[task1.src]? = some hWaiting :=
  ⟨st (h := hWaiting) (w := wAt .deliver), by decide⟩

theorem witness_QuietPeriodEnds :
    (∃ s : State, s.w.state = .quiet ∧ s.w.timer.running = true ∧ s.w.timer.left = 0) ∧
    (∃ s : State, s.w.state = .quiet ∧ s.w.timer.running = true ∧ s.w.timer.left = 1) :=
  ⟨⟨st (w := wAt .quiet none true 0), by decide⟩, ⟨st (w := wAt .quiet none true 1), by decide⟩⟩

theorem witness_ConnectionOpensAndCloses :
    (∃ s : State, s.handlers[0]? = some Handler.reset ∧ s.ports[0]? = some ⟨true, [], []⟩ ∧
      Handler.reset.state = .closed) ∧
    (∃ s : State, s.handlers[0]? = some hRecvState ∧ s.ports[0]? = some ClientPort.reset ∧ hRecvState.state = .recv) ∧
    (∃ s : State, s.handlers[0]? = some hSendState ∧ s.ports[0]? = some ClientPort.reset ∧ hSendState.state = .send) :=
  ⟨⟨st (p := ⟨true, [], []⟩), by decide⟩, ⟨st (h := hRecvState), by decide⟩, ⟨st (h := hSendState), by decide⟩⟩

/-- Lengths 6 and 250, each with no byte too many. -/
theorem witness_RequestIsAccepted :
    (∃ s : State, s.handlers[0]? = some hRecvState ∧ hRecvState.state = .recv ∧
      s.ports[0]? = some ⟨false, [[0, 1, 0, 0, 0x00, 0x06, 1, 3, 0, 0, 0, 1]], []⟩ ∧
      (0x00 : Byte).toNat * 256 + (0x06 : Byte).toNat = ([3, 0, 0, 0, 1] : List Byte).length + 1) ∧
    (∃ s : State, s.handlers[0]? = some hRecvState ∧
      s.ports[0]? = some ⟨false, [0 :: 1 :: 0 :: 0 :: 0x00 :: 0xFA :: 1 :: List.replicate 249 0], []⟩ ∧
      (0x00 : Byte).toNat * 256 + (0xFA : Byte).toNat = (List.replicate 249 (0 : Byte)).length + 1) :=
  ⟨⟨st (h := hRecvState) (p := ⟨false, [[0, 1, 0, 0, 0x00, 0x06, 1, 3, 0, 0, 0, 1]], []⟩), by decide⟩,
    ⟨st (h := hRecvState) (p := ⟨false, [0 :: 1 :: 0 :: 0 :: 0x00 :: 0xFA :: 1 :: List.replicate 249 0], []⟩),
      by decide +kernel⟩⟩

/-- A handler in `H_RECV` at whose port the read `b` stands. -/
theorem read_presented (b : List Byte) :
    (st (h := hRecvState) (p := ⟨false, [b], []⟩)).handlers[0]? = some hRecvState ∧
    (st (h := hRecvState) (p := ⟨false, [b], []⟩)).ports[0]? = some ⟨false, b :: [], []⟩ ∧
    hRecvState.state = .recv := ⟨rfl, rfl, rfl⟩

/-- Reads of 5 and of 6 bytes; protocol ids 0x0001 and 0x0100; lengths 5 and 251: each can be the read of
`read_presented`. -/
theorem witness_BadRequestClosesConnection :
    ([0, 1, 0, 0, 0] : List Byte).length < 6 ∧ ([0, 1, 0, 0, 0, 6] : List Byte).length = 6 ∧
    ¬((0x00 : Byte) = 0 ∧ (0x01 : Byte) = 0) ∧ ¬((0x01 : Byte) = 0 ∧ (0x00 : Byte) = 0) ∧
    (0x00 : Byte).toNat * 256 + (0x05 : Byte).toNat < 6 ∧
    250 < (0x00 : Byte).toNat * 256 + (0xFB : Byte).toNat ∧
    (∃ s : State, s.handlers[0]? = some hRecvState ∧ s.ports[0]? = some ⟨false, [0, 1, 0, 0, 0, 6] :: [], []⟩ ∧
      hRecvState.state = .recv) := by
  refine ⟨by decide, by decide, by decide, by decide, by decide, by decide, _, read_presented _⟩

/-- One byte short of the length field, with either value of `SHORT_REQ`. -/
theorem witness_ShortRequestByParameter :
    6 ≤ (0x00 : Byte).toNat * 256 + (0x06 : Byte).toNat ∧ (0x00 : Byte).toNat * 256 + (0x06 : Byte).toNat ≤ 250 ∧
    ([0x03, 0, 0, 0] : List Byte).length + 1 < (0x00 : Byte).toNat * 256 + (0x06 : Byte).toNat ∧
    (∃ s : State, s.handlers[0]? = some hRecvState ∧ hRecvState.state = .recv ∧
      s.ports[0]? = some ⟨false, [[0, 1, 0, 0, 0x00, 0x06, 1, 0x03, 0, 0, 0]], []⟩ ∧ s.cfg.shortReq = .refuse) ∧
    (∃ s : State, s.handlers[0]? = some hRecvState ∧ hRecvState.state = .recv ∧
      s.ports[0]? = some ⟨false, [[0, 1, 0, 0, 0x00, 0x06, 1, 0x03, 0, 0, 0]], []⟩ ∧ s.cfg.shortReq = .close) :=
  ⟨by decide, by decide, by decide,
    ⟨st (h := hRecvState) (p := ⟨false, [[0, 1, 0, 0, 0x00, 0x06, 1, 0x03, 0, 0, 0]], []⟩), by decide⟩,
    ⟨{ st (h := hRecvState) (p := ⟨false, [[0, 1, 0, 0, 0x00, 0x06, 1, 0x03, 0, 0, 0]], []⟩) with
        cfg := { Config.default with shortReq := .close } }, by decide⟩⟩

theorem witness_RequestIsEncoded :
    (st (h := hEnc)).handlers[0]? = some hEnc ∧ hEnc.state = .decode ∧
    hEnc.req = 0x00 :: 0x01 :: 0x00 :: 0x00 :: 0x00 :: 0x06 :: 0x01 :: 0x03 :: ([0x00, 0x00, 0x00, 0x01] ++ []) ∧
    hEnc.len.toNat = ([0x00, 0x00, 0x00, 0x01] : List Byte).length + 2 := by decide

theorem witness_TaskIsSubmitted :
    (st (h := hSubmit)).handlers[0]? = some hSubmit ∧ hSubmit.state = .decode ∧
    hSubmit.req = 0x00 :: 0x01 :: 0x00 :: 0x00 :: 0x00 :: 0x06 :: (([0x01, 0x03, 0, 0, 0, 0x01] : List Byte) ++ []) ∧
    hSubmit.len.toNat = ([0x01, 0x03, 0, 0, 0, 0x01] : List Byte).length := by decide

theorem witness_ReplyIsAwaited :
    (∃ (s : State) (h : Handler), s.handlers[0]? = some h ∧ h.state = .await ∧ h.rslot = none) ∧
    (∃ (s : State) (h : Handler), s.handlers[0]? = some h ∧ h.state = .await ∧ h.rslot = some []) :=
  ⟨⟨st (h := hWaiting), hWaiting, by decide⟩,
    ⟨st (h := { hWaiting with rslot := some [] }), { hWaiting with rslot := some [] }, by decide⟩⟩

/-- A broadcast, and a reply of 5 bytes. -/
theorem witness_GoodReplyIsDecoded :
    (∃ (s : State) (h : Handler), s.handlers[0]? = some h ∧ h.state = .decode ∧ h.bc = true) ∧
    (∃ (s : State) (h : Handler) (r : List Byte), s.handlers[0]? = some h ∧ h.state = .decode ∧
      h.bc = false ∧ 3 ≤ ([0x01, 0x83, 0x02] : List Byte).length ∧
      r = [0x01, 0x83, 0x02] ++
        [lo8 (crc16 s.cfg.crc [0x01, 0x83, 0x02]), hi8 (crc16 s.cfg.crc [0x01, 0x83, 0x02])]) :=
  ⟨⟨stDec 0x00 0x06 true, hDec 0x00 0x06 true, by decide⟩,
    ⟨stDec 0x01 0x03 false, hDec 0x01 0x03 false, [0x01, 0x83, 0x02, 0xC0, 0xF1],
      by decide +kernel⟩⟩

/-- Replies of 0, 1, 4 and 5 bytes. -/
theorem witness_BadReplyGivesException :
    (stDec 0x01 0x03 false).handlers[0]? = some (hDec 0x01 0x03 false) ∧
    (hDec 0x01 0x03 false).state = .decode ∧ (hDec 0x01 0x03 false).bc = false ∧
    1 ≤ ([0x01] : List Byte).length ∧ ([0x01, 0x03, 0x02, 0x00] : List Byte).length < 5 ∧
    3 ≤ ([0x00, 0x00, 0x00] : List Byte).length ∧
    ¬((0x00 : Byte) = lo8 (crc16 st.cfg.crc [0x00, 0x00, 0x00]) ∧
      (0x00 : Byte) = hi8 (crc16 st.cfg.crc [0x00, 0x00, 0x00])) :=
  ⟨rfl, rfl, rfl, by decide, by decide, by decide, by decide +kernel⟩

theorem witness_ResponseIsSent :
    ∀ r : IoResult, ∃ s : State, s.handlers[0]? = some hSendState ∧ s.ports[0]? = some ⟨false, [], r :: []⟩ ∧
      hSendState.state = .send := fun r => ⟨st (h := hSendState) (p := ⟨false, [], [r]⟩), rfl, rfl, rfl⟩

theorem witness_DisabledOperationsWait :
    (wAt .quiet).state ≠ .idle ∧ (wAt .quiet).state ≠ .write ∧ (wAt .quiet).state ≠ .rdHdr ∧
    (wAt .quiet).state ≠ .rdTrl ∧ (wAt .quiet).state ≠ .deliver ∧ (wAt .idle none).state ≠ .quiet ∧
    (st (h := hRecvState)).handlers[0]? = some hRecvState ∧
    (st (h := hRecvState)).ports[0]? = some ClientPort.reset ∧ hRecvState.state ≠ .closed ∧
    ClientPort.reset.openReq = false ∧ ClientPort.reset.inbound = [] ∧ hRecvState.state ≠ .decode ∧
    hRecvState.state ≠ .await ∧ hRecvState.state ≠ .send := by decide

/-- A read of REQ_MAX bytes, and of one more; a connection, and a second one; a write's and a send's answer. -/
theorem witness_InputsStandAtTheirPorts :
    (∃ s : State, s.ports[0]? = some ClientPort.reset ∧ ClientPort.reset.openReq = false ∧
      s.script = .env (.cliOpen 0) :: []) ∧
    (∃ s : State, s.ports[0]? = some ⟨true, [], []⟩ ∧ s.script = .env (.cliOpen 0) :: []) ∧
    (∃ s : State, s.ports[0]? = some ClientPort.reset ∧ s.script = .env (.cliRecv 0 (List.replicate 256 0)) :: []) ∧
    (∃ s : State, s.ports[0]? = some ClientPort.reset ∧ s.script = .env (.cliRecv 0 (List.replicate 257 0)) :: []) ∧
    (List.replicate 256 (0 : Byte)).length ≤ 256 ∧ 256 < (List.replicate 257 (0 : Byte)).length ∧
    (∃ s : State, s.ports[0]? = some ClientPort.reset ∧ s.script = .env (.cliSendAns 0 .ok) :: []) ∧
    (∃ s : State, s.script = .env (.serWriteAns .fail) :: []) :=
  ⟨⟨st (script := [.env (.cliOpen 0)]), rfl, rfl, rfl⟩,
    ⟨st (p := ⟨true, [], []⟩) (script := [.env (.cliOpen 0)]), rfl, rfl⟩,
    ⟨st (script := [.env (.cliRecv 0 (List.replicate 256 0))]), rfl, rfl⟩,
    ⟨st (script := [.env (.cliRecv 0 (List.replicate 257 0))]), rfl, rfl⟩, Nat.le_of_eq List.length_replicate,
    Nat.lt_of_lt_of_eq (by decide) List.length_replicate.symm,
    ⟨st (script := [.env (.cliSendAns 0 .ok)]), rfl, rfl⟩, ⟨st (script := [.env (.serWriteAns .fail)]), rfl⟩⟩

/-- Cut off after one byte; cut off before the first; and while nothing is written. -/
theorem witness_ResetReturnsToStart :
    (∃ s : State, s.script = .env (.reset 10 1) :: [] ∧ s.w.state = .write ∧ s.w.task = some task1) ∧
    (∃ s : State, s.script = .env (.reset 0 0) :: []) ∧
    (∃ s : State, s.script = .env (.reset 0 1) :: [] ∧ s.w.state ≠ .write) :=
  ⟨⟨st (w := wAt .write) (script := [.env (.reset 10 1)]), by decide⟩,
    ⟨st (script := [.env (.reset 0 0)]), by decide⟩, ⟨st (script := [.env (.reset 0 1)]), by decide⟩⟩

/-- 4 and 248 data bytes. -/
theorem witness_RequestBecomesOneFrame :
    (∃ s : State, s.handlers[0]? = some hRecvState ∧ hRecvState.state = .recv ∧
      s.ports[0]? = some ⟨false, (0 :: 1 :: 0 :: 0 :: 0x00 :: 0x06 :: 1 :: 3 :: ([0, 0, 0, 1] ++ [])) :: [], []⟩ ∧
      (0x00 : Byte).toNat * 256 + (0x06 : Byte).toNat = ([0, 0, 0, 1] : List Byte).length + 2 ∧
      s.script = .turn (.handler 0) :: []) ∧
    (∃ s : State, s.handlers[0]? = some hRecvState ∧
      s.ports[0]? =
        some ⟨false, (0 :: 1 :: 0 :: 0 :: 0x00 :: 0xFA :: 1 :: 3 :: (List.replicate 248 0 ++ [])) :: [], []⟩ ∧
      (0x00 : Byte).toNat * 256 + (0xFA : Byte).toNat = (List.replicate 248 (0 : Byte)).length + 2 ∧
      s.script = .turn (.handler 0) :: []) :=
  ⟨⟨st (h := hRecvState) (p := ⟨false, [[0, 1, 0, 0, 0x00, 0x06, 1, 3, 0, 0, 0, 1]], []⟩)
      (script := [.turn (.handler 0)]), by decide⟩,
    ⟨st (h := hRecvState) (p := ⟨false, [0 :: 1 :: 0 :: 0 :: 0x00 :: 0xFA :: 1 :: 3 :: List.replicate 248 0], []⟩)
      (script := [.turn (.handler 0)]), by decide +kernel⟩⟩

/-! ## Witnesses that meet the invariants -/

/-- A state of `st`'s form meets the invariant when its handler 0 and its worker do, and the worker's task, if it has
one, is handler 0's. -/
theorem inv_st (h : Handler) (p : ClientPort) (w : Worker) (ser : SerialPort) (script : List Item) (rxpend : List Byte)
    (hok : h.Ok) (hp : ∀ b ∈ p.inbound, b.length ≤ reqMax) (wok : w.Ok)
    (own : ∀ t, w.task = some t →
      t.src = 0 ∧ h.state = .await ∧ h.rslot = none ∧ h.Made CrcParams.modbus t.frame ∧ t.isBroadcast = h.bc)
    (out : h.state = .await → h.rslot = none → w.task ≠ none)
    (win : (st h p w ser script rxpend).WindowOk) : (st h p w ser script rxpend).Inv := by
  have hr : Handler.reset.Ok := by constructor <;> simp [Handler.reset]
  refine ⟨by simp [st, State.reset, State.start, Config.default, Config.nclients], ?_, ?_, wok, ?_, ?_, ?_, win⟩
  · intro i g e
    match i with
    | 0 => cases e; exact hok
    | 1 => cases e; exact hr
    | n + 2 => cases e
  · intro i g e
    match i with
    | 0 => cases e; exact hp
    | 1 => cases e; simp [ClientPort.reset]
    | n + 2 => cases e
  · intro t ht
    have ht : w.task = some t := by simpa [State.tasks, st, State.reset, State.start] using ht
    obtain ⟨h0, h1⟩ := own t ht
    exact ⟨h, by rw [h0]; rfl, h1⟩
  · rintro i ⟨g, e, h1, h2⟩
    match i with
    | 0 =>
      cases e
      obtain ⟨t, ht⟩ := Option.ne_none_iff_exists'.mp (out h1 h2)
      have := (own t ht).1
      simp [State.tasks, st, State.reset, State.start, ht, this]
    | 1 => cases e; cases h1
    | n + 2 => cases e
  · cases ht : w.task <;> simp [State.tasks, st, State.reset, State.start, ht]

theorem frame1_shape : FrameShape CrcParams.modbus frame1 :=
  ⟨[0x01, 0x03, 0x00, 0x00, 0x00, 0x01], by decide +kernel, by decide, by decide⟩

theorem bcast_shape : FrameShape CrcParams.modbus bcastTask.frame :=
  ⟨[0x00, 0x06, 0x00, 0x01, 0x00, 0x03], by decide +kernel, by decide, by decide⟩

theorem waiting_ok : hWaiting.Ok :=
  ⟨by decide, by decide, by decide, fun _ => ⟨⟨rfl, by decide, by decide⟩, by decide⟩, nofun, nofun⟩

theorem waiting_made : hWaiting.Made CrcParams.modbus frame1 := ⟨frame1_shape, by decide, by decide, by decide⟩

/-- A handler that awaits the end of a broadcast. -/
def hBcast : Handler := { hWaiting with uid := 0x00, fc := 0x06, bc := true }

theorem bcast_ok : hBcast.Ok :=
  ⟨by decide, by decide, by decide, fun _ => ⟨⟨rfl, by decide, by decide⟩, by decide⟩, nofun, nofun⟩

theorem bcast_made : hBcast.Made CrcParams.modbus bcastTask.frame := ⟨bcast_shape, by decide, by decide, by decide⟩

theorem send_ok : hSendState.Ok :=
  ⟨by decide, by decide, by decide, nofun, nofun,
    fun _ => ⟨⟨rfl, by decide, by decide⟩, by decide, by decide, by decide, by decide⟩⟩

theorem worker_ok_rdHdr (left : BitVec 32) : (wAt .rdHdr (some task1) true left).Ok := by
  constructor <;> simp [wAt, Worker.reset, task1]

theorem worker_ok_write : (wAt .write (some bcastTask)).Ok := by
  constructor <;> simp [wAt, Worker.reset]

/-- Outside the reading states nothing is pending and no read has ended. -/
theorem window_st (h : Handler) (p : ClientPort) (w : Worker) (ser : SerialPort) (script : List Item)
    (hw : w.state ≠ .rdHdr ∧ w.state ≠ .rdTrl) (hs : ser.readAns = none) : (st h p w ser script).WindowOk := by
  refine ⟨fun h => absurd hs h, fun b e => ?_, fun h => ?_, fun _ _ => rfl⟩
  · exact absurd (hs.symm.trans e) (by simp)
  · simp [State.windowOpen, State.reading, st, hw.1, hw.2] at h

/-- In its first window with handler 0's task, `b` in and `left` milliseconds left. -/
theorem inv_window (p : ClientPort) (left : BitVec 32) (script : List Item) (b : List Byte)
    (hp : ∀ b ∈ p.inbound, b.length ≤ reqMax) (hl : left ≠ 0) (hb : b.length < 3) :
    (st hWaiting p (wAt .rdHdr (some task1) true left) SerialPort.reset script b).Inv := by
  refine inv_st _ _ _ _ _ _ waiting_ok hp (worker_ok_rdHdr left) ?_ (by simp [wAt]) ⟨nofun, nofun, ?_, nofun⟩
  · intro t ht; cases ht; exact ⟨rfl, rfl, rfl, waiting_made, rfl⟩
  · exact fun _ => ⟨hb, hl, rfl, rfl⟩

/-- In its first window with V1's header in. -/
theorem inv_header (script : List Item) :
    (st hWaiting ClientPort.reset (wAt .rdHdr (some task1) true 5) (ended (.got [0x01, 0x03, 0x02])) script).Inv := by
  refine inv_st _ _ _ _ _ _ waiting_ok (by decide) (worker_ok_rdHdr 5) ?_ (by decide)
    ⟨fun _ => rfl, ?_, nofun, fun _ _ => rfl⟩
  · intro t ht; cases ht; exact ⟨rfl, rfl, rfl, waiting_made, rfl⟩
  · intro b hb; cases hb; simp [State.asked, st, wAt, ended, SerialPort.reset]

theorem inv_broadcast (script : List Item) :
    (st hBcast ClientPort.reset (wAt .write (some bcastTask)) ⟨[.ok], none, false, false⟩ script).Inv := by
  refine inv_st _ _ _ _ _ _ bcast_ok (by decide) worker_ok_write ?_ (by decide) (window_st _ _ _ _ _ (by decide) rfl)
  intro t ht; cases ht; exact ⟨rfl, rfl, rfl, bcast_made, rfl⟩

/-- At rest, as after reset. -/
theorem inv_rest (script : List Item) : (st (script := script)).Inv := by
  refine inv_st _ _ _ _ _ _ ?_ (by decide) ?_ nofun (by decide) (window_st _ _ _ _ _ (by decide) rfl) <;>
    constructor <;> simp [Handler.reset, Worker.reset]

theorem witness_StepKeepsInvariant : ∃ s t : State, s.Inv ∧ step s = .next t ∧ t.w.hdr = [0x01, 0x03, 0x02] :=
  ⟨_, _, inv_header [.turn .worker], rfl, rfl⟩

theorem witness_OccupancyBound : ∃ s : State, s.Inv ∧ s.w.task ≠ none :=
  ⟨_, inv_broadcast [], by decide⟩

/-- In its first window, which has just ended by its time with two of three bytes in. -/
theorem inv_tied (script : List Item) :
    (st hWaiting ClientPort.reset (wAt .rdHdr (some task1) true 0) ⟨[], some (.got [0x01, 0x03]), false, true⟩
      script).Inv := by
  refine inv_st _ _ _ _ _ _ waiting_ok (by decide) (worker_ok_rdHdr 0) ?_ (by decide)
    ⟨fun _ => rfl, ?_, nofun, fun _ _ => rfl⟩
  · intro t ht; cases ht; exact ⟨rfl, rfl, rfl, waiting_made, rfl⟩
  · intro b hb; cases hb; simp [State.asked, st, wAt]

/-- The first of three bytes, the third, and a byte while no window is open, with `refuse` and with `keep`; a byte that
ties with the end of the window, too late and in time; one that is in time where nothing ties; and the two runs of a
tie. -/
theorem witness_SerialByteArrives :
    (∃ s : State, s.Inv ∧ s.script = .env (.serByte 0x2A) :: [] ∧ s.w.state = .rdHdr ∧ s.ser.readAns = none ∧
      s.rxpend.length + 1 < 3) ∧
    (∃ s : State, s.Inv ∧ s.script = .env (.serByte 0x2A) :: [] ∧ s.w.state = .rdHdr ∧ s.ser.readAns = none ∧
      3 ≤ s.rxpend.length + 1) ∧
    (∃ s : State, s.Inv ∧ s.script = .env (.serByte 0x2A) :: [] ∧ s.ser.readAns ≠ none ∧ s.cfg.rxStale = .refuse ∧
      s.ser.tie = false) ∧
    (∃ s : State, s.Inv ∧ s.script = .env (.serByte 0x2A) :: [] ∧ s.ser.readAns ≠ none ∧ s.cfg.rxStale = .refuse ∧
      s.ser.tie = true) ∧
    (∃ s : State, s.Inv ∧ s.script = .env (.tiedByte 0x2A) :: [] ∧ s.ser.tie = true ∧
      s.ser.readAns = some (.got [0x01, 0x03])) ∧
    (∃ s : State, s.Inv ∧ s.script = .env (.tiedByte 0x2A) :: [] ∧ s.ser.tie = false) ∧
    (∀ e, ∃ s : State, s.Inv ∧ s.w.state = .rdHdr ∧ s.ser.readAns = none ∧ s.rxpend.length + 1 = 3 ∧
      s.script = .env (.elapse s.w.timer.left.toNat) :: .env e :: []) ∧
    (∃ s : State, s.Inv ∧ s.script = .env (.serByte 0x2A) :: [] ∧ s.w.state = .idle ∧ s.cfg.rxStale = .keep) := by
  refine ⟨⟨_, inv_window ClientPort.reset 1 [.env (.serByte 0x2A)] [] (by decide) (by decide) (by decide), by decide⟩,
    ⟨_, inv_window ClientPort.reset 1 [.env (.serByte 0x2A)] [0x01, 0x03] (by decide) (by decide) (by decide),
      by decide⟩,
    ⟨_, inv_header [.env (.serByte 0x2A)], by decide⟩, ⟨_, inv_tied [.env (.serByte 0x2A)], by decide⟩,
    ⟨_, inv_tied [.env (.tiedByte 0x2A)], by decide⟩, ⟨_, inv_header [.env (.tiedByte 0x2A)], by decide⟩,
    fun e => ⟨_, inv_window ClientPort.reset 5 [.env (.elapse 5), .env e] [0x01, 0x03] (by decide) (by decide)
      (by decide), rfl, rfl, rfl, rfl⟩,
    ⟨{ st (script := [.env (.serByte 0x2A)]) with cfg := { Config.default with rxStale := .keep } }, ?_, by decide⟩⟩
  obtain ⟨h1, h2, h3, h4, h5, h6, h7, h8⟩ := inv_rest [.env (.serByte 0x2A)]
  exact ⟨h1, h2, h3, h4, h5, h6, h7, ⟨h8.answered, h8.bounded, h8.opened, nofun⟩⟩

/-- A window with exactly the time that passes left, with one millisecond more, and a stopped timer. -/
theorem witness_TimerCountsDown :
    (∃ s : State, s.Inv ∧ s.script = .env (.elapse 7) :: [] ∧ s.w.state = .rdHdr ∧ s.ser.readAns = none ∧
      s.w.timer.left.toNat ≤ 7) ∧
    (∃ s : State, s.Inv ∧ s.script = .env (.elapse 7) :: [] ∧ s.w.timer.running = true ∧ 7 < s.w.timer.left.toNat) ∧
    (∃ s : State, s.Inv ∧ s.script = .env (.elapse 7) :: [] ∧ s.w.timer.running = false) :=
  ⟨⟨_, inv_window ClientPort.reset 7 [.env (.elapse 7)] [0x01, 0x03] (by decide) (by decide) (by decide), by decide⟩,
    ⟨_, inv_window ClientPort.reset 8 [.env (.elapse 7)] [] (by decide) (by decide) (by decide), by decide⟩,
    ⟨_, inv_rest [.env (.elapse 7)], by decide⟩⟩

/-- A device error while a window is open, and while none is. -/
theorem witness_InputsStandAtTheirPorts_error :
    (∃ s : State, s.Inv ∧ s.script = .env .serFail :: [] ∧ s.w.state = .rdHdr ∧ s.ser.readAns = none) ∧
    (∃ s : State, s.Inv ∧ s.script = .env .serFail :: [] ∧ s.w.state = .idle) :=
  ⟨⟨_, inv_window ClientPort.reset 1 [.env .serFail] [0x01, 0x03] (by decide) (by decide) (by decide), by decide⟩,
    ⟨_, inv_rest [.env .serFail], by decide⟩⟩

/-- A state about to hand its client a response: what the statement says of `cliSend` is not said of nothing. -/
theorem witness_BroadcastIsNeverAnswered : ∃ (s t : State) (c : Crossing), s.Inv ∧ step s = .next t ∧
    t.trace = s.trace ++ [c] ∧ c.ev = .cliSend 0 hSendState.rsp .ok := by
  refine ⟨st hSendState ⟨false, [], [.ok]⟩ Worker.reset SerialPort.reset [.turn (.handler 0)], _, _,
    inv_st _ _ _ _ _ _ send_ok (by decide) ?_ nofun (by decide) (window_st _ _ _ _ _ (by decide) rfl),
    rfl, rfl, rfl⟩
  constructor <;> simp [Worker.reset]

/-- The quiet period is over exactly when the worker writes: the last serial event lies `T_IFD = 10` before. -/
def quietState : State :=
  { st (w := wAt .write) (ser := { SerialPort.reset with writeAns := [.ok] }) (script := [.turn .worker]) with
    now := 25, trace := [⟨15, .serRead 3 []⟩] }

theorem quietState_quiet : quietState.Quiet := by
  constructor
  · decide
  · simp [Spaced, quietState]
  · intro _
    unfold QuietBefore
    decide
  · nofun

/-- A frame is written; and the engine is reset in the middle of it, and released `T_IFD` after the cut. -/
theorem witness_StepKeepsQuietPeriod :
    (∃ t, quietState.Quiet ∧ quietState.ResetWhenIdle ∧ step quietState = .next t) ∧
    (∃ s t : State, s.Quiet ∧ s.ResetWhenIdle ∧ s.script = .env (.reset 10 1) :: [] ∧ step s = .next t ∧
      t.trace = s.trace ++ [⟨25, .serCut [0x01]⟩]) := by
  refine ⟨⟨_, quietState_quiet, nofun, rfl⟩,
    { quietState with script := [.env (.reset 10 1)] }, _, ?_, ?_, rfl, rfl, rfl⟩
  · obtain ⟨h1, h2, h3, h4⟩ := quietState_quiet
    exact ⟨h1, h2, h3, h4⟩
  · intro ms sent rest e
    cases e
    unfold IdleBus
    decide

/-- A byte that arrived is activity on the bus (70 R293 item 3): after one at 500 the reset must be held for
`T_IFD = 10` milliseconds, and not less. -/
theorem test_reset_when_idle (ms : Nat) :
    State.ResetWhenIdle { st (script := [.env (.reset ms 0)]) with now := 500, trace := [⟨500, .serByte 0x2A⟩] } ↔
      10 ≤ ms := by
  constructor
  · intro h
    have := h ms 0 [] rfl ⟨500, .serByte 0x2A⟩
      (by simp [State.cutWrite, st, State.reset, State.start, Worker.reset]) rfl
    simp [st, State.reset, State.start, Config.default] at this
    omega
  · intro h ms' sent rest e c hc _
    cases e
    obtain rfl : c = ⟨500, .serByte 0x2A⟩ := by
      simpa [State.cutWrite, st, State.reset, State.start, Worker.reset] using hc
    simp [st, State.reset, State.start, Config.default]
    omega

/-- An arriving byte leaves its crossing, and a window that opens on kept bytes and a waiting error takes both (log
10). -/
theorem test_arrival_crosses :
    crossed (step (st (w := wAt .rdHdr (some task1) true 5) (script := [.env (.serByte 0x01)]))) =
      some [.serByte 0x01] ∧
    (after (exec .bwWrite { st (w := wAt .write) (ser := ⟨[.ok], none, true, false⟩) (rxpend := [1, 2, 3, 4]) with
      cfg := { Config.default with rxStale := .keep } })).map (fun s => (s.ser.readAns, s.rxpend)) =
      some (some .failed, [4]) := by decide

theorem witness_FrameWrittenOnlyAfterQuiet : ∃ (t : State) (c : Crossing), quietState.Quiet ∧
    step quietState = .next t ∧ t.trace = quietState.trace ++ [c] ∧ c.ev.busWrite = true :=
  ⟨_, _, quietState_quiet, rfl, rfl, rfl⟩

/-- V1: the reply's two data bytes follow the header. -/
theorem witness_GoodReplyReachesClient :
    ∃ s : State, s.Inv ∧ s.cfg.tSer ≠ 0 ∧ s.w.state = .rdHdr ∧ s.ser.readAns = none ∧ s.rxpend = [] ∧
      s.w.task = some task1 ∧ task1.src = 0 ∧ task1.frame[1]? = some 0x03 ∧
      s.ports[0]? = some ⟨false, [], [.ok]⟩ ∧ (rlen 0x03 0x03 0x02).toNat = ([0x00, 0x2A] : List Byte).length + 2 ∧
      s.script = [.env (.serByte 0x01), .env (.serByte 0x03), .env (.serByte 0x02), .turn .worker] ++
        ([0x00, 0x2A] ++ [lo8 (crc16 s.cfg.crc (0x01 :: 0x03 :: 0x02 :: [0x00, 0x2A])),
          hi8 (crc16 s.cfg.crc (0x01 :: 0x03 :: 0x02 :: [0x00, 0x2A]))]).map (fun b => Item.env (.serByte b)) ++
        .turn .worker :: .turn .worker :: .turn (.handler 0) :: .turn (.handler 0) :: [] :=
  ⟨_, inv_window ⟨false, [], [.ok]⟩ 5 ((reply1.take 3).map (fun b => Item.env (.serByte b)) ++ [.turn .worker] ++
      (reply1.drop 3).map (fun b => Item.env (.serByte b)) ++ [.turn .worker, .turn .worker, .turn (.handler 0),
      .turn (.handler 0)]) [] (by decide) (by decide) (by decide),
    by decide, rfl, rfl, rfl, rfl, rfl, rfl, rfl, by decide, by decide +kernel⟩

/-- Two bytes are in. -/
theorem witness_SilentBusGivesException :
    ∃ s : State, s.Inv ∧ s.w.state = .rdHdr ∧ s.ser.readAns = none ∧ s.w.task = some task1 ∧ task1.src = 0 ∧
      s.ports[0]? = some ⟨false, [], [.ok]⟩ ∧ s.rxpend.length = 2 ∧
      s.script = .env (.elapse s.w.timer.left.toNat) :: .turn .worker :: .turn .worker :: .turn (.handler 0) ::
        .turn (.handler 0) :: [] :=
  ⟨_, inv_window ⟨false, [], [.ok]⟩ 5 [.env (.elapse 5), .turn .worker, .turn .worker, .turn (.handler 0),
      .turn (.handler 0)] [0x01, 0x03] (by decide) (by decide) (by decide),
    rfl, rfl, rfl, rfl, rfl, rfl, by decide⟩

theorem witness_BroadcastRunsSilently :
    ∃ s : State, s.Inv ∧ s.w.state = .write ∧ s.w.task = some bcastTask ∧ bcastTask.isBroadcast = true ∧
      s.ser.writeAns = .ok :: [] ∧
      s.script = .turn .worker :: .turn .worker :: .turn (.handler bcastTask.src) :: [] :=
  ⟨_, inv_broadcast [.turn .worker, .turn .worker, .turn (.handler 0)], rfl, rfl, rfl, rfl, rfl⟩

/-- With the window open, and with its read ended. -/
theorem witness_TaskIsAnsweredInBoundedTime :
    (∃ s : State, s.Inv ∧ s.cfg.tSer ≠ 0 ∧ s.w.state = .rdHdr ∧ s.w.task = some task1 ∧ s.ser.readAns = none ∧
      s.script = .env (.elapse s.w.timer.left.toNat) :: .turn .worker :: .env (.elapse s.cfg.tSer.toNat) ::
        .turn .worker :: .turn .worker :: []) ∧
    (∃ s : State, s.Inv ∧ s.cfg.tSer ≠ 0 ∧ s.w.state = .rdHdr ∧ s.w.task = some task1 ∧ s.ser.readAns ≠ none ∧
      s.script = .env (.elapse s.w.timer.left.toNat) :: .turn .worker :: .env (.elapse s.cfg.tSer.toNat) ::
        .turn .worker :: .turn .worker :: []) :=
  ⟨⟨_, inv_window ClientPort.reset 5 [.env (.elapse 5), .turn .worker, .env (.elapse 1000), .turn .worker,
      .turn .worker] [] (by decide) (by decide) (by decide), by decide, rfl, rfl, rfl, by decide⟩,
    ⟨_, inv_header [.env (.elapse 5), .turn .worker, .env (.elapse 1000), .turn .worker, .turn .worker],
      by decide, rfl, rfl, by decide, by decide⟩⟩

end Sys2Proof.Tests
end

section
/-! SUPPORT. What one step runs (log 3, log 6): equations for `step` by the item the schedule begins with and for
`perform` by what completes the operation, and from them the statements about the step's choice of its operation. -/

namespace Sys2Proof.Machine

/-! ## The first item of the schedule -/

theorem step_scheduled {s : State} {it : Item} {rest : List Item} (hs : s.script = it :: rest) :
    step s = issue it { s with script := rest } := by
  simp only [step, runSchedule, hs]

theorem issue_word_ok {word : List Byte} {op : Instr} (s : State) (hd : decode word = .ok op) :
    issue (.op word) s = perform op s := by
  simp only [issue, hd]

theorem issue_word_bad {word : List Byte} {why : BadWord} (s : State) (hd : decode word = .bad why) :
    issue (.op word) s = .refused (.badOperationWord why) := by
  simp only [issue, hd]

/-- What the worker selects is a step by itself. -/
theorem issue_turn_worker (s : State) : issue (.turn .worker) s = exec s.w.state.select s :=
  perform_alone (by cases s.w.state <;> rfl)

theorem issue_turn_handler {i : Nat} {s : State} {h : Handler} {op : Instr} (hh : s.handlers[i]? = some h)
    (hsel : h.state.select i = some op) : issue (.turn (.handler i)) s = perform op s := by
  simp only [issue, withHandler_of _ hh, hsel]

/-- A handler whose state selects nothing waits (10_state R25). -/
theorem issue_turn_handler_waits {i : Nat} {s : State} {h : Handler} (hh : s.handlers[i]? = some h)
    (hsel : h.state.select i = none) : issue (.turn (.handler i)) s = .next s := by
  simp only [issue, withHandler_of _ hh, hsel, waits]

/-! ## What completes a step -/

/-- Only H.RECV and H.AWAIT begin a pass through `H_DECODE` (10_state R25). -/
theorem continuation_eq_nil {op : Instr} (s : State) (h : ∀ i, op ≠ .hRecv i ∧ op ≠ .hAwait i) :
    s.continuation op = [] := by
  cases op with
  | hRecv i => exact absurd rfl (h i).1
  | hAwait i => exact absurd rfl (h i).2
  | _ => rfl

theorem afterRecv_eq_nil {i : Nat} {s : State} (h : ∀ g, s.handlers[i]? = some g → g.state ≠ .recv) :
    s.afterRecv i = [] := by
  cases hh : s.handlers[i]? with
  | none => simp only [State.afterRecv, hh]
  | some g => rw [afterRecv_of hh, if_neg (h g hh)]

theorem afterAwait_eq_nil {i : Nat} {s : State}
    (h : ∀ g, s.handlers[i]? = some g → g.state ≠ .await ∨ g.rslot = none) : s.afterAwait i = [] := by
  cases hh : s.handlers[i]? with
  | none => simp only [State.afterAwait, hh]
  | some g =>
    cases hr : g.rslot with
    | none => simp only [State.afterAwait, hh, hr]
    | some r =>
      have hs : g.state ≠ .await := (h g hh).resolve_right (by simp [hr])
      rw [afterAwait_of hh hr, if_neg hs]

/-- An operation that stops the machine stops its step: nothing completes it. -/
theorem perform_stops {op : Instr} {s : State} (h : ∀ u, exec op s ≠ .next u) : perform op s = exec op s := by
  rw [perform, runAll]
  cases he : exec op s with
  | next u => exact absurd he (h u)
  | fault r => rfl
  | refused r => rfl

theorem perform_hRecv {i : Nat} {s u v : State} {h : Handler} (hh : s.handlers[i]? = some h) (hs : h.state = .recv)
    (hu : exec (.hRecv i) s = .next u) (hv : exec (.rtuEnc i) u = .next v) :
    perform (.hRecv i) s = exec (.submit i) v := by
  have hc : s.continuation (.hRecv i) = [.rtuEnc i, .submit i] := (afterRecv_of hh).trans (if_pos hs)
  rw [perform, hc, runAll_cons hu, runAll_cons hv, runAll_one]

theorem perform_hAwait {i : Nat} {s u : State} {h : Handler} {r : List Byte} (hh : s.handlers[i]? = some h)
    (hs : h.state = .await) (hr : h.rslot = some r) (hu : exec (.hAwait i) s = .next u) :
    perform (.hAwait i) s = exec (.rtuDec ⟨i, r⟩) u := by
  have hc : s.continuation (.hAwait i) = [.rtuDec ⟨i, r⟩] := (afterAwait_of hh hr).trans (if_pos hs)
  rw [perform, hc, runAll_cons hu, runAll_one]

/-! ## The statements -/

/-- Settles O5, from the equations of `step` on a word and of `perform` on each kind of operation. -/
theorem stepRunsDecodedWord : Obligations.StepRunsDecodedWord := by
  refine ⟨fun s word rest hs => ⟨fun op hd => ?_, fun why hd => ?_⟩, fun s op hop => ?_,
    fun s i => ⟨?_, fun h u v hh hs hu hv => ?_, fun hw => ?_, fun h r u hh hs hr hu => ?_⟩⟩
  · exact (step_scheduled hs).trans (issue_word_ok _ hd)
  · exact (step_scheduled hs).trans (issue_word_bad _ hd)
  · exact perform_alone (continuation_eq_nil s hop)
  · rintro (hrecv | hstop)
    · exact perform_alone (afterRecv_eq_nil hrecv)
    · exact perform_stops hstop
  · exact perform_hRecv hh hs hu hv
  · exact perform_alone (afterAwait_eq_nil hw)
  · exact perform_hAwait hh hs hr hu

/-- Settles O6, by the sequencer state whose agent has the turn. -/
theorem turnRunsSelectedOperation : Obligations.TurnRunsSelectedOperation := by
  refine ⟨fun s rest hs => ?_, fun s i h rest hs hh => ?_⟩
  · rw [step_scheduled hs, issue_turn_worker]
    cases s.w.state <;> rfl
  · have hh' : ({ s with script := rest } : State).handlers[i]? = some h := hh
    rw [step_scheduled hs]
    cases hst : h.state with
    | closed => exact (issue_turn_handler hh' (congrArg (HState.select i) hst)).trans (perform_alone rfl)
    | recv => exact issue_turn_handler hh' (congrArg (HState.select i) hst)
    | await => exact issue_turn_handler hh' (congrArg (HState.select i) hst)
    | send => exact (issue_turn_handler hh' (congrArg (HState.select i) hst)).trans (perform_alone rfl)
    | decode => exact issue_turn_handler_waits hh' (congrArg (HState.select i) hst)

end Sys2Proof.Machine
end

section
/-! SUPPORT. The parts of the engine's invariant, each over the registers it speaks of: the handlers (43 R212), the
ports (10_state R44), the ownership of tasks (10_state R31 to R33), the worker (42 R179) and the read windows (10_state
R47); and what keeps each of them. -/

namespace Sys2Proof.Machine

/-! ## Frames of the moves -/

/-- The worker, the serial port with its pending bytes, and the parameters are the same in both states. -/
structure State.SameBus (s t : State) : Prop where
  w : t.w = s.w
  ser : t.ser = s.ser
  rxpend : t.rxpend = s.rxpend
  cfg : t.cfg = s.cfg

theorem HMove.sameBus {i : Nat} {k : HKind} {s t : State} (m : HMove i k s t) : s.SameBus t := by
  cases m <;> exact ⟨rfl, rfl, rfl, rfl⟩

theorem PMove.sameBus {i : Nat} {s t : State} (m : PMove i s t) : s.SameBus t := by
  cases m with
  | alone k _ _ m => exact m.sameBus
  | _ => exact ⟨rfl, rfl, rfl, rfl⟩

theorem HMove.lengths {i : Nat} {k : HKind} {s t : State} (m : HMove i k s t) :
    t.handlers.length = s.handlers.length ∧ t.ports.length = s.ports.length := by
  cases m <;> simp

theorem PMove.lengths {i : Nat} {s t : State} (m : PMove i s t) :
    t.handlers.length = s.handlers.length ∧ t.ports.length = s.ports.length := by
  cases m with
  | alone k _ _ m => exact m.lengths
  | _ => simp

theorem getElem?_set_cases {α : Type} {l : List α} {i j : Nat} {a b : α} (h : (l.set i a)[j]? = some b) :
    j = i ∧ b = a ∨ j ≠ i ∧ l[j]? = some b := by
  by_cases hij : j = i
  · subst hij
    have hj : j < l.length := by simpa using lt_of_getElem? h
    exact .inl ⟨rfl, by simpa [hj] using h.symm⟩
  · exact .inr ⟨hij, by rwa [List.getElem?_set_ne (Ne.symm hij)] at h⟩

/-! ## Ports -/

/-- Every read presented at a port has at most REQ_MAX bytes (10_state R44). -/
def PortsOk (ps : List ClientPort) : Prop :=
  ∀ (i : Nat) (p : ClientPort), ps[i]? = some p → ∀ b ∈ p.inbound, b.length ≤ reqMax

theorem PortsOk.set {ps : List ClientPort} (h : PortsOk ps) (i : Nat) {p : ClientPort}
    (hp : ∀ b ∈ p.inbound, b.length ≤ reqMax) : PortsOk (ps.set i p) := by
  intro j g hg
  obtain ⟨-, rfl⟩ | ⟨-, hj⟩ := getElem?_set_cases hg
  · exact hp
  · exact h j g hj

/-- Ending a connection clears its port. -/
theorem PortsOk.cleared {ps : List ClientPort} (h : PortsOk ps) (i : Nat) :
    PortsOk (ps.modify i fun p => { p with inbound := [], sendAns := [] }) := by
  cases hp : ps[i]? with
  | none => rwa [List.modify_eq_self (List.getElem?_eq_none_iff.mp hp)]
  | some p =>
    rw [modify_eq_set _ hp]
    exact h.set i nofun

/-- What is left of the reads at a port after the first one. -/
theorem PortsOk.rest {ps : List ClientPort} (h : PortsOk ps) {i : Nat} {p : ClientPort} {b : List Byte}
    {rest : List (List Byte)} (hp : ps[i]? = some p) (hb : p.inbound = b :: rest) :
    b.length ≤ reqMax ∧ ∀ c ∈ rest, c.length ≤ reqMax := by
  have := h i p hp
  rw [hb] at this
  simpa using this

theorem HMove.portsOk {i : Nat} {k : HKind} {s t : State} (m : HMove i k s t) (h : PortsOk s.ports) :
    PortsOk t.ports := by
  cases m with
  | opened _ p _ hp => exact h.set i (h i p hp)
  | rejected => exact h.set i nofun
  | accepted _ p b rest _ _ _ _ _ hp _ hb => exact h.set i (h.rest hp hb).2
  | fatal => exact h.cleared i
  | sent _ p _ _ hp => exact h.set i (h i p hp)
  | sendFailed => exact h.set i nofun
  | closed => exact h.cleared i
  | _ => exact h

theorem PMove.portsOk {i : Nat} {s t : State} (m : PMove i s t) (h : PortsOk s.ports) : PortsOk t.ports := by
  cases m with
  | alone k _ _ m => exact m.portsOk h
  | forwarded _ p b rest _ _ _ _ _ _ _ _ hp _ hb => exact h.set i (h.rest hp hb).2
  | _ => exact h

/-! ## Handlers -/

/-- The handler has a task out and no reply yet. -/
def Handler.Waiting (h : Handler) : Prop := h.state = .await ∧ h.rslot = none

theorem Handler.not_waiting_of_state {h : Handler} (hs : h.state ≠ .await) : ¬h.Waiting := fun hw => hs hw.1

theorem Handler.Ok.slot_empty {h : Handler} (hok : h.Ok) (hs : h.state ≠ .await) : h.rslot = none := by
  by_contra hr
  exact hs (hok.slot hr)

/-- A handler that neither awaits nor sends is `Ok` once its count fits its read and its slot is empty. -/
theorem Handler.ok_of_resting {h : Handler} (hn : h.n = h.req.length ∧ h.n ≤ reqMax) (hr : h.rslot = none)
    (hs : h.state = .closed ∨ h.state = .recv) : h.Ok where
  count := hn
  slot := absurd hr
  transient := by obtain hs | hs := hs <;> simp [hs]
  await := by obtain hs | hs := hs <;> simp [hs]
  reply := by simp [hr]
  send := by obtain hs | hs := hs <;> simp [hs]

/-- A handler that awaits a reply is `Ok` with an accepted header and its broadcast flag. -/
theorem Handler.ok_of_awaiting {h : Handler} (hn : h.n = h.req.length ∧ h.n ≤ reqMax) (hs : h.state = .await)
    (ha : h.Accepted) (hb : h.bc = isBroadcastUid h.uid)
    (hr : ∀ r, h.rslot = some r → ReplyShape r ∧ (h.bc = true → r = [])) : h.Ok where
  count := hn
  slot := fun _ => hs
  transient := by simp [hs]
  await := fun _ => ⟨ha, hb⟩
  reply := hr
  send := by simp [hs]

/-- A handler that has awaited the reply to a request that is no broadcast may send a response of 9 to 264 bytes. -/
theorem Handler.Ok.respond {h : Handler} {rsp : List Byte} (hok : h.Ok) (hs : h.state = .await) (hb : h.bc = false)
    (hlo : 9 ≤ rsp.length) (hhi : rsp.length ≤ 264) :
    Handler.Ok { h with rslot := none, rsp := rsp, state := .send } := by
  obtain ⟨hacc, hbc⟩ := hok.await hs
  exact ⟨hok.count, by simp, by simp, by simp, by simp, fun _ => ⟨hacc, hbc ▸ hb, hb, hlo, hhi⟩⟩

@[simp] theorem excFrame_length (tid pid : Half) (uid fc code : Byte) : (excFrame tid pid uid fc code).length = 9 := rfl

theorem rspOkFrame_length (tid pid : Half) (r : List Byte) : (rspOkFrame tid pid r).length = 6 + (r.length - 2) := by
  simp [rspOkFrame, bytesBe]
  omega

/-! ## Tasks -/

/-- The handlers and the tasks of the engine agree: every task is its submitter's, who waits for it, every waiting
handler has one, and no handler has two (10_state R31 to R33). -/
structure TasksOk (p : CrcParams) (hs : List Handler) (ts : List Task) : Prop where
  owned : ∀ x ∈ ts, ∃ h, hs[x.src]? = some h ∧ h.state = .await ∧ h.rslot = none ∧ h.Made p x.frame ∧
    x.isBroadcast = h.bc
  outstanding : ∀ i, (∃ h, hs[i]? = some h ∧ h.state = .await ∧ h.rslot = none) → i ∈ ts.map Task.src
  single : (ts.map Task.src).Nodup

section
variable {p : CrcParams} {hs : List Handler} {ts : List Task} {i : Nat} {h h' : Handler}

theorem TasksOk.src_ne (ok : TasksOk p hs ts) (hh : hs[i]? = some h) (hw : ¬h.Waiting) {x : Task} (hx : x ∈ ts) :
    x.src ≠ i := by
  rintro rfl
  obtain ⟨g, hg, hstate, hslot, -, -⟩ := ok.owned x hx
  cases hh.symm.trans hg
  exact hw ⟨hstate, hslot⟩

/-- A handler's registers are its own while it does not wait. -/
theorem TasksOk.set (ok : TasksOk p hs ts) (hh : hs[i]? = some h) (hw : ¬h.Waiting) (hw' : ¬h'.Waiting) :
    TasksOk p (hs.set i h') ts where
  owned x hx := by
    rw [List.getElem?_set_ne (ok.src_ne hh hw hx).symm]
    exact ok.owned x hx
  outstanding j hj := by
    obtain ⟨g, hg, hwait⟩ := hj
    obtain ⟨-, rfl⟩ | ⟨-, hg⟩ := getElem?_set_cases hg
    · exact absurd hwait hw'
    · exact ok.outstanding j ⟨g, hg, hwait⟩
  single := ok.single

/-- A handler that submits a task begins to wait for it. -/
theorem TasksOk.submit (ok : TasksOk p hs ts) (hh : hs[i]? = some h) (hw : ¬h.Waiting) (hw' : h'.Waiting) {x : Task}
    (hsrc : x.src = i) (hmade : h'.Made p x.frame) (hb : x.isBroadcast = h'.bc) :
    TasksOk p (hs.set i h') (ts ++ [x]) where
  owned y hy := by
    obtain hy | hy := List.mem_append.mp hy
    · rw [List.getElem?_set_ne (ok.src_ne hh hw hy).symm]
      exact ok.owned y hy
    · obtain rfl := List.mem_singleton.mp hy
      exact ⟨h', hsrc ▸ getElem?_set_of_some hh h', hw'.1, hw'.2, hmade, hb⟩
  outstanding j hj := by
    obtain ⟨g, hg, hwait⟩ := hj
    obtain ⟨rfl, -⟩ | ⟨-, hg⟩ := getElem?_set_cases hg
    · simp [hsrc]
    · simpa using .inl (List.mem_map.mp (ok.outstanding j ⟨g, hg, hwait⟩))
  single := by
    rw [List.map_append, List.nodup_append]
    refine ⟨ok.single, List.nodup_singleton _, ?_⟩
    intro a ha b hb
    obtain ⟨y, hy, rfl⟩ := List.mem_map.mp ha
    obtain rfl : b = x.src := by simpa using hb
    exact hsrc ▸ ok.src_ne hh hw hy

/-- A delivered task leaves, and its submitter has its reply. -/
theorem TasksOk.deliver {x : Task} (ok : TasksOk p hs (x :: ts)) (hr : h'.rslot ≠ none) :
    TasksOk p (hs.set x.src h') ts where
  owned y hy := by
    have hne : x.src ≠ y.src := fun he =>
      (List.nodup_cons.mp ok.single).1 (List.mem_map.mpr ⟨y, hy, he.symm⟩)
    rw [List.getElem?_set_ne hne]
    exact ok.owned y (List.mem_cons_of_mem x hy)
  outstanding j hj := by
    obtain ⟨g, hg, hwait⟩ := hj
    obtain ⟨-, rfl⟩ | ⟨hne, hg⟩ := getElem?_set_cases hg
    · exact absurd hwait.2 hr
    · exact (List.mem_cons.mp (ok.outstanding j ⟨g, hg, hwait⟩)).resolve_left hne
  single := (List.nodup_cons.mp ok.single).2

end

/-! ## The Bus Worker -/

/-- A worker that delivers is `Ok` once it holds a task, its timer stands, and its reply is empty or complete. -/
theorem Worker.ok_of_deliver {w : Worker} (hs : w.state = .deliver) (ht : w.task ≠ none)
    (hrun : w.timer.running = false)
    (hr : ∀ t, w.task = some t → ReplyShape w.reply ∧ (t.isBroadcast = true → w.reply = [])) : w.Ok :=
  ⟨by simp [hs, ht], by simp [hs, hrun], by simp [hs], by simp [hs], fun t h _ => hr t h⟩

/-- The empty reply ends any transaction. -/
theorem Worker.Ok.give_up {w : Worker} (hok : w.Ok) (hdr : List Byte) (tlen : BitVec 9)
    (hs : w.state ≠ .idle ∧ w.state ≠ .quiet) :
    Worker.Ok { w with hdr := hdr, tlen := tlen, reply := [], state := .deliver, timer := w.timer.stop } :=
  Worker.ok_of_deliver rfl (fun hn => (hok.held.mp hn).elim hs.1 hs.2) rfl fun _ _ => ⟨.inl rfl, fun _ => rfl⟩

/-- `W.tlen` is written before the second window reads it. -/
theorem Worker.Ok.inferred {w : Worker} (hok : w.Ok) (hs : w.state = .rdHdr) (tlen : BitVec 9) :
    Worker.Ok { w with tlen := tlen } :=
  ⟨hok.held, hok.timer, hok.hdr, by simp [hs], hok.reply⟩

theorem Worker.Ok.elapse {w : Worker} (hok : w.Ok) (ms : Nat) :
    Worker.Ok { w with timer := w.timer.elapse ms } :=
  ⟨hok.held, by simpa using hok.timer, hok.hdr, hok.trl, hok.reply⟩

/-! ## Read windows -/

theorem windowOpen_eq_false {s : State} (h : s.ser.readAns ≠ none) : s.windowOpen = false :=
  Bool.eq_false_iff.mpr fun ho => h ((windowOpen_iff s).mp ho).2

theorem windowOpen_eq_false_of_state {s : State} (h : s.w.state ≠ .rdHdr ∧ s.w.state ≠ .rdTrl) :
    s.windowOpen = false :=
  Bool.eq_false_iff.mpr fun ho => ((windowOpen_iff s).mp ho).1.elim h.1 h.2

theorem State.WindowOk.no_answer {s : State} (h : s.WindowOk) (hs : s.w.state ≠ .rdHdr ∧ s.w.state ≠ .rdTrl) :
    s.ser.readAns = none := by
  by_contra ha
  exact ((reading_iff s).mp (h.answered ha)).elim hs.1 hs.2

/-- Outside the reading states there is no answer, and no byte is pending that `RX_STALE = refuse` forbids. -/
theorem windowOk_of_not_reading {s : State} (hs : s.w.state ≠ .rdHdr ∧ s.w.state ≠ .rdTrl)
    (ha : s.ser.readAns = none) (hrx : s.cfg.rxStale = .refuse → s.rxpend = []) : s.WindowOk :=
  ⟨absurd ha, by simp [ha], by simp [windowOpen_eq_false_of_state hs], fun hc _ => hrx hc⟩

/-- A window that has just opened with its timer running is `Ok` once it has settled. -/
theorem windowOk_of_opening {s : State} (ha : s.ser.readAns = none) (ht : s.ser.tie = false)
    (hrun : s.w.timer.running = true) (hrx : s.cfg.rxStale = .refuse → s.rxpend = []) :
    s.settle.WindowOk :=
  settle_windowOk (absurd ha) (by simp [ha]) (fun _ => hrun) (by simp [ht]) (fun hc _ => hrx hc)
    fun hc _ => by simp [hrx hc]

/-- The windows look at no more than this of a state. -/
theorem State.WindowOk.congr {s t : State} (h : s.WindowOk) (hread : t.reading = s.reading) (hask : t.asked = s.asked)
    (hleft : t.w.timer.left = s.w.timer.left) (hser : t.ser = s.ser) (hrx : t.rxpend = s.rxpend)
    (hcfg : t.cfg = s.cfg) : t.WindowOk := by
  have hopen : t.windowOpen = s.windowOpen := by simp only [State.windowOpen, hread, hser]
  constructor
  · rw [hser, hread]; exact h.answered
  · rw [hser, hask]; exact h.bounded
  · rw [hopen, hrx, hask, hleft, hser]; exact h.opened
  · rw [hcfg, hopen, hrx]; exact h.stale

theorem State.WindowOk.of_sameBus {s t : State} (h : s.WindowOk) (hb : s.SameBus t) : t.WindowOk :=
  h.congr (by simp only [State.reading, hb.w]) (by simp only [State.asked, hb.w]) (by rw [hb.w]) hb.ser hb.rxpend hb.cfg

end Sys2Proof.Machine
end

section
/-! SUPPORT. Every step keeps the engine's invariant: what a handler's, the worker's and the environment's moves do to
its parts. -/

namespace Sys2Proof.Machine

/-! ## The invariant from its parts -/

theorem State.Inv.portsOk {s : State} (hi : s.Inv) : PortsOk s.ports := hi.ports

theorem State.Inv.tasksOk {s : State} (hi : s.Inv) : TasksOk s.cfg.crc s.handlers s.tasks :=
  ⟨hi.owned, hi.outstanding, hi.single⟩

theorem tasks_eq {s t : State} (hw : t.w.task = s.w.task) (hq : t.q = s.q) : t.tasks = s.tasks := by
  simp only [State.tasks, hw, hq]

/-- While a window is open its timer runs (10_state R48). -/
theorem State.Inv.timer_running {s : State} (hi : s.Inv) (ho : s.windowOpen = true) : s.w.timer.running = true :=
  hi.worker.timer.mpr (((windowOpen_iff s).mp ho).1.imp_right .inl)

section
variable {s t : State} (hi : s.Inv)
include hi

/-- What changes only the worker, the serial port and the tasks' places keeps the invariant if it keeps the worker's
and the windows' part. -/
theorem State.Inv.of_bus (hh : t.handlers = s.handlers) (hp : t.ports = s.ports) (hc : t.cfg = s.cfg)
    (hts : t.tasks = s.tasks) (hw : t.w.Ok) (hwin : t.WindowOk) : t.Inv := by
  obtain ⟨howned, hout, hsingle⟩ : TasksOk t.cfg.crc t.handlers t.tasks := by
    rw [hc, hh, hts]; exact hi.tasksOk
  exact ⟨by rw [hh, hp, hc]; exact hi.sizes, by rw [hh]; exact hi.handlers, by rw [hp]; exact hi.ports, hw, howned,
    hout, hsingle, hwin⟩

/-- What changes nothing but the codec, the schedule, the clock and the record keeps the invariant. -/
theorem State.Inv.of_same (hh : t.handlers = s.handlers) (hp : t.ports = s.ports) (hq : t.q = s.q)
    (hb : s.SameBus t) : t.Inv :=
  hi.of_bus hh hp hb.cfg (tasks_eq (congrArg Worker.task hb.w) hq) (by rw [hb.w]; exact hi.worker)
    (hi.window.of_sameBus hb)

/-- What rewrites one handler keeps the invariant if the handler is `Ok` afterwards, and with it the ports, the tasks,
the worker and the windows are. -/
theorem State.Inv.of_handler {i : Nat} {h' : Handler} (hc : t.cfg = s.cfg) (hlen : t.ports.length = s.ports.length)
    (hp : PortsOk t.ports) (hh : t.handlers = s.handlers.set i h') (hok : h'.Ok)
    (hts : TasksOk s.cfg.crc t.handlers t.tasks) (hw : t.w.Ok) (hwin : t.WindowOk) : t.Inv where
  sizes := by rw [hc, hlen, hh, List.length_set]; exact hi.sizes
  handlers j g hg := by
    rw [hh] at hg
    obtain ⟨-, rfl⟩ | ⟨-, hj⟩ := getElem?_set_cases hg
    · exact hok
    · exact hi.handlers j g hj
  ports := hp
  worker := hw
  owned := by rw [hc]; exact hts.owned
  outstanding := hts.outstanding
  single := hts.single
  window := hwin

/-- A handler's registers are its own while it does not wait for a reply. -/
theorem State.Inv.of_rewritten {i : Nat} {h h' : Handler} (hb : s.SameBus t) (hlen : t.ports.length = s.ports.length)
    (hp : PortsOk t.ports) (hh : t.handlers = s.handlers.set i h') (hq : t.q = s.q) (hg : s.handlers[i]? = some h)
    (hw : ¬h.Waiting) (hok : h'.Ok) (hw' : ¬h'.Waiting) : t.Inv :=
  hi.of_handler hb.cfg hlen hp hh hok
    (by rw [hh, tasks_eq (congrArg Worker.task hb.w) hq]; exact hi.tasksOk.set hg hw hw') (hb.w ▸ hi.worker)
    (hi.window.of_sameBus hb)

end

/-! ## The handlers -/

/-- An operation of a handler that leads to no `H_DECODE` keeps the invariant: it begins in none, and leaves the
handler resting. -/
theorem HMove.inv {i : Nat} {k : HKind} {s t : State} (m : HMove i k s t) (hk : k ≠ .decodes) (hi : s.Inv) :
    t.Inv := by
  have hb := m.sameBus
  have hlen := m.lengths.2
  have hp := m.portsOk hi.portsOk
  have not_decode {h : Handler} (hh : s.handlers[i]? = some h) (hs : h.state = .decode) : False :=
    (hi.handlers i h hh).transient hs
  have rests {h h' : Handler} (hg : s.handlers[i]? = some h) (hs : h.state ≠ .await)
      (hh : t.handlers = s.handlers.set i h') (hq : t.q = s.q) (hn : h'.n = h'.req.length ∧ h'.n ≤ reqMax)
      (hr : h'.rslot = h.rslot) (hs' : h'.state = .closed ∨ h'.state = .recv) : t.Inv :=
    hi.of_rewritten hb hlen hp hh hq hg (Handler.not_waiting_of_state hs)
      (Handler.ok_of_resting hn (hr.trans ((hi.handlers i h hg).slot_empty hs)) hs')
      (Handler.not_waiting_of_state (by obtain h | h := hs' <;> simp [h]))
  have count (h : Handler) (hg : s.handlers[i]? = some h) := (hi.handlers i h hg).count
  cases m with
  | wait => exact hi
  | opened h p hh _ hs => exact rests hh (by simp [hs]) rfl rfl (count h hh) rfl (.inr rfl)
  | rejected h p b rest e hh hport hs hb' =>
    exact rests hh (by simp [hs]) rfl rfl ⟨rfl, (hi.portsOk.rest hport hb').1⟩ rfl (.inl rfl)
  | accepted _ _ _ _ _ _ _ _ _ _ _ _ _ _ hdec => exact absurd hdec hk
  | parsed h _ _ _ _ _ _ hh hs => exact rests hh (by simp [hs]) rfl rfl (count h hh) rfl (.inr hs)
  | flagged => exact hi.of_same rfl rfl rfl hb
  | fatal h _ _ hh hs => exact rests hh (by simp [hs]) rfl rfl (count h hh) rfl (.inl rfl)
  | classified _ _ hh hs => exact (not_decode hh hs).elim
  | encoded _ _ _ _ hh hs => exact (not_decode hh hs).elim
  | submitted _ _ hh hs => exact (not_decode hh hs).elim
  | answered _ _ _ _ _ hdec => exact absurd hdec hk
  | broadcastDone _ hh hs => exact (not_decode hh hs).elim
  | succeeded _ _ _ hh hs => exact (not_decode hh hs).elim
  | excepted _ _ _ hh hs => exact (not_decode hh hs).elim
  | built _ _ hh hs => exact (not_decode hh hs).elim
  | sent h _ _ hh _ hs => exact rests hh (by simp [hs]) rfl rfl (count h hh) rfl (.inr rfl)
  | sendFailed h _ _ hh _ hs => exact rests hh (by simp [hs]) rfl rfl (count h hh) rfl (.inl rfl)
  | closed h hh hs => exact rests hh (by obtain hs | hs := hs <;> simp [hs]) rfl rfl (count h hh) rfl (.inl rfl)

theorem rtuPayload_eq_some {b payload : List Byte} {len : Half} (h : rtuPayload b len = some payload) :
    6 + len.toNat ≤ b.length ∧ payload = (b.drop 6).take len.toNat := by
  unfold rtuPayload memRead at h
  split at h
  · exact ⟨‹_›, (Option.some.inj h).symm⟩
  · cases h

theorem rtuPayload_length {b payload : List Byte} {len : Half} (h : rtuPayload b len = some payload) :
    payload.length = len.toNat := by
  obtain ⟨hle, rfl⟩ := rtuPayload_eq_some h
  rw [List.length_take, List.length_drop]
  omega

/-- The frame begins with the request's bytes from the unit id on (30_encoding R83, R90). -/
theorem rtuFrame_getElem? {p : CrcParams} {b payload : List Byte} {len : Half} (h : rtuPayload b len = some payload)
    {k : Nat} (hk : k < len.toNat) : (rtuFrame p payload)[k]? = b[6 + k]? := by
  have hlen := rtuPayload_length h
  obtain ⟨-, rfl⟩ := rtuPayload_eq_some h
  rw [rtuFrame, List.getElem?_append_left (by omega), List.getElem?_take_of_lt hk, List.getElem?_drop]

/-- What RTUENC makes of an accepted request is a frame with the request's unit id and function code (43 R203). -/
theorem rtuFrame_made {p : CrcParams} {b payload : List Byte} {tid pid len : Half} {uid fc : Byte} {h : Handler}
    (hparse : hdrParse b = .fields tid pid len uid) (hfc : b[7]? = some fc) (hpl : rtuPayload b len = some payload)
    (hu : h.uid = uid) (hf : h.fc = fc) (hbc : h.bc = isBroadcastUid uid) : h.Made p (rtuFrame p payload) := by
  obtain ⟨-, hlo, hhi, hb6⟩ := hdrParse_accepts hparse
  have hlen := rtuPayload_length hpl
  unfold lenMin at hlo
  refine ⟨⟨payload, rfl, by unfold lenMin; omega, by omega⟩, ?_, ?_, hu ▸ hbc⟩
  · rw [rtuFrame_getElem? hpl (by omega), hu, hb6]
  · rw [rtuFrame_getElem? hpl (by omega), hf, hfc]

/-- A handler's step keeps the invariant. -/
theorem PMove.inv {i : Nat} {s t : State} (m : PMove i s t) (hi : s.Inv) : t.Inv := by
  have hb := m.sameBus
  have hlen := m.lengths.2
  have hp := m.portsOk hi.portsOk
  have taken {h : Handler} {r : List Byte} (hr : h.rslot = some r) : ¬h.Waiting := fun hw => by simp [hw.2] at hr
  have reply_le {h : Handler} {r : List Byte} (hh : s.handlers[i]? = some h) (hr : h.rslot = some r) :
      r.length ≤ replyMax := by
    obtain rfl | hle := ((hi.handlers i h hh).reply r hr).1
    · simp
    · exact hle.2
  cases m with
  | alone k t hk m => exact m.inv hk hi
  | forwarded h p b rest tid pid len uid fc payload c hh hport hs hb' hparse hlen' hfc hpl =>
    obtain ⟨hpid, hlo, hhi, -⟩ := hdrParse_accepts hparse
    have hslot := (hi.handlers i h hh).slot_empty (by simp [hs])
    have hts := hi.tasksOk.submit hh (Handler.not_waiting_of_state (by simp [hs]))
      (x := { frame := rtuFrame s.cfg.crc payload, src := i, isBroadcast := isBroadcastUid uid })
      (h' := { h with
        req := b, n := b.length, tid := tid, pid := pid, len := len, uid := uid, fc := fc,
        bc := isBroadcastUid uid, state := .await })
      ⟨rfl, hslot⟩ rfl (rtuFrame_made hparse hfc hpl rfl rfl rfl) rfl
    refine hi.of_handler rfl hlen hp rfl (Handler.ok_of_awaiting ⟨rfl, (hi.portsOk.rest hport hb').1⟩ rfl
      ⟨hpid, hlo, hhi⟩ rfl (by simp [hslot])) ?_ hi.worker (hi.window.of_sameBus hb)
    simpa only [State.tasks, List.append_assoc] using hts
  | broadcastDone h r hh hs hr hbc =>
    exact hi.of_rewritten hb hlen hp rfl rfl hh (taken hr)
      (Handler.ok_of_resting (hi.handlers i h hh).count rfl (.inr rfl)) (Handler.not_waiting_of_state (by simp))
  | succeeded h r c hh hs hr hbc h5 hv =>
    have hle := reply_le hh hr
    refine hi.of_rewritten hb hlen hp rfl rfl hh (taken hr) ((hi.handlers i h hh).respond hs hbc ?_ ?_)
      (Handler.not_waiting_of_state (by simp))
    · rw [rspOkFrame_length]; omega
    · unfold replyMax at hle
      rw [rspOkFrame_length]; omega
  | excepted h r e c hh hs hr hbc =>
    exact hi.of_rewritten hb hlen hp rfl rfl hh (taken hr) ((hi.handlers i h hh).respond hs hbc (by simp) (by simp))
      (Handler.not_waiting_of_state (by simp))

/-! ## The Bus Worker -/

/-- `W.tlen` and the three header bytes make a reply of 5 to REPLY_MAX bytes (10_state R34, 42 R175). -/
theorem replyShape_of_trailer {hdr b : List Byte} {fc rfc third : Byte} (hhdr : hdr.length = 3)
    (hlen : b.length = (rlen fc rfc third).toNat) (h0 : rlen fc rfc third ≠ 0) : ReplyShape (hdr ++ b) := by
  obtain ⟨hlo, hhi⟩ := (rlen_bounds fc rfc third).resolve_left h0
  exact .inr (by rw [List.length_append, replyMax]; omega)

theorem taskFc_eq_some {s : State} {fc : Byte} (h : s.taskFc = some fc) :
    ∃ x, s.w.task = some x ∧ x.frame[1]? = some fc := by
  unfold State.taskFc at h
  split at h
  · exact ⟨_, ‹_›, h⟩
  · cases h

/-- The worker's task is the first of the engine's. -/
theorem tasks_of_held {s : State} {x : Task} (h : s.w.task = some x) : s.tasks = x :: s.q := by
  simp [State.tasks, h]

theorem tasks_of_none {s : State} (h : s.w.task = none) : s.tasks = s.q := by simp [State.tasks, h]

/-- The worker's step keeps the invariant. -/
theorem WMove.inv {s t : State} (m : WMove s t) (hi : s.Inv) : t.Inv := by
  have hw := hi.worker
  have hwin := hi.window
  have no_stale (hc : s.cfg.rxStale = .refuse) (hopen : s.windowOpen = false) {rx : List Byte}
      (hrx : rx = [] ∨ rx = s.rxpend) : rx = [] := hrx.elim id fun h => h.trans (hwin.stale hc hopen)
  cases m with
  | wait => exact hi
  | fetched x ts hs hq =>
    have ht : s.w.task = none := hw.held.mpr (.inl hs)
    have hrun : s.w.timer.running ≠ true := fun h => by simpa [hs] using hw.timer.mp h
    refine hi.of_bus rfl rfl rfl ?_ ⟨by simp, by simpa using hrun, by simp, by simp, by simp⟩
      (windowOk_of_not_reading (by simp) (hwin.no_answer (by simp [hs])) fun hc =>
        hwin.stale hc (windowOpen_eq_false_of_state (by simp [hs])))
    rw [tasks_of_none ht, hq]
    rfl
  | writeDone x r rs rx new hs ht ha hnew hrx =>
    exact hi.of_bus rfl rfl rfl rfl (hw.give_up s.w.hdr s.w.tlen (by simp [hs]))
      (windowOk_of_not_reading (by simp) (hwin.no_answer (by simp [hs])) fun hc =>
        no_stale hc (windowOpen_eq_false_of_state (by simp [hs])) hrx)
  | writeAwaits x rs rx hs ht ha hb hts hrx =>
    refine hi.of_bus (by simp) (by simp) (by simp) (tasks_eq (by simp) (by simp)) ?_
      (windowOk_of_opening rfl rfl rfl fun hc => no_stale hc (windowOpen_eq_false_of_state (by simp [hs])) hrx)
    rw [settle_w]
    exact ⟨by simp [ht], by simp, by simp [ht, hb], by simp, by simp⟩
  | inferred tlen hs =>
    exact hi.of_bus rfl rfl rfl rfl (hw.inferred hs tlen)
      (hwin.congr rfl (by simp only [State.asked, hs]) rfl rfl rfl rfl)
  | noReply hdr tlen new hs hr hnew =>
    exact hi.of_bus rfl rfl rfl rfl (hw.give_up hdr tlen (by obtain hs | hs := hs <;> simp [hs]))
      (windowOk_of_not_reading (by simp) rfl fun hc => hwin.stale hc (windowOpen_eq_false hr))
  | header b0 b1 b2 fc hs hfc hr hts hl =>
    obtain ⟨x, ht, hfc⟩ := taskFc_eq_some hfc
    refine hi.of_bus (by simp) (by simp) (by simp) (tasks_eq (by simp) (by simp)) ?_
      (windowOk_of_opening rfl rfl rfl fun hc => hwin.stale hc (windowOpen_eq_false (by simp [hr])))
    rw [settle_w]
    exact ⟨by simp [ht], by simp, by simp, fun y hy _ => ⟨hw.hdr y hy hs, hl, b0, b1, b2, fc, rfl,
      by cases ht.symm.trans hy; exact hfc, rfl⟩, by simp⟩
  | trailer b hs hr hlen =>
    obtain ⟨hle, -⟩ := hwin.bounded b hr
    have hasked : s.asked = s.w.tlen.toNat := by simp only [State.asked, hs]
    refine hi.of_bus rfl rfl rfl rfl (Worker.ok_of_deliver rfl (by simp [hw.held, hs]) rfl fun x hx => ?_)
      (windowOk_of_not_reading (by simp) rfl fun hc => hwin.stale hc (windowOpen_eq_false (by simp [hr])))
    obtain ⟨hnb, h0, b0, b1, b2, fc, hhdr, -, htlen⟩ := hw.trl x hx hs
    rw [htlen] at h0 hlen hasked
    exact ⟨replyShape_of_trailer (by simp [hhdr]) (by omega) h0, by simp [hnb]⟩
  | delivered x hs ht =>
    have hts := hi.tasksOk
    rw [tasks_of_held ht] at hts
    obtain ⟨h, hh, hstate, hslot, hmade, hbc⟩ := hts.owned x List.mem_cons_self
    obtain ⟨hacc, huid⟩ := (hi.handlers _ h hh).await hstate
    obtain ⟨hshape, hempty⟩ := hw.reply x ht hs
    refine hi.of_handler rfl rfl hi.ports (modify_eq_set _ hh)
      (Handler.ok_of_awaiting (hi.handlers _ h hh).count hstate hacc huid ?_) ?_
      ⟨by simp, by simp, by simp, by simp, by simp⟩
      (windowOk_of_not_reading (by simp) (hwin.no_answer (by simp [hs])) fun hc =>
        hwin.stale hc (windowOpen_eq_false_of_state (by simp [hs])))
    · rintro r ⟨⟩
      exact ⟨hshape, fun hb => hempty (hbc.trans hb)⟩
    · rw [tasks_of_none rfl, modify_eq_set _ hh]
      exact hts.deliver (by simp)
  | quietOver hs hr hl =>
    exact hi.of_bus rfl rfl rfl rfl ⟨by simp [hw.held, hs], by simp, by simp, by simp, by simp⟩
      (windowOk_of_not_reading (by simp) (hwin.no_answer (by simp [hs])) fun hc =>
        hwin.stale hc (windowOpen_eq_false_of_state (by simp [hs])))

/-! ## The environment and reset -/

/-- A byte that comes now ties with the end of a window only if the tie stood, or if the open window ends just now. -/
theorem tieAfter_cases {ms : Nat} {s : State} (h : s.tieAfter ms = true) :
    s.ser.tie = true ∨ s.windowOpen = true ∧ s.w.timer.left.toNat = ms := by
  unfold State.tieAfter at h
  split at h
  · exact .inl h
  · simp only [Bool.and_eq_true, beq_iff_eq] at h
    exact .inr ⟨h.1.1, h.2⟩

/-- An event of the environment keeps the invariant. -/
theorem EMove.inv {s t : State} (m : EMove s t) (hi : s.Inv) : t.Inv := by
  have hwin := hi.window
  cases m with
  | port i p p' hp hin =>
    refine ⟨by simpa using hi.sizes, hi.handlers, hi.portsOk.set i ?_, hi.worker, hi.owned, hi.outstanding, hi.single,
      hwin.of_sameBus ⟨rfl, rfl, rfl, rfl⟩⟩
    have hbound := hi.ports i p hp
    obtain hin | ⟨b, hb, hin⟩ := hin <;> rw [hin]
    · exact hbound
    · simpa [or_imp, forall_and, hb] using hbound
  | writeAns r =>
    exact hi.of_bus rfl rfl rfl rfl hi.worker ⟨hwin.answered, hwin.bounded, hwin.opened, hwin.stale⟩
  | arrived b ha =>
    refine hi.of_bus (by simp) (by simp) (by simp) (tasks_eq (by simp) (by simp)) (by simpa using hi.worker)
      (settle_windowOk hwin.answered (fun r hr => ⟨(hwin.bounded r hr).1, nofun⟩) hi.timer_running (fun _ => nofun) ?_
        ?_)
    · exact fun hc ho => (ha.elim (Bool.eq_false_iff.mp ho) (absurd hc)).elim
    · intro _ ho
      obtain ⟨hlt, -⟩ := hwin.opened ho
      exact List.length_append.trans_le hlt
  | tooLate b hw ht =>
    exact hi.of_bus rfl rfl rfl rfl hi.worker ⟨hwin.answered, fun r hr => ⟨(hwin.bounded r hr).1, nofun⟩,
      fun ho => absurd ho (Bool.eq_false_iff.mp hw), hwin.stale⟩
  | inTime b bs ht hr =>
    have hclosed : s.windowOpen = false := windowOpen_eq_false (by simp [hr])
    refine hi.of_bus rfl rfl rfl rfl hi.worker ⟨fun _ => hwin.answered (by simp [hr]), ?_, ?_,
      fun hc _ => hwin.stale hc hclosed⟩
    · rintro r ⟨⟩
      exact ⟨List.length_append.trans_le ((hwin.bounded bs hr).2 ht), nofun⟩
    · exact fun ho => absurd ((windowOpen_iff _).mp ho).2 nofun
  | rxFail =>
    refine hi.of_bus (by simp) (by simp) (by simp) (tasks_eq (by simp) (by simp)) (by simpa using hi.worker)
      (settle_windowOk hwin.answered hwin.bounded hi.timer_running ?_ hwin.stale fun _ ho => (hwin.opened ho).1.le)
    intro ho ht
    obtain ⟨-, -, -, hnt⟩ := hwin.opened ho
    exact absurd ht (Bool.eq_false_iff.mp hnt)
  | elapsed ms =>
    refine hi.of_bus (by simp) (by simp) (by simp) (tasks_eq (by simp) (by simp)) (by simpa using hi.worker.elapse ms)
      (settle_windowOk hwin.answered (fun r hr => ⟨(hwin.bounded r hr).1, fun ht => ?_⟩)
        (fun ho => (Timer.elapse_running ms s.w.timer).trans (hi.timer_running ho)) (fun ho ht => ?_) hwin.stale
        fun _ ho => (hwin.opened ho).1.le)
    · obtain ht | ⟨ho, -⟩ := tieAfter_cases ht
      · exact (hwin.bounded r hr).2 ht
      · exact absurd ((windowOpen_iff s).mp ho).2 (by simp [show s.ser.readAns = _ from hr])
    · obtain ⟨hlt, -, hfail, hnt⟩ := hwin.opened ho
      obtain ht | ⟨-, hms⟩ := tieAfter_cases ht
      · exact absurd ht (Bool.eq_false_iff.mp hnt)
      · refine ⟨BitVec.eq_of_toNat_eq ?_, hlt, hfail⟩
        rw [Timer.elapse_left, if_pos (hi.timer_running ho), hms, Nat.sub_self]
        rfl

/-- The state after reset meets the invariant. -/
theorem start_inv (c : Config) : (State.start c).Inv where
  sizes := by simp [State.start]
  handlers i h hh := by
    obtain rfl := List.eq_of_mem_replicate (List.mem_of_getElem? hh)
    exact Handler.ok_of_resting (by simp [Handler.reset]) rfl (.inl rfl)
  ports i p hp := by
    obtain rfl := List.eq_of_mem_replicate (List.mem_of_getElem? hp)
    exact nofun
  worker := ⟨by simp [State.start, Worker.reset], by simp [State.start, Worker.reset], nofun, nofun, nofun⟩
  owned := nofun
  outstanding i hw := by
    obtain ⟨h, hh, hs, -⟩ := hw
    obtain rfl := List.eq_of_mem_replicate (List.mem_of_getElem? hh)
    cases hs
  single := List.nodup_nil
  window := windowOk_of_not_reading (by simp [State.start, Worker.reset]) rfl fun _ => rfl

theorem resetEngine_inv (ms sent : Nat) (s : State) : (resetEngine ms sent s).Inv :=
  (start_inv s.cfg).of_same rfl rfl rfl ⟨rfl, rfl, rfl, rfl⟩

/-! ## Any step -/

theorem CMove.inv {s t : State} (m : CMove s t) (hi : s.Inv) : t.Inv := by
  cases m <;> exact hi.of_same rfl rfl rfl ⟨rfl, rfl, rfl, rfl⟩

theorem IMove.inv {it : Item} {s t : State} (m : IMove it s t) (hi : s.Inv) : t.Inv := by
  cases m with
  | handler i _ m => exact m.inv hi
  | worker _ m => exact m.inv hi
  | codec _ m => exact m.inv hi
  | env _ m => exact m.inv hi
  | reset ms sent => exact resetEngine_inv ms sent s

/-- Settles O9, from what each kind of move does to the parts of the invariant. -/
theorem stepKeepsInvariant : Obligations.StepKeepsInvariant := by
  intro s t hi e
  obtain rfl | ⟨it, rest, -, m⟩ := step_moves e
  · exact hi
  · exact m.inv (hi.of_same rfl rfl rfl ⟨rfl, rfl, rfl, rfl⟩)

end Sys2Proof.Machine
end

section
/-! SUPPORT. What the moves leave alone and how the queue changes: the parameters and the history (10_state R40, log
17), first in first out (10_state R30), occupancy (R31), and the isolation of handlers and worker (R21). -/

namespace Sys2Proof.Machine

/-! ## Parameters and history -/

/-- From `s` to `t` the parameters stay, and neither what has crossed the ports nor time is taken back. -/
structure State.Continues (s t : State) : Prop where
  cfg : t.cfg = s.cfg
  trace : s.trace <+: t.trace
  now : s.now ≤ t.now

theorem HMove.continues {i : Nat} {k : HKind} {s t : State} (m : HMove i k s t) : s.Continues t := by
  cases m <;> exact ⟨rfl, by simp, le_rfl⟩

theorem PMove.continues {i : Nat} {s t : State} (m : PMove i s t) : s.Continues t := by
  cases m with
  | alone k _ _ m => exact m.continues
  | _ => exact ⟨rfl, by simp, le_rfl⟩

theorem WMove.continues {s t : State} (m : WMove s t) : s.Continues t := by
  cases m <;> constructor <;> simp

theorem CMove.continues {s t : State} (m : CMove s t) : s.Continues t := by
  cases m <;> exact ⟨rfl, by simp, le_rfl⟩

theorem EMove.continues {s t : State} (m : EMove s t) : s.Continues t := by
  cases m <;> constructor <;> simp

theorem resetEngine_continues (ms sent : Nat) (s : State) : s.Continues (resetEngine ms sent s) := by
  refine ⟨rfl, ?_, Nat.le_add_right s.now ms⟩
  show s.trace <+: (s.cutWrite sent).trace
  obtain h | ⟨x, -, -, h⟩ := cutWrite_cases sent s <;> simp [h]

theorem IMove.continues {it : Item} {s t : State} (m : IMove it s t) : s.Continues t := by
  cases m with
  | handler i _ m => exact m.continues
  | worker _ m => exact m.continues
  | codec _ m => exact m.continues
  | env _ m => exact m.continues
  | reset ms sent => exact resetEngine_continues ms sent s

theorem step_continues {s t : State} (e : step s = .next t) : s.Continues t := by
  obtain rfl | ⟨it, rest, -, m⟩ := step_moves e
  · exact ⟨rfl, by simp, le_rfl⟩
  · obtain ⟨hcfg, htrace, hnow⟩ := m.continues
    exact ⟨hcfg, htrace, hnow⟩

/-- Settles O14: a state is its engine, its surroundings and the parameters, which no move writes. -/
theorem configurationAndHistoryStay : Obligations.ConfigurationAndHistoryStay := by
  intro s t e
  obtain ⟨hcfg, htrace, hnow⟩ := step_continues e
  have ht : t = { t with cfg := s.cfg } := by rw [← hcfg]
  exact ⟨hcfg, e.trans (congrArg Host.Outcome.next ht), htrace, hnow⟩

/-! ## The queue -/

/-- Only SUBMIT reaches the queue, and appends the handler's task. -/
theorem HMove.queue {i : Nat} {k : HKind} {s t : State} (m : HMove i k s t) :
    t.q = s.q ∨ k = .submits ∧ ∃ x : Task, x.src = i ∧ t.q = s.q ++ [x] := by
  cases m with
  | submitted _ _ _ _ _ hk => exact .inr ⟨hk, _, rfl, rfl⟩
  | _ => exact .inl rfl

theorem PMove.queue {i : Nat} {s t : State} (m : PMove i s t) : t.q = s.q ∨ ∃ x : Task, t.q = s.q ++ [x] := by
  cases m with
  | alone k _ _ m => exact m.queue.imp_right fun ⟨_, x, _, hq⟩ => ⟨x, hq⟩
  | forwarded => exact .inr ⟨_, rfl⟩
  | _ => exact .inl rfl

/-- Only BW.FETCH takes from the queue. -/
theorem WMove.queue {s t : State} (m : WMove s t) : t.q = s.q ∨ ∃ x, s.q = x :: t.q ∧ t.w.task = some x := by
  cases m with
  | fetched x ts _ hq => exact .inr ⟨x, hq, rfl⟩
  | writeAwaits => exact .inl (settle_q _)
  | header => exact .inl (settle_q _)
  | _ => exact .inl rfl

theorem EMove.queue {s t : State} (m : EMove s t) : t.q = s.q := by
  cases m <;> simp

theorem CMove.queue {s t : State} (m : CMove s t) : t.q = s.q := by
  cases m <;> rfl

/-- Settles O15, by whose move the step is. -/
theorem queueIsFirstInFirstOut : Obligations.QueueIsFirstInFirstOut := by
  intro s t e
  obtain rfl | ⟨it, rest, hs, m⟩ := step_moves e
  · exact .inl rfl
  · cases m with
    | handler i _ m => exact m.queue.imp_right fun ⟨x, hq⟩ => .inl ⟨x, hq, congrArg Worker.task m.sameBus.w⟩
    | worker _ m => exact m.queue.imp_right fun h => .inr (.inl h)
    | codec _ m => exact .inl m.queue
    | env _ m => exact .inl m.queue
    | reset ms sent hit => exact .inr (.inr (.inr ⟨ms, sent, rest, hit ▸ hs⟩))

/-! ## Occupancy -/

theorem tasks_length (s : State) : s.tasks.length = s.q.length + (if s.w.task = none then 0 else 1) := by
  unfold State.tasks
  cases s.w.task <;> simp

/-- Tasks of different handlers are no more than the handlers (10_state R31). -/
theorem TasksOk.length_le {p : CrcParams} {hs : List Handler} {ts : List Task} (ok : TasksOk p hs ts) :
    ts.length ≤ hs.length := by
  have hsub : ts.map Task.src ⊆ List.range hs.length := by
    intro i hi
    obtain ⟨x, hx, rfl⟩ := List.mem_map.mp hi
    obtain ⟨h, hh, -⟩ := ok.owned x hx
    exact List.mem_range.mpr (lt_of_getElem? hh)
  simpa using (List.subperm_of_subset ok.single hsub).length_le

theorem TasksOk.filter_src_length_le {p : CrcParams} {hs : List Handler} {ts : List Task} (ok : TasksOk p hs ts)
    (i : Nat) : (ts.filter fun x => x.src == i).length ≤ 1 := by
  have hcount := List.nodup_iff_count_le_one.mp ok.single i
  rwa [List.count, List.countP_map, List.countP_eq_length_filter] at hcount

/-- Settles O16, from the ownership of tasks. -/
theorem occupancyBound : Obligations.OccupancyBound := by
  intro s hi
  refine ⟨?_, hi.tasksOk.filter_src_length_le⟩
  rw [← tasks_length, ← hi.sizes.1]
  exact hi.tasksOk.length_le

/-! ## Isolation -/

theorem HMove.others {i j : Nat} {k : HKind} {s t : State} (m : HMove i k s t) (hj : j ≠ i) :
    t.handlers[j]? = s.handlers[j]? ∧ t.ports[j]? = s.ports[j]? := by
  cases m <;> simp [hj.symm]

theorem HMove.now {i : Nat} {k : HKind} {s t : State} (m : HMove i k s t) : t.now = s.now := by
  cases m <;> rfl

/-- Settles O17: each of a handler's operations makes a move of that handler, and only SUBMIT's reaches the queue. -/
theorem handlerOperationsAreIsolated : Obligations.HandlerOperationsAreIsolated := by
  intro i op s t hop e
  have hmove : ∃ k, HMove i k s t ∧ (k = .submits → op = .submit i) := by
    obtain rfl | rfl | rfl | rfl | rfl | ⟨r, rfl⟩ | ⟨r, rfl⟩ | rfl | ⟨b, rfl⟩ | ⟨b, rfl⟩ |
      ⟨tid, pid, uid, fc, ec, rfl⟩ | ⟨u, rfl⟩ | ⟨u, rfl⟩ | rfl | ⟨p, rfl⟩ := hop
    · exact ⟨_, execHOpen_moves e, nofun⟩
    · exact ⟨_, execHRecv_moves e, nofun⟩
    · exact ⟨_, execRtuEnc_moves e, nofun⟩
    · exact ⟨_, execSubmit_moves e, fun _ => rfl⟩
    · exact ⟨_, execHAwait_moves e, nofun⟩
    · exact ⟨_, execRtuDec_moves e, nofun⟩
    · exact ⟨_, execRspOk_moves e, nofun⟩
    · exact ⟨_, execHSend_moves e, nofun⟩
    · exact ⟨_, execHClose_moves e, nofun⟩
    · exact ⟨_, execHdrParse_moves e, nofun⟩
    · exact ⟨_, execExcBuild_moves e, nofun⟩
    · exact ⟨_, classified_moves e, nofun⟩
    · exact ⟨_, classified_moves e, nofun⟩
    · exact ⟨_, execPidModbus_moves e, nofun⟩
    · exact ⟨_, execPidOther_moves (pid := p) e, nofun⟩
  obtain ⟨k, m, hk⟩ := hmove
  obtain ⟨hw, hser, hrx, hcfg⟩ := m.sameBus
  exact ⟨fun j hj => (m.others hj).1, fun j hj => (m.others hj).2, m.lengths.1, m.lengths.2, hw, hser, hrx, hcfg, m.now,
    m.queue.imp_right fun ⟨hsub, hx⟩ => ⟨hk hsub, hx⟩⟩

/-- What a worker's move leaves as it is. -/
structure State.SameClients (s t : State) : Prop where
  ports : t.ports = s.ports
  codec : t.codec = s.codec
  cfg : t.cfg = s.cfg
  now : t.now = s.now
  script : t.script = s.script

theorem WMove.sameClients {s t : State} (m : WMove s t) : s.SameClients t := by
  cases m <;> constructor <;> simp

/-- Of the handlers the worker writes one slot, and only when it delivers. -/
theorem WMove.handlers {s t : State} (m : WMove s t) :
    t.handlers = s.handlers ∨ s.w.state = .deliver ∧ ∃ x, s.w.task = some x ∧
      t.handlers = s.handlers.modify x.src fun h => { h with rslot := some s.w.reply } := by
  cases m with
  | delivered x hs ht => exact .inr ⟨hs, x, ht, rfl⟩
  | writeAwaits => exact .inl (settle_handlers _)
  | header => exact .inl (settle_handlers _)
  | _ => exact .inl rfl

/-- The worker takes no step in a state that does not select the operation (42 R171 to R177). -/
theorem exec_select_waits {s : State} {st : WState} (hs : s.w.state ≠ st) : exec st.select s = .next s := by
  cases st with
  | idle => exact if_neg hs
  | write => exact if_neg hs
  | rdHdr => exact if_neg hs
  | rdTrl => exact if_neg hs
  | deliver => exact if_neg hs
  | quiet => exact if_neg fun h => hs h.1

theorem exec_select_moves {s t : State} {st : WState} (e : exec st.select s = .next t) : WMove s t := by
  cases st with
  | idle => exact execBwFetch_moves e
  | write => exact execBwWrite_moves e
  | rdHdr => exact execBwRdHdr_moves e
  | rdTrl => exact execBwRdTrl_moves e
  | deliver => exact execBwDeliver_moves e
  | quiet => exact execBwQuiet_moves e

/-- Settles O18: each of the worker's operations is the one a state of it selects, and waits in every other state. -/
theorem workerOperationsAreIsolated : Obligations.WorkerOperationsAreIsolated := by
  intro op s t hop e
  obtain ⟨st, rfl⟩ : ∃ st : WState, op = st.select := by
    obtain rfl | rfl | rfl | rfl | rfl | rfl := hop
    exacts [⟨.idle, rfl⟩, ⟨.write, rfl⟩, ⟨.rdHdr, rfl⟩, ⟨.rdTrl, rfl⟩, ⟨.deliver, rfl⟩, ⟨.quiet, rfl⟩]
  have m := exec_select_moves e
  obtain ⟨hports, hcodec, hcfg, hnow, hscript⟩ := m.sameClients
  refine ⟨hports, hcodec, hcfg, hnow, hscript, fun hne => ?_, ?_, fun i h h' hh hh' => ?_⟩
  · obtain heq | ⟨hs, -⟩ := m.handlers
    · exact heq
    · have hst : s.w.state ≠ st := fun h => hne (by rw [← h, hs]; rfl)
      cases (exec_select_waits hst).symm.trans e
      rfl
  · obtain heq | ⟨-, x, -, heq⟩ := m.handlers <;> simp [heq]
  · obtain heq | ⟨-, x, ht, heq⟩ := m.handlers
    · rw [heq] at hh'
      exact .inl (Option.some.inj (hh'.symm.trans hh))
    · rw [heq, List.getElem?_modify, hh, Option.map_eq_map, Option.map_some, Option.some.injEq] at hh'
      split at hh'
      · exact .inr ⟨hh'.symm, x, ht, ‹_›⟩
      · exact .inl hh'.symm

end Sys2Proof.Machine
end

section
/-! SUPPORT. What an operation, an environment event and a reset are on the arguments the statements use them with: the
state after reset, operations that wait, inputs at their ports, time, and the pass from a read to the queue. -/

namespace Sys2Proof.Machine

/-! ## Reset and words -/

/-- The state after reset keeps the quiet period: nothing has crossed a port. -/
theorem start_quiet (c : Config) : (State.start c).Quiet where
  past := nofun
  spaced := List.Pairwise.nil
  ready _ := nofun
  counting := nofun

/-- Settles O7, by the fields of the start state. -/
theorem resetLeavesNothingInFlight : Obligations.ResetLeavesNothingInFlight := by
  intro c
  refine ⟨rfl, rfl, rfl, rfl, rfl, rfl, List.length_replicate, fun h hh => ?_⟩
  obtain rfl := List.eq_of_mem_replicate hh
  exact ⟨rfl, rfl⟩

/-- Settles O8. -/
theorem resetMeetsInvariants : Obligations.ResetMeetsInvariants := fun c => ⟨start_inv c, start_quiet c⟩

/-- Settles O3, by running the decoder on each word. -/
theorem writtenWordsDecode : Obligations.WrittenWordsDecode := by
  unfold Obligations.WrittenWordsDecode
  decide

/-! ## Operations that wait -/

section
variable {i : Nat} {s : State} {h : Handler} {p : ClientPort}

theorem exec_hOpen_waits (hh : s.handlers[i]? = some h) (hp : s.ports[i]? = some p)
    (hw : h.state ≠ .closed ∨ p.openReq = false) : exec (.hOpen i) s = .next s := by
  refine (withPort_of _ hh hp).trans (if_neg fun ⟨hs, ho⟩ => ?_)
  exact hw.elim (absurd hs) fun hf => by simp [hf] at ho

theorem exec_hRecv_waits (hh : s.handlers[i]? = some h) (hp : s.ports[i]? = some p)
    (hw : h.state ≠ .recv ∨ p.inbound = []) : exec (.hRecv i) s = .next s := by
  refine (withPort_of _ hh hp).trans ?_
  obtain hs | hb := hw
  · exact if_neg hs
  · rw [hb]; exact ite_self _

theorem exec_rtuEnc_waits (hh : s.handlers[i]? = some h) (hs : h.state ≠ .decode) : exec (.rtuEnc i) s = .next s :=
  (withHandler_of _ hh).trans (if_neg hs)

theorem exec_submit_waits (hh : s.handlers[i]? = some h) (hs : h.state ≠ .decode) : exec (.submit i) s = .next s :=
  (withHandler_of _ hh).trans (if_neg hs)

theorem exec_rtuDec_waits (hh : s.handlers[i]? = some h) (hs : h.state ≠ .decode) (r : List Byte) :
    exec (.rtuDec ⟨i, r⟩) s = .next s :=
  (withHandler_of (i := i) _ hh).trans (if_neg hs)

theorem exec_hAwait_waits (hh : s.handlers[i]? = some h) (hs : h.state ≠ .await) : exec (.hAwait i) s = .next s :=
  (withHandler_of _ hh).trans (if_neg hs)

theorem exec_hSend_waits (hh : s.handlers[i]? = some h) (hp : s.ports[i]? = some p)
    (hw : h.state ≠ .send ∨ p.sendAns = []) : exec (.hSend i) s = .next s := by
  refine (withPort_of _ hh hp).trans ?_
  obtain hs | ha := hw
  · exact if_neg hs
  · rw [ha]; exact ite_self _

end

/-- Settles O51, operation by operation. -/
theorem disabledOperationsWait : Obligations.DisabledOperationsWait :=
  ⟨fun _ => ⟨exec_select_waits (st := .idle), exec_select_waits (st := .write), exec_select_waits (st := .rdHdr),
      exec_select_waits (st := .rdTrl), exec_select_waits (st := .deliver), exec_select_waits (st := .quiet)⟩,
    fun _ _ _ _ hh hp => ⟨exec_hOpen_waits hh hp, exec_hRecv_waits hh hp,
      fun hs => ⟨exec_rtuEnc_waits hh hs, exec_submit_waits hh hs, exec_rtuDec_waits hh hs⟩, exec_hAwait_waits hh,
      exec_hSend_waits hh hp⟩⟩

/-! ## Inputs at their ports -/

theorem withClientPort_of {i : Nat} {s : State} {p : ClientPort} (k : ClientPort → Out) (hp : s.ports[i]? = some p) :
    withClientPort i s k = k p := by simp only [withClientPort, hp]

/-- A device error ends the read whose window is open (60 R262). -/
theorem settle_failed {s : State} (hwin : s.WindowOk) (ho : s.windowOpen = true) :
    State.settle { s with ser := { s.ser with rxFail := true } } =
      { s with rxpend := [], ser := { s.ser with readAns := some .failed } } := by
  obtain ⟨hlt, -, hfail, -⟩ := hwin.opened ho
  refine (settle_ended (s := { s with ser := { s.ser with rxFail := true } }) (n := s.asked) ho rfl rfl).trans ?_
  simp only [List.drop_eq_nil_of_le hlt.le, hfail]

/-- Settles O54, input by input. -/
theorem inputsStandAtTheirPorts : Obligations.InputsStandAtTheirPorts := by
  refine ⟨fun s i p rest hp => ⟨fun hs => ?_, fun b hs => ?_, fun r hs => ?_⟩, fun s r rest hs => step_scheduled hs,
    fun s rest hi hs => ?_⟩
  · have e := (step_scheduled hs).trans (withClientPort_of _ hp)
    exact ⟨fun ho => e.trans (if_neg (by simp [ho])), fun ho => e.trans (if_pos ho)⟩
  · have e := (step_scheduled hs).trans (withClientPort_of _ hp)
    exact ⟨fun hb => e.trans (if_neg (Nat.not_lt.mpr hb)), fun hb => e.trans (if_pos hb)⟩
  · exact (step_scheduled hs).trans (withClientPort_of _ hp)
  · have hwin : State.WindowOk { s with script := rest } := hi.window.of_sameBus ⟨rfl, rfl, rfl, rfl⟩
    refine ⟨fun ho => ?_, fun ho => ?_⟩
    · exact (step_scheduled hs).trans (congrArg Host.Outcome.next (settle_failed hwin ((windowOpen_iff _).mpr ho)))
    · refine (step_scheduled hs).trans (congrArg Host.Outcome.next (settle_closed ?_))
      exact Bool.eq_false_iff.mpr fun h => ho ((windowOpen_iff _).mp h)

/-! ## Time -/

theorem tieAfter_eq {ms : Nat} {s : State}
    (h : s.windowOpen = true → ms ≠ 0 → s.w.timer.running = true → s.w.timer.left.toNat ≠ ms) :
    s.tieAfter ms = (decide (ms = 0) && s.ser.tie) := by
  unfold State.tieAfter
  by_cases h0 : ms = 0
  · simp [h0]
  · simp only [h0, if_false, decide_false, Bool.false_and]
    cases ho : s.windowOpen <;> cases hrun : s.w.timer.running <;> simp
    exact h ho h0 hrun

/-- A running timer has expired once as much time has passed as was left (10_state R48). -/
theorem Timer.elapse_expired {t : Timer} (hrun : t.running = true) (ms : Nat) :
    (t.elapse ms).expired = decide (t.left.toNat ≤ ms) := by
  rw [Timer.expired, Timer.elapse_running, hrun, Bool.true_and, Bool.beq_eq_decide_eq, decide_eq_decide,
    ← BitVec.toNat_inj, Timer.elapse_left, if_pos hrun]
  exact Nat.sub_eq_zero_iff_le

/-- Time that ends no window only counts the timer down (10_state R48). -/
theorem elapse_counts {s : State} {ms : Nat} (hi : s.Inv) (h : s.windowOpen = true → ms < s.w.timer.left.toNat) :
    s.elapse ms = { s with
      now := s.now + ms, w := { s.w with timer := s.w.timer.elapse ms },
      ser := { s.ser with tie := decide (ms = 0) && s.ser.tie } } := by
  rw [← tieAfter_eq fun ho _ _ => (h ho).ne']
  cases ho : s.windowOpen with
  | false => exact settle_closed ho
  | true =>
    obtain ⟨hlt, -, hfail, -⟩ := hi.window.opened ho
    have hexp : (s.w.timer.elapse ms).expired = false :=
      (Timer.elapse_expired (hi.timer_running ho) ms).trans (decide_eq_false (Nat.not_le.mpr (h ho)))
    exact settle_waiting (readEnds_none.mpr ⟨hfail, hlt, hexp⟩)

/-- Time that ends an open window gives its read the bytes that had come (10_state R47). -/
theorem elapse_ends {s : State} {ms : Nat} (hi : s.Inv) (ho : s.windowOpen = true) (h : s.w.timer.left.toNat ≤ ms) :
    s.elapse ms = { s with
      now := s.now + ms, w := { s.w with timer := s.w.timer.elapse ms }, rxpend := [],
      ser := { s.ser with readAns := some (.got s.rxpend), tie := decide (ms = s.w.timer.left.toNat) } } := by
  obtain ⟨hlt, hleft, hfail, -⟩ := hi.window.opened ho
  have hrun := hi.timer_running ho
  have hexp : (s.w.timer.elapse ms).expired = true :=
    (Timer.elapse_expired hrun ms).trans (decide_eq_true h)
  have htie : s.tieAfter ms = decide (ms = s.w.timer.left.toNat) := by
    have hpos : s.w.timer.left.toNat ≠ 0 := fun h0 => hleft (BitVec.eq_of_toNat_eq h0)
    have hms : ms ≠ 0 := by omega
    rw [State.tieAfter, if_neg hms, ho, hrun, Bool.true_and, Bool.true_and, beq_eq_decide]
    exact decide_eq_decide.mpr eq_comm
  have hends : readEnds s.asked s.rxpend s.ser.rxFail (s.w.timer.elapse ms).expired = some (.got s.rxpend) := by
    simp [readEnds, hfail, Nat.not_le.mpr hlt, hexp]
  rw [State.elapse, htie, settle_ended (n := s.asked) (r := .got s.rxpend) ?_ ?_ ?_]
  · simp only [List.drop_eq_nil_of_le hlt.le, hfail]
  · exact ho
  · rfl
  · exact hends

/-- Settles O53, by whether the time ends an open window. -/
theorem timerCountsDown : Obligations.TimerCountsDown := by
  intro s ms rest hi hs
  have hi' : State.Inv { s with script := rest } := hi.of_same rfl rfl rfl ⟨rfl, rfl, rfl, rfl⟩
  refine ⟨s.w.timer.elapse ms, Timer.elapse_running ms _, Timer.elapse_left ms _, fun hn => ?_,
    fun ⟨hst, ha, hle⟩ => ?_⟩
  · refine (step_scheduled hs).trans (congrArg Host.Outcome.next (elapse_counts hi' fun ho => ?_))
    obtain ⟨hst, ha⟩ := (windowOpen_iff _).mp ho
    exact Nat.not_le.mp fun hle => hn ⟨hst, ha, hle⟩
  · exact (step_scheduled hs).trans
      (congrArg Host.Outcome.next (elapse_ends hi' ((windowOpen_iff _).mpr ⟨hst, ha⟩) hle))

/-! ## From a read to the queue -/

section
variable {i : Nat} {s : State} {h : Handler} {p : ClientPort}

/-- H.RECV on a good request (43 R201): the fields into the registers, and `H_DECODE`. -/
theorem exec_hRecv_accepts {b : List Byte} {more : List (List Byte)} {tid pid len : Half} {uid : Byte}
    (hh : s.handlers[i]? = some h) (hp : s.ports[i]? = some p) (hs : h.state = .recv) (hb : p.inbound = b :: more)
    (hparse : hdrParse b = .fields tid pid len uid) (hlen : 6 + len.toNat ≤ b.length) :
    exec (.hRecv i) s = .next { s with
      handlers := s.handlers.set i { h with
        req := b, n := b.length, tid := tid, pid := pid, len := len, uid := uid, state := .decode },
      ports := s.ports.set i { p with inbound := more },
      trace := s.trace ++ [⟨s.now, .cliRecv i b⟩] } := by
  refine (withPort_of _ hh hp).trans ?_
  simp only [hs, hb, hparse, if_true, if_neg (show ¬b.length < 6 by omega), if_neg (Nat.not_lt.mpr hlen)]
  simp [State.setHandler, State.setPort, State.cross]

/-- RTUENC on a request that holds its payload (43 R203). -/
theorem exec_rtuEnc_encodes {fc : Byte} {payload : List Byte} (hh : s.handlers[i]? = some h) (hs : h.state = .decode)
    (hfc : h.req[7]? = some fc) (hpl : rtuPayload h.req h.len = some payload) :
    exec (.rtuEnc i) s = .next ((s.runCrc payload).setHandler i { h with bc := isBroadcastUid h.uid, fc := fc }) := by
  refine (withHandler_of _ hh).trans ?_
  simp only [hs, hfc, hpl, if_true]

/-- SUBMIT appends the frame of the payload, and the handler awaits (43 R204). -/
theorem exec_submit_appends {payload : List Byte} (hh : s.handlers[i]? = some h) (hs : h.state = .decode)
    (hpl : rtuPayload h.req h.len = some payload) :
    exec (.submit i) s = .next ((s.enqueue
      { frame := rtuFrame s.cfg.crc payload, src := i, isBroadcast := h.bc }).setHandler i
        { h with state := .await }) := by
  refine (withHandler_of _ hh).trans ?_
  simp only [hs, Handler.frame, hpl, Option.map_some, if_true]

/-- A good request passes in one step from the port to the queue (10_state R25). -/
theorem perform_hRecv_forwards {b payload : List Byte} {more : List (List Byte)} {tid pid len : Half} {uid fc : Byte}
    (hh : s.handlers[i]? = some h) (hp : s.ports[i]? = some p) (hs : h.state = .recv) (hb : p.inbound = b :: more)
    (hparse : hdrParse b = .fields tid pid len uid) (hlen : 6 + len.toNat ≤ b.length) (hfc : b[7]? = some fc)
    (hpl : rtuPayload b len = some payload) :
    perform (.hRecv i) s = .next { s with
      handlers := s.handlers.set i { h with
        req := b, n := b.length, tid := tid, pid := pid, len := len, uid := uid, fc := fc,
        bc := isBroadcastUid uid, state := .await },
      ports := s.ports.set i { p with inbound := more },
      trace := s.trace ++ [⟨s.now, .cliRecv i b⟩],
      codec := { s.codec with acc := crc16 s.cfg.crc payload },
      q := s.q ++ [{ frame := rtuFrame s.cfg.crc payload, src := i, isBroadcast := isBroadcastUid uid }] } := by
  refine (perform_hRecv hh hs (exec_hRecv_accepts hh hp hs hb hparse hlen)
    (exec_rtuEnc_encodes (getElem?_set_of_some hh _) rfl hfc hpl)).trans ?_
  refine (exec_submit_appends (getElem?_set_of_some (getElem?_set_of_some hh _) _) rfl hpl).trans ?_
  simp [State.setHandler, State.enqueue, State.runCrc, State.setCodec]

end

/-- Settles O56: the turn is the whole pass from the read to the queue, whose frame is the request's payload. -/
theorem requestBecomesOneFrame : Obligations.RequestBecomesOneFrame := by
  intro s i h p t0 t1 l0 l1 u fc data extra more rest hh hp hs hb hlen hlo hhi hscript
  have hl : (BitVec.ofNat 16 (l0.toNat * 256 + l1.toNat)).toNat = data.length + 2 := by
    rw [BitVec.toNat_ofNat, hlen]
    omega
  have hstep := (step_scheduled hscript).trans
    ((issue_turn_handler (s := { s with script := rest }) hh (congrArg (HState.select i) hs)).trans
      (perform_hRecv_forwards (s := { s with script := rest }) hh hp hs hb
        (hdrParse_fields t0 t1 l0 l1 u (fc :: (data ++ extra)) (by omega) (by omega))
        (by simp; omega) rfl (rtuPayload_of_append t0 t1 0 0 l0 l1 (u :: fc :: data) extra _ (by simpa using hl))))
  exact ⟨_, _, hstep, rfl, rfl, isBroadcastUid_eq_decide u, rfl, rfl, rfl, rfl⟩

end Sys2Proof.Machine
end

section
/-! SUPPORT. What a move records at the ports: when it crosses, that only W_WRITE writes a frame (42 R172), and that
only the worker makes a serial event (10_state R46, R47). From it, the quiet period between transactions (20_memory
R72). -/

namespace Sys2Proof.Machine

/-! ## What a move records -/

/-- A frame's write is a serial event. -/
theorem PortEvent.busWrite_eq_false {e : PortEvent} (h : e.serial = false) : e.busWrite = false := by
  cases e <;> first | rfl | cases h

/-- What the environment owes of an idle bus is about every serial event (70 R293). -/
theorem PortEvent.busActive_of_serial {e : PortEvent} (h : e.serial = true) : e.busActive = true := by
  cases e <;> first | rfl | cases h

/-- From `s` to `t` nothing but events that are not serial crosses the ports, at `s.now`. -/
def State.Silent (s t : State) : Prop :=
  ∃ new, t.trace = s.trace ++ new ∧ ∀ c ∈ new, c.at' = s.now ∧ c.ev.serial = false

/-- What crosses the ports from `s` to `t` does so at `s.now`, a frame only in `W_WRITE`, and no frame after a serial
event. -/
def State.Records (s t : State) : Prop :=
  ∃ new, t.trace = s.trace ++ new ∧ (∀ c ∈ new, c.at' = s.now ∧ (c.ev.busWrite = true → s.w.state = .write)) ∧
    new.Pairwise fun a b => a.ev.serial = true → b.ev.busWrite = false

theorem State.silent_of_trace {s t : State} (h : t.trace = s.trace) : s.Silent t := ⟨[], by simpa using h, nofun⟩

theorem State.Silent.records {s t : State} (h : s.Silent t) : s.Records t := by
  obtain ⟨new, htrace, hnew⟩ := h
  have hwrite : ∀ c ∈ new, c.ev.busWrite = false := fun c hc => PortEvent.busWrite_eq_false (hnew c hc).2
  refine ⟨new, htrace, fun c hc => ⟨(hnew c hc).1, fun hb => ?_⟩, ?_⟩
  · simp [hwrite c hc] at hb
  · exact List.pairwise_of_forall_mem_list fun a _ b hb _ => hwrite b hb

theorem HMove.silent {i : Nat} {k : HKind} {s t : State} (m : HMove i k s t) : s.Silent t := by
  cases m <;> simp [State.Silent, PortEvent.serial]

theorem PMove.silent {i : Nat} {s t : State} (m : PMove i s t) : s.Silent t := by
  cases m with
  | alone k _ _ m => exact m.silent
  | _ => simp [State.Silent, PortEvent.serial]

theorem CMove.silent {s t : State} (m : CMove s t) : s.Silent t := by
  cases m <;> simp [State.Silent, PortEvent.serial]

/-- A byte that arrives is recorded, but is no serial event of the engine (20_memory R72). -/
theorem EMove.silent {s t : State} (m : EMove s t) : s.Silent t := by
  cases m <;> simp [State.Silent, PortEvent.serial]

theorem WMove.records {s t : State} (m : WMove s t) : s.Records t := by
  cases m with
  | writeDone x r rs rx new hs ht ha hnew hrx =>
    obtain rfl | rfl := hnew <;> simp [State.Records, PortEvent.busWrite, hs]
  | writeAwaits x rs rx hs => simp [State.Records, hs]
  | noReply hdr tlen new hs hr hnew =>
    obtain ⟨n, b, rfl⟩ | ⟨n, rfl⟩ := hnew <;> simp [State.Records, PortEvent.busWrite]
  | header => simp [State.Records, PortEvent.busWrite]
  | trailer => simp [State.Records, PortEvent.busWrite]
  | _ => exact State.Silent.records (State.silent_of_trace rfl)

/-- A reset that cuts a write off records the part of the frame that is on the bus, and nothing else. -/
theorem resetEngine_records (ms sent : Nat) (s : State) : s.Records (resetEngine ms sent s) := by
  show ∃ new, (s.cutWrite sent).trace = s.trace ++ new ∧ _
  obtain h | ⟨x, hs, -, h⟩ := cutWrite_cases sent s
  · simp [h]
  · simp [h, hs]

theorem IMove.records {it : Item} {s t : State} (m : IMove it s t) : s.Records t := by
  cases m with
  | handler i _ m => exact m.silent.records
  | worker _ m => exact m.records
  | codec _ m => exact m.silent.records
  | env _ m => exact m.silent.records
  | reset ms sent => exact resetEngine_records ms sent s

theorem step_records {s t : State} (e : step s = .next t) : s.Records t := by
  obtain rfl | ⟨it, rest, -, m⟩ := step_moves e
  · exact (State.silent_of_trace rfl).records
  · exact m.records

/-- Settles O11: a frame crosses only in `W_WRITE` and at the present time, before which the bus has been quiet. -/
theorem frameWrittenOnlyAfterQuiet : Obligations.FrameWrittenOnlyAfterQuiet := by
  intro s t new hq e htrace c hc hb
  obtain ⟨new', htrace', hnew, -⟩ := step_records e
  obtain rfl : new = new' := List.append_cancel_left (htrace.symm.trans htrace')
  obtain ⟨hat, hwrite⟩ := hnew c hc
  have hs := hwrite hb
  refine ⟨hs, fun a ha hser => ?_⟩
  rw [hat]
  exact hq.ready (.inr hs) a ha hser

/-! ## The quiet period -/

/-- Silent crossings end no quiet. -/
theorem QuietBefore.silent {ifd time : Nat} {s t : State} (h : QuietBefore ifd s.trace time) (hst : s.Silent t) :
    QuietBefore ifd t.trace time := by
  obtain ⟨new, htrace, hnew⟩ := hst
  rw [htrace]
  intro c hc hser
  obtain hc | hc := List.mem_append.mp hc
  · exact h c hc hser
  · simp [(hnew c hc).2] at hser

theorem QuietBefore.mono {ifd time time' : Nat} {trace : List Crossing} (h : QuietBefore ifd trace time)
    (hle : time ≤ time') : QuietBefore ifd trace time' := fun c hc hser => (h c hc hser).trans hle

theorem IdleBus.quietBefore {ifd time : Nat} {trace : List Crossing} (h : IdleBus ifd trace time) :
    QuietBefore ifd trace time := fun c hc hser => h c hc (PortEvent.busActive_of_serial hser)

section
variable {s t : State} (hq : s.Quiet)
include hq

/-- What a step records keeps the quiet period in the past, so that only what the state after it promises is left. -/
theorem State.Quiet.of_records (hr : s.Records t) (hc : s.Continues t)
    (hready : t.w.state = .idle ∨ t.w.state = .write → QuietBefore s.cfg.tIfd.toNat t.trace t.now)
    (hcount : t.w.state = .quiet →
      t.w.timer.running = true ∧ QuietBefore s.cfg.tIfd.toNat t.trace (t.now + t.w.timer.left.toNat)) : t.Quiet := by
  obtain ⟨hcfg, -, hnow⟩ := hc
  obtain ⟨new, htrace, hnew, hpair⟩ := hr
  refine ⟨?_, ?_, by rwa [hcfg], by rwa [hcfg]⟩
  · rw [htrace]
    intro c hc
    obtain hc | hc := List.mem_append.mp hc
    · exact (hq.past c hc).trans hnow
    · exact (hnew c hc).1.trans_le hnow
  · rw [htrace, hcfg]
    refine List.pairwise_append.mpr ⟨hq.spaced, hpair.imp fun h hser hb => ?_, fun a ha b hb hser hwrite => ?_⟩
    · simp [h hser] at hb
    · obtain ⟨hat, hstate⟩ := hnew b hb
      rw [hat]
      exact hq.ready (.inr (hstate hwrite)) a ha hser

/-- A silent step that leaves the worker and the clock alone promises what was promised before. -/
theorem State.Quiet.of_silent (hs : s.Silent t) (hc : s.Continues t) (hw : t.w = s.w) (hnow : t.now = s.now) :
    t.Quiet := by
  refine hq.of_records hs.records hc ?_ ?_ <;> rw [hw, hnow]
  · exact fun hst => (hq.ready hst).silent hs
  · exact fun hst => ⟨(hq.counting hst).1, (hq.counting hst).2.silent hs⟩

/-- A step into a state in which the bus is in use promises nothing. -/
theorem State.Quiet.of_busy (hr : s.Records t) (hc : s.Continues t)
    (hst : t.w.state ≠ .idle ∧ t.w.state ≠ .write ∧ t.w.state ≠ .quiet) : t.Quiet := by
  obtain ⟨hidle, hwrite, hquiet⟩ := hst
  exact hq.of_records hr hc (fun h => (h.elim hidle hwrite).elim) fun h => (hquiet h).elim

end

theorem PMove.now {i : Nat} {s t : State} (m : PMove i s t) : t.now = s.now := by
  cases m with
  | alone k _ _ m => exact m.now
  | _ => rfl

/-- The worker's step keeps the quiet period: it starts one as it delivers, and ends one as its timer has expired (42
R176, R177). -/
theorem WMove.quiet {s t : State} (m : WMove s t) (hq : s.Quiet) : t.Quiet := by
  have hr := m.records
  have hc := m.continues
  cases m with
  | wait => exact hq
  | fetched x xs hs => exact hq.of_records hr hc (fun _ => hq.ready (.inl hs)) nofun
  | delivered x hs ht =>
    refine hq.of_records hr hc (by simp) fun _ => ⟨rfl, fun c hc _ => ?_⟩
    exact Nat.add_le_add_right (hq.past c hc) _
  | quietOver hs hrun hl =>
    have hquiet := (hq.counting hs).2
    rw [hl] at hquiet
    exact hq.of_records hr hc (fun _ => hquiet) nofun
  | inferred tlen hs => exact hq.of_busy hr hc (by simp [hs])
  | _ => exact hq.of_busy hr hc (by simp)

/-- Time that passes brings the end of a quiet period no nearer than its timer says (10_state R48). -/
theorem elapse_quiet {s : State} (ms : Nat) (hq : s.Quiet) : (s.elapse ms).Quiet := by
  have hs : s.Silent (s.elapse ms) := (EMove.elapsed ms).silent
  refine hq.of_records hs.records (EMove.elapsed ms).continues ?_ ?_ <;>
    simp only [elapse_trace, elapse_now, elapse_w, Timer.elapse_running]
  · exact fun hst => (hq.ready hst).mono (Nat.le_add_right _ ms)
  · intro hst
    obtain ⟨hrun, hquiet⟩ := hq.counting hst
    refine ⟨hrun, hquiet.mono ?_⟩
    rw [Timer.elapse_left, if_pos hrun]
    omega

theorem EMove.quiet {s t : State} (m : EMove s t) (hq : s.Quiet) : t.Quiet := by
  have hs := m.silent
  have hc := m.continues
  cases m with
  | elapsed ms => exact elapse_quiet ms hq
  | _ => exact hq.of_silent hs hc (by simp) (by simp)

/-- What a reset leaves of a write does not depend on the rest of the schedule. -/
theorem cutWrite_trace_script (sent : Nat) (rest : List Item) (s : State) :
    (State.cutWrite sent { s with script := rest }).trace = (s.cutWrite sent).trace := by
  unfold State.cutWrite
  cases s.w.task with
  | none => rfl
  | some x => dsimp only; split <;> rfl

/-- A reset released on an idle bus leaves the worker ready to write (70 R293 item 3). -/
theorem resetEngine_quiet {ms sent : Nat} {s : State} (hq : s.Quiet)
    (hidle : IdleBus s.cfg.tIfd.toNat (s.cutWrite sent).trace (s.now + ms)) : (resetEngine ms sent s).Quiet :=
  hq.of_records (resetEngine_records ms sent s) (resetEngine_continues ms sent s) (fun _ => hidle.quietBefore) nofun

/-- Settles O10, from what each kind of move records and promises. -/
theorem stepKeepsQuietPeriod : Obligations.StepKeepsQuietPeriod := by
  intro s t hq hreset e
  obtain rfl | ⟨it, rest, hscript, m⟩ := step_moves e
  · exact hq
  · have hq' : State.Quiet { s with script := rest } := ⟨hq.past, hq.spaced, hq.ready, hq.counting⟩
    cases m with
    | handler i _ m => exact hq'.of_silent m.silent m.continues m.sameBus.w m.now
    | worker _ m => exact m.quiet hq'
    | codec _ m => exact hq'.of_silent m.silent m.continues (by cases m <;> rfl) (by cases m <;> rfl)
    | env _ m => exact m.quiet hq'
    | reset ms sent hit =>
      refine resetEngine_quiet hq' ?_
      rw [cutWrite_trace_script]
      exact hreset ms sent rest (hit ▸ hscript)

/-! ## Who reaches the serial port -/

/-- From `s` to `t` the serial port, its pending bytes and its record stay as they are. -/
structure State.SameSerial (s t : State) : Prop where
  ser : t.ser = s.ser
  rxpend : t.rxpend = s.rxpend
  silent : s.Silent t

theorem HMove.sameSerial {i : Nat} {k : HKind} {s t : State} (m : HMove i k s t) : s.SameSerial t :=
  ⟨m.sameBus.ser, m.sameBus.rxpend, m.silent⟩

theorem CMove.sameSerial {s t : State} (m : CMove s t) : s.SameSerial t := by
  have hs := m.silent
  cases m <;> exact ⟨rfl, rfl, hs⟩

/-- The worker reaches the serial port only in `W_WRITE` and in the reading states. -/
theorem WMove.sameSerial {s t : State} (m : WMove s t)
    (hs : s.w.state ≠ .write ∧ s.w.state ≠ .rdHdr ∧ s.w.state ≠ .rdTrl) : s.SameSerial t := by
  obtain ⟨hwrite, hhdr, htrl⟩ := hs
  cases m with
  | writeDone _ _ _ _ _ hs => exact absurd hs hwrite
  | writeAwaits _ _ _ hs => exact absurd hs hwrite
  | noReply _ _ _ hs => exact (hs.elim hhdr htrl).elim
  | header _ _ _ _ hs => exact absurd hs hhdr
  | trailer _ hs => exact absurd hs htrl
  | _ => exact ⟨rfl, rfl, State.silent_of_trace rfl⟩

/-- Selected in any other state, the worker's operation waits. -/
theorem exec_select_sameSerial {s t : State} {st : WState} (hst : st ≠ .write ∧ st ≠ .rdHdr ∧ st ≠ .rdTrl)
    (e : exec st.select s = .next t) : s.SameSerial t := by
  by_cases hs : s.w.state = st
  · exact (exec_select_moves e).sameSerial (hs ▸ hst)
  · cases (exec_select_waits hs).symm.trans e
    exact ⟨rfl, rfl, State.silent_of_trace rfl⟩

theorem inferred_sameSerial {s t : State} {tlen : BitVec 9} (e : s.inferred tlen = .next t) : s.SameSerial t := by
  unfold State.inferred at e
  split at e <;> cases e <;> exact ⟨rfl, rfl, State.silent_of_trace rfl⟩

/-- What any operation but BW.WRITE, BW.RDHDR and BW.RDTRL leaves as it is (20_memory R60, 60 R270). -/
theorem exec_sameSerial {op : Instr} {s t : State} (e : exec op s = .next t)
    (hop : op ≠ .bwWrite ∧ op ≠ .bwRdHdr ∧ op ≠ .bwRdTrl) : s.SameSerial t := by
  obtain ⟨hwrite, hhdr, htrl⟩ := hop
  cases op
  case bwWrite => exact absurd rfl hwrite
  case bwRdHdr => exact absurd rfl hhdr
  case bwRdTrl => exact absurd rfl htrl
  case bwFetch => exact exec_select_sameSerial (st := .idle) (by decide) e
  case bwDeliver => exact exec_select_sameSerial (st := .deliver) (by decide) e
  case bwQuiet => exact exec_select_sameSerial (st := .quiet) (by decide) e
  case rlenExc | rlenFc01 | rlenFc02 | rlenFc03 | rlenFc04 | rlenFc05 | rlenFc06 | rlenFc0F | rlenFc10 | rlenOther =>
    exact inferred_sameSerial e
  case crc16 b => cases e; exact (CMove.computed _).sameSerial
  case crcVerify f =>
    simp only [exec, execCrcVerify] at e
    split at e
    · cases e
    · cases e; exact (CMove.verified _ _).sameSerial
  case hdrParse => exact (execHdrParse_moves e).sameSerial
  case excBuild => exact (execExcBuild_moves e).sameSerial
  case hOpen => exact (execHOpen_moves e).sameSerial
  case hRecv => exact (execHRecv_moves e).sameSerial
  case rtuEnc => exact (execRtuEnc_moves e).sameSerial
  case submit => exact (execSubmit_moves e).sameSerial
  case hAwait => exact (execHAwait_moves e).sameSerial
  case rtuDec => exact (execRtuDec_moves e).sameSerial
  case rspOk => exact (execRspOk_moves e).sameSerial
  case hSend => exact (execHSend_moves e).sameSerial
  case hClose => exact (execHClose_moves e).sameSerial
  case uidBcast | uidUnicast => exact (classified_moves e).sameSerial
  case pidModbus => exact (execPidModbus_moves e).sameSerial
  case pidOther i pid => exact (execPidOther_moves (pid := pid) e).sameSerial

/-- Settles O19: any other operation leaves the port, the pending bytes and the record of serial events as they are. -/
theorem onlyWorkerUsesSerialPort : Obligations.OnlyWorkerUsesSerialPort := by
  intro op s t e hreach
  by_contra hop
  obtain ⟨hser, hrx, new, htrace, hnew⟩ := exec_sameSerial e (by simpa only [not_or] using hop)
  obtain hne | hne | ⟨new', htrace', c, hc, hserial⟩ := hreach
  · exact hne hser
  · exact hne hrx
  · obtain rfl : new' = new := List.append_cancel_left (htrace'.symm.trans htrace)
    simp [(hnew c hc).2] at hserial

end Sys2Proof.Machine
end

section
/-! SUPPORT. What stops the machine with a fault: nothing but a client port that does not exist (20_memory R69). -/

namespace Sys2Proof.Machine

/-- The outcome is no fault. -/
def Faultless (o : Out) : Prop := ∀ r, o ≠ .fault r

@[simp] theorem faultless_next (s : State) : Faultless (.next s) := nofun

@[simp] theorem faultless_refused (r : Refusal) : Faultless (.refused r) := nofun

@[simp] theorem faultless_waits (s : State) : Faultless (waits s) := faultless_next s

@[simp] theorem faultless_ite {c : Prop} [Decidable c] {a b : Out} :
    Faultless (if c then a else b) ↔ (c → Faultless a) ∧ (¬c → Faultless b) := by
  split <;> simp [*]

@[simp] theorem faultless_openWindow (st : WState) (s : State) : Faultless (s.openWindow st) := by
  simp [State.openWindow]

theorem faultless_inferred (tlen : BitVec 9) (s : State) : Faultless (s.inferred tlen) := by
  simp [State.inferred]

/-- The fault `r` is that of a client port which does not exist in `s`. -/
def MissingPort (s : State) (r : Fault) : Prop := ∃ i, r = .noSuchPort i ∧ s.handlers.length ≤ i

theorem withHandler_fault {i : Nat} {s : State} {k : Handler → Out} {r : Fault} (e : withHandler i s k = .fault r)
    (hk : ∀ h, Faultless (k h)) : MissingPort s r := by
  unfold withHandler at e
  split at e
  · exact (hk _ r e).elim
  · cases e; exact ⟨i, rfl, List.getElem?_eq_none_iff.mp ‹_›⟩

theorem withClientPort_fault {i : Nat} {s : State} {k : ClientPort → Out} {r : Fault}
    (hlen : s.handlers.length = s.ports.length) (e : withClientPort i s k = .fault r) (hk : ∀ p, Faultless (k p)) :
    MissingPort s r := by
  unfold withClientPort at e
  split at e
  · exact (hk _ r e).elim
  · cases e; exact ⟨i, rfl, hlen.trans_le (List.getElem?_eq_none_iff.mp ‹_›)⟩

theorem withPort_fault {i : Nat} {s : State} {k : Handler → ClientPort → Out} {r : Fault}
    (hlen : s.handlers.length = s.ports.length) (e : withPort i s k = .fault r) (hk : ∀ h p, Faultless (k h p)) :
    MissingPort s r := by
  unfold withPort at e
  split at e
  · exact (hk _ _ r e).elim
  · rename_i hnone
    cases e
    refine ⟨i, rfl, Nat.not_lt.mp fun hi => hnone _ _ (List.getElem?_eq_getElem hi) (List.getElem?_eq_getElem ?_)⟩
    exact hlen ▸ hi

/-- The worker's operations have no fault: they are of no client port. -/
theorem faultless_select (st : WState) (s : State) : Faultless (exec st.select s) := by
  cases st <;> dsimp only [WState.select, exec, execBwFetch, execBwWrite, execBwRdHdr, execBwRdTrl, execBwDeliver,
    execBwQuiet]
  all_goals repeat' split
  all_goals simp

/-- An operation faults only of the client port it names. -/
theorem exec_fault {op : Instr} {s : State} {r : Fault} (hlen : s.handlers.length = s.ports.length)
    (e : exec op s = .fault r) : MissingPort s r := by
  cases op
  case bwFetch => exact (faultless_select .idle s r e).elim
  case bwWrite => exact (faultless_select .write s r e).elim
  case bwRdHdr => exact (faultless_select .rdHdr s r e).elim
  case bwRdTrl => exact (faultless_select .rdTrl s r e).elim
  case bwDeliver => exact (faultless_select .deliver s r e).elim
  case bwQuiet => exact (faultless_select .quiet s r e).elim
  case rlenExc | rlenFc01 | rlenFc02 | rlenFc03 | rlenFc04 | rlenFc05 | rlenFc06 | rlenFc0F | rlenFc10 | rlenOther =>
    exact (faultless_inferred _ s r e).elim
  case crc16 => cases e
  case crcVerify f =>
    have hf : Faultless (execCrcVerify f s) := by simp [execCrcVerify]
    exact (hf r e).elim
  case hOpen | hRecv | hSend =>
    refine withPort_fault hlen e fun h p => ?_
    repeat' split
    all_goals simp
  case hdrParse | excBuild | rtuEnc | submit | hAwait | rtuDec | rspOk | hClose | uidBcast | uidUnicast | pidModbus |
      pidOther =>
    refine withHandler_fault e fun h => ?_
    repeat' split
    all_goals simp

/-- No operation adds or removes a handler or a port. -/
theorem exec_lengths {op : Instr} {s t : State} (e : exec op s = .next t) :
    t.handlers.length = s.handlers.length ∧ t.ports.length = s.ports.length := by
  obtain ⟨i, k, m, -⟩ | m | m := exec_moves e
  · exact m.lengths
  · refine ⟨?_, by rw [m.sameClients.ports]⟩
    obtain h | ⟨-, x, -, h⟩ := m.handlers <;> simp [h]
  · cases m <;> exact ⟨rfl, rfl⟩

theorem runAll_fault {ops : List Instr} {s : State} {r : Fault} (hlen : s.handlers.length = s.ports.length)
    (e : runAll ops s = .fault r) : MissingPort s r := by
  induction ops generalizing s with
  | nil => cases e
  | cons op ops ih =>
    rw [runAll] at e
    split at e
    · rename_i u hu
      obtain ⟨hh, hp⟩ := exec_lengths hu
      obtain ⟨i, hr, hi⟩ := ih (hh.trans (hlen.trans hp.symm)) e
      exact ⟨i, hr, hh ▸ hi⟩
    · rename_i hf
      exact exec_fault hlen (hf.trans e)
    · cases e

theorem faultless_arrive (b : Byte) (s : State) : Faultless (arrive b s) := by
  simp [arrive]

theorem applyEnv_fault {ev : EnvEvent} {s : State} {r : Fault} (hlen : s.handlers.length = s.ports.length)
    (e : applyEnv ev s = .fault r) : MissingPort s r := by
  cases ev with
  | cliOpen i => exact withClientPort_fault hlen e fun p => by simp
  | cliRecv i b => exact withClientPort_fault hlen e fun p => by simp
  | cliSendAns i a => exact withClientPort_fault hlen e fun p => by simp
  | serWriteAns a => cases e
  | serByte b => exact (faultless_arrive b s r e).elim
  | tiedByte b =>
    have hf : Faultless (arriveInTime b s) := by
      unfold arriveInTime
      split
      · simp
      · exact faultless_arrive b s
    exact (hf r e).elim
  | serFail => cases e
  | elapse ms => cases e
  | reset ms sent => cases e

theorem issue_turn_handler_missing {i : Nat} {s : State} (hh : s.handlers[i]? = none) :
    issue (.turn (.handler i)) s = .fault (.noSuchPort i) := by
  simp only [issue, withHandler, hh]

theorem issue_fault {it : Item} {s : State} {r : Fault} (hlen : s.handlers.length = s.ports.length)
    (e : issue it s = .fault r) : MissingPort s r := by
  cases it with
  | env ev => exact applyEnv_fault hlen e
  | turn a =>
    cases a with
    | worker => exact runAll_fault hlen e
    | handler i =>
      cases hh : s.handlers[i]? with
      | none =>
        cases (issue_turn_handler_missing hh).symm.trans e
        exact ⟨i, rfl, List.getElem?_eq_none_iff.mp hh⟩
      | some h =>
        cases hsel : h.state.select i with
        | none => cases (issue_turn_handler_waits hh hsel).symm.trans e
        | some op => exact runAll_fault hlen ((issue_turn_handler hh hsel).symm.trans e)
  | op word =>
    cases hd : decode word with
    | ok op => exact runAll_fault hlen ((issue_word_ok s hd).symm.trans e)
    | bad why => cases (issue_word_bad s hd).symm.trans e

/-- Settles O21, from what each item of the schedule faults of. -/
theorem onlyMissingPortsFault : Obligations.OnlyMissingPortsFault := by
  intro s r hlen e
  cases hs : s.script with
  | nil => simp [step, runSchedule, hs, waits] at e
  | cons it rest => exact issue_fault (s := { s with script := rest }) hlen ((step_scheduled hs).symm.trans e)

end Sys2Proof.Machine
end

section
/-! SUPPORT. A task being read is answered within its two windows (20_memory R75, 70 R310): what the time and the turns
of the worker do, one step at a time, from the first window to the delivery. -/

namespace Sys2Proof.Machine

/-! ## Steps that end a read -/

/-- Once the time of the window is over, the read in progress has its answer (10_state R47). -/
theorem elapse_answers {s : State} {ms : Nat} (hi : s.Inv) (hread : s.reading = true)
    (hle : s.w.timer.left.toNat ≤ ms) : (s.elapse ms).ser.readAns ≠ none := by
  cases ho : s.windowOpen with
  | true => simp [elapse_ends hi ho hle]
  | false =>
    have ha : s.ser.readAns ≠ none := fun hn => by simp [State.windowOpen, hread, hn] at ho
    simpa [elapse_counts hi (fun h => absurd h (Bool.eq_false_iff.mp ho))] using ha

section
variable {s : State}

/-- BW.RDHDR with its answer (42 R174): the empty reply, or the second window. -/
theorem exec_bwRdHdr_ends {fc : Byte} (hs : s.w.state = .rdHdr) (hfc : s.taskFc = some fc) (ha : s.ser.readAns ≠ none)
    (hts : s.cfg.tSer ≠ 0) : ∃ t, exec .bwRdHdr s = .next t ∧ t.w.task = s.w.task ∧
      (t.w.state = .deliver ∨ t.w.state = .rdTrl ∧ t.w.timer.left = s.cfg.tSer) := by
  obtain ⟨r, hr⟩ := Option.ne_none_iff_exists'.mp ha
  simp only [exec, execBwRdHdr, hs, hfc, serRead_of hr, if_true]
  cases r with
  | failed => exact ⟨_, rfl, rfl, .inl rfl⟩
  | got b =>
    dsimp only
    split
    · split
      · exact ⟨_, rfl, rfl, .inl rfl⟩
      · rw [openWindow_of (by exact hts)]
        exact ⟨_, rfl, by simp, .inr (by simp)⟩
    · exact ⟨_, rfl, rfl, .inl rfl⟩

/-- BW.RDTRL with its answer ends the reading (42 R175). -/
theorem exec_bwRdTrl_ends (hs : s.w.state = .rdTrl) (ha : s.ser.readAns ≠ none) :
    ∃ t, exec .bwRdTrl s = .next t ∧ t.w.task = s.w.task ∧ t.w.state = .deliver := by
  obtain ⟨r, hr⟩ := Option.ne_none_iff_exists'.mp ha
  simp only [exec, execBwRdTrl, hs, serRead_of hr, if_true]
  cases r with
  | failed => exact ⟨_, rfl, rfl, rfl⟩
  | got b =>
    dsimp only
    split <;> exact ⟨_, rfl, rfl, rfl⟩

/-- BW.DELIVER fills the submitter's slot (42 R176). -/
theorem exec_bwDeliver_fills {x : Task} {h : Handler} (hs : s.w.state = .deliver) (ht : s.w.task = some x)
    (hh : s.handlers[x.src]? = some h) : ∃ t, exec .bwDeliver s = .next t ∧ t.w.state = .quiet ∧
      t.handlers[x.src]? = some { h with rslot := some s.w.reply } := by
  simp only [exec, execBwDeliver, hs, ht, if_true]
  exact ⟨_, rfl, rfl, by simp [hh]⟩

/-- BW.QUIET leaves the handlers alone, and may wait (42 R177). -/
theorem exec_bwQuiet_handlers : ∃ t, exec .bwQuiet s = .next t ∧ t.handlers = s.handlers := by
  simp only [exec, execBwQuiet]
  split <;> exact ⟨_, rfl, rfl⟩

theorem step_turn_worker {rest : List Item} {st : WState} (hscript : s.script = .turn .worker :: rest)
    (hs : s.w.state = st) : step s = exec st.select { s with script := rest } :=
  hs ▸ (step_scheduled hscript).trans (issue_turn_worker _)

theorem step_elapse {ms : Nat} {rest : List Item} (hscript : s.script = .env (.elapse ms) :: rest) :
    step s = .next (State.elapse ms { s with script := rest }) := step_scheduled hscript

/-- What the schedule is does not matter to the invariant. -/
theorem State.Inv.withScript (hi : s.Inv) (rest : List Item) : State.Inv { s with script := rest } :=
  hi.of_same rfl rfl rfl ⟨rfl, rfl, rfl, rfl⟩

end

/-! ## From the first window to the slot -/

/-- A run of one step more begins with that step. -/
theorem run_succ_of_step {M : Host.Core} {n : Nat} {s t : M.State} (e : M.step s = .next t) :
    M.run (n + 1) s = M.run n t := by
  simp only [Host.Core.run, e]

/-- After `n` steps from `s`, handler `i`'s slot holds an RTU Reply. -/
def AnsweredIn (n i : Nat) (s : State) : Prop :=
  ∃ (t : State) (h : Handler) (r : List Byte), Host.Core.run Sys2Proof.core n s = .next t ∧
    t.handlers[i]? = some h ∧ h.rslot = some r ∧ ReplyShape r

theorem AnsweredIn.step {n i : Nat} {s t : State} (e : step s = .next t) (h : AnsweredIn n i t) :
    AnsweredIn (n + 1) i s := by
  obtain ⟨u, g, r, hrun, hu⟩ := h
  exact ⟨u, g, r, (run_succ_of_step (M := Sys2Proof.core) e).trans hrun, hu⟩

section
variable {s : State} {x : Task} {rest : List Item} (hi : s.Inv)
include hi

/-- A turn of the worker that is not refused leaves the rest of the schedule, and keeps the parameters and the
invariant. -/
theorem State.Inv.step_turn {t : State} {st : WState} (hscript : s.script = .turn .worker :: rest) (hs : s.w.state = st)
    (e : exec st.select { s with script := rest } = .next t) :
    step s = .next t ∧ t.Inv ∧ t.script = rest ∧ t.cfg = s.cfg := by
  have hstep := (step_turn_worker hscript hs).trans e
  obtain ⟨-, -, hcfg, -, hrest⟩ := (exec_select_moves e).sameClients
  exact ⟨hstep, stepKeepsInvariant s t hi hstep, hrest, hcfg⟩

theorem State.Inv.submitter (ht : s.w.task = some x) : ∃ h, s.handlers[x.src]? = some h ∧ x.frame[1]? = some h.fc := by
  have hmem : x ∈ s.tasks := by rw [tasks_of_held ht]; exact List.mem_cons_self
  obtain ⟨h, hh, -, -, ⟨-, -, hfc, -⟩, -⟩ := hi.owned x hmem
  exact ⟨h, hh, hfc⟩

theorem answeredIn_of_slot {i : Nat} {h : Handler} {r : List Byte} (hh : s.handlers[i]? = some h)
    (hr : h.rslot = some r) : AnsweredIn 0 i s :=
  ⟨s, h, r, rfl, hh, hr, ((hi.handlers i h hh).reply r hr).1⟩

/-- The delivering worker's turn fills the submitter's slot. -/
theorem State.Inv.step_delivers (hs : s.w.state = .deliver) (ht : s.w.task = some x)
    (hscript : s.script = .turn .worker :: rest) :
    ∃ (t : State) (h : Handler) (r : List Byte), step s = .next t ∧ t.Inv ∧ t.script = rest ∧ t.w.state = .quiet ∧
      t.handlers[x.src]? = some h ∧ h.rslot = some r := by
  obtain ⟨h, hh, -⟩ := hi.submitter ht
  obtain ⟨t, e, hs', hh'⟩ := exec_bwDeliver_fills (s := { s with script := rest }) hs ht hh
  obtain ⟨hstep, hi', hscript', -⟩ := hi.step_turn hscript hs e
  exact ⟨t, _, _, hstep, hi', hscript', hs', hh', rfl⟩

theorem answeredIn_one_of_deliver (hs : s.w.state = .deliver) (ht : s.w.task = some x)
    (hscript : s.script = .turn .worker :: rest) : AnsweredIn 1 x.src s := by
  obtain ⟨t, h, r, hstep, hi', -, -, hh, hr⟩ := hi.step_delivers hs ht hscript
  exact .step hstep (answeredIn_of_slot hi' hh hr)

/-- One more turn, in the quiet period, takes no reply away. -/
theorem answeredIn_two_of_deliver (hs : s.w.state = .deliver) (ht : s.w.task = some x)
    (hscript : s.script = .turn .worker :: .turn .worker :: rest) : AnsweredIn 2 x.src s := by
  obtain ⟨t, h, r, hstep, hi', hscript', hs', hh, hr⟩ := hi.step_delivers hs ht hscript
  obtain ⟨u, e, hu⟩ := exec_bwQuiet_handlers (s := { t with script := rest })
  obtain ⟨hstep', hi'', -⟩ := hi'.step_turn hscript' hs' e
  exact .step hstep (.step hstep' (answeredIn_of_slot hi'' (hu ▸ hh) hr))

/-- The worker whose second window has closed needs two turns. -/
theorem answeredIn_two_of_rdTrl (hs : s.w.state = .rdTrl) (ha : s.ser.readAns ≠ none) (ht : s.w.task = some x)
    (hscript : s.script = .turn .worker :: .turn .worker :: rest) : AnsweredIn 2 x.src s := by
  obtain ⟨t, e, ht', hs'⟩ := exec_bwRdTrl_ends (s := { s with script := .turn .worker :: rest }) hs ha
  obtain ⟨hstep, hi', hscript', -⟩ := hi.step_turn hscript hs e
  exact .step hstep (answeredIn_one_of_deliver hi' hs' (ht'.trans ht) hscript')

/-- The second window's time closes it, and does nothing to a worker that delivers already. -/
theorem answeredIn_three_of_window {ms : Nat} (hs : s.w.state = .deliver ∨ s.w.state = .rdTrl ∧ s.w.timer.left.toNat ≤ ms)
    (ht : s.w.task = some x)
    (hscript : s.script = .env (.elapse ms) :: .turn .worker :: .turn .worker :: rest) : AnsweredIn 3 x.src s := by
  have hstep := step_elapse hscript
  have hi' := stepKeepsInvariant _ _ hi hstep
  refine .step hstep ?_
  obtain hs | ⟨hs, hle⟩ := hs
  · exact answeredIn_two_of_deliver hi' (by simpa using hs) (by simpa using ht) (elapse_script ..)
  · exact answeredIn_two_of_rdTrl hi' (by simpa using hs) (elapse_answers (hi.withScript _) (by simp [hs]) hle)
      (by simpa using ht) (elapse_script ..)

/-- The worker whose first window has closed needs three turns and the second window's time. -/
theorem answeredIn_four_of_rdHdr (hts : s.cfg.tSer ≠ 0) (hs : s.w.state = .rdHdr) (ha : s.ser.readAns ≠ none)
    (ht : s.w.task = some x) (hscript : s.script = .turn .worker :: .env (.elapse s.cfg.tSer.toNat) :: .turn .worker ::
      .turn .worker :: rest) : AnsweredIn 4 x.src s := by
  obtain ⟨h, -, hfc⟩ := hi.submitter ht
  have hfc' : s.taskFc = some h.fc := by simp only [State.taskFc, ht, hfc]
  obtain ⟨t, e, ht', hs'⟩ := exec_bwRdHdr_ends
    (s := { s with script := .env (.elapse s.cfg.tSer.toNat) :: .turn .worker :: .turn .worker :: rest }) hs hfc' ha hts
  obtain ⟨hstep, hi', hscript', -⟩ := hi.step_turn hscript hs e
  exact .step hstep (answeredIn_three_of_window hi' (hs'.imp_right fun ⟨hst, hleft⟩ => ⟨hst, by rw [hleft]⟩) (ht'.trans ht)
    hscript')

end

/-- Settles O60, step by step from the first window's time to the delivery. -/
theorem taskIsAnsweredInBoundedTime : Obligations.TaskIsAnsweredInBoundedTime := by
  intro s x rest hi hts hs ht hscript
  have hstep := step_elapse hscript
  have hanswered : AnsweredIn 4 x.src _ := answeredIn_four_of_rdHdr (stepKeepsInvariant _ _ hi hstep) (by simpa using hts)
    (by simpa using hs) (elapse_answers (hi.withScript _) (by simp [hs]) le_rfl) (by simpa using ht)
    (by rw [elapse_script, elapse_cfg])
  exact hanswered.step hstep

end Sys2Proof.Machine
end

section
/-! SUPPORT. Operation words (log 1): what the decoder gives in each of the table's spaces on the words the encoder
writes there, and that it gives an operation on no other word. -/

namespace Sys2Proof

@[simp] theorem portFits_iff (i : Nat) : portFits i = true ↔ i < 65536 := decide_eq_true_iff

@[simp] theorem countFits_iff (b : List Byte) : countFits b = true ↔ b.length < 65536 := decide_eq_true_iff

/-! ## The words of each space -/

section
variable {i : Nat} (hi : i < 65536)
include hi

/-- A word of the handlers' space, with its port number. -/
theorem decode_selH (code sub : Byte) (rest : List Byte) :
    decode (code :: selH :: sub :: (nat16 i ++ rest)) = decodeH code sub i rest :=
  congrArg (decodeH code sub · rest) (ofNat16_nat16 i hi)

theorem decode_selUid (uid : Byte) : decode (uid :: selUid :: nat16 i) = .ok (decodeUid uid i) :=
  congrArg (fun j => Decoded.ok (decodeUid uid j)) (ofNat16_nat16 i hi)

theorem decode_selPid (pid : Half) : decode (lo8 pid :: selPid :: hi8 pid :: nat16 i) = .ok (decodePid pid i) :=
  congrArg₂ (fun v j => Decoded.ok (decodePid v j)) (u16be_hi8_lo8 pid) (ofNat16_nat16 i hi)

end

/-! ## Counted operands -/

section
variable {w b : List Byte} (h : readCounted w = some b)
include h

theorem decodeH_rtuDec (i : Nat) : decodeH 4 2 i w = checked (.rtuDec ⟨i, b⟩) := by
  cases w with
  | nil => cases h
  | cons lo rest => simp [decodeH, h]

theorem decodeH_rspOk (i : Nat) : decodeH 4 3 i w = checked (.rspOk i b) := by
  cases w with
  | nil => cases h
  | cons lo rest => simp [decodeH, h]

theorem decodeCall_crc16 : decodeCall 0 w = checked (.crc16 b) := by simp [decodeCall, h]

theorem decodeCall_crcVerify : decodeCall 1 w = checked (.crcVerify b) := by simp [decodeCall, h]

theorem decodeCall_hdrParse {i : Nat} (hi : i < 65536) : decodeCall 2 (nat16 i ++ w) = checked (.hdrParse i b) := by
  simp [decodeCall, nat16, ofNat16_nat16 i hi, h]

end

theorem decodeCall_excBuild {i : Nat} (hi : i < 65536) (tid pid : Half) (uid fc ec : Byte) :
    decodeCall 3 (nat16 i ++ bytesBe tid ++ bytesBe pid ++ [uid, fc, ec]) =
      checked (.excBuild i tid pid uid fc ec) := by
  simp [decodeCall, nat16, bytesBe, ofNat16_nat16 i hi]

/-! ## The function-code map -/

theorem knownFc_iff (fc : Byte) : knownFc fc = true ↔ fc = 0x01 ∨ fc = 0x02 ∨ fc = 0x03 ∨ fc = 0x04 ∨ fc = 0x05 ∨
    fc = 0x06 ∨ fc = 0x0F ∨ fc = 0x10 := by simp [knownFc, or_assoc]

/-- An echoed code that differs is an exception reply, whatever the class of `fc` (41 R149). -/
theorem decodeFc_mismatch {fc rfc : Byte} (h : rfc ≠ fc) (third : Byte) :
    decodeFc fc (fc ^^^ rfc) third = .rlenExc fc rfc third := by
  have hxor : fc ^^^ rfc ≠ 0 := fun h0 => h (BitVec.xor_eq_zero_iff.mp h0).symm
  rw [decodeFc, if_pos (by simpa using hxor), xor_cancel_left]

theorem decodeFc_unknown {fc : Byte} (h : knownFc fc = false) (third : Byte) :
    decodeFc fc 0 third = .rlenOther fc third := by
  simp [knownFc] at h
  simp [decodeFc, h]

/-! ## Encoded operations decode -/

theorem checked_of_wellFormed {i : Instr} (h : WellFormed i = true) : checked i = .ok i := if_pos h

/-- Settles O1, operation by operation: the space and the code of the word select the operation, and its operands are
read back. -/
theorem encodedOperationDecodes : Obligations.EncodedOperationDecodes := by
  intro op hwf
  have hc := checked_of_wellFormed hwf
  cases op with
  | rlenExc fc rfc third => exact congrArg Decoded.ok (decodeFc_mismatch (by simpa [WellFormed] using hwf) third)
  | rlenOther fc third => exact congrArg Decoded.ok (decodeFc_unknown (by simpa [WellFormed] using hwf) third)
  | rlenFc01 third | rlenFc02 third | rlenFc03 third | rlenFc04 third => rfl
  | rlenFc05 third | rlenFc06 third | rlenFc0F third | rlenFc10 third => rfl
  | bwFetch | bwWrite | bwRdHdr | bwRdTrl | bwDeliver | bwQuiet => rfl
  | crc16 b =>
    have hb : b.length < 65536 := by simpa [WellFormed] using hwf
    exact (decodeCall_crc16 (readCounted_counted b hb)).trans hc
  | crcVerify f =>
    have hf : f.length < 65536 ∧ 2 ≤ f.length := by simpa [WellFormed] using hwf
    exact (decodeCall_crcVerify (readCounted_counted f hf.1)).trans hc
  | hdrParse i b =>
    obtain ⟨hi, hb⟩ : i < 65536 ∧ b.length ≤ reqMax := by simpa [WellFormed] using hwf
    exact (decodeCall_hdrParse (readCounted_counted b (hb.trans_lt (by decide))) hi).trans hc
  | excBuild i tid pid uid fc ec =>
    exact (decodeCall_excBuild (by simpa [WellFormed] using hwf) tid pid uid fc ec).trans hc
  | hOpen i | hRecv i | rtuEnc i | submit i | hAwait i | hSend i =>
    exact (decode_selH (by simpa [WellFormed] using hwf) _ _ []).trans hc
  | hClose i sending =>
    have hi : i < 65536 := by simpa [WellFormed] using hwf
    cases sending <;> exact (decode_selH hi _ _ []).trans hc
  | rtuDec t =>
    obtain ⟨hi, hr⟩ : t.handler < 65536 ∧ t.reply.length ≤ replyMax := by simpa [WellFormed] using hwf
    exact (decode_selH hi _ _ _).trans ((decodeH_rtuDec (readCounted_counted _ (hr.trans_lt (by decide))) _).trans hc)
  | rspOk i r =>
    obtain ⟨⟨hi, -⟩, hr⟩ : (i < 65536 ∧ 5 ≤ r.length) ∧ r.length ≤ replyMax := by simpa [WellFormed] using hwf
    exact (decode_selH hi _ _ _).trans ((decodeH_rspOk (readCounted_counted r (hr.trans_lt (by decide))) i).trans hc)
  | uidBcast i uid =>
    obtain ⟨hi, hu⟩ : i < 65536 ∧ bcastUid uid = true := by simpa [WellFormed] using hwf
    exact (decode_selUid hi uid).trans (congrArg Decoded.ok (if_pos hu))
  | uidUnicast i uid =>
    obtain ⟨hi, hu⟩ : i < 65536 ∧ bcastUid uid = false := by simpa [WellFormed] using hwf
    exact (decode_selUid hi uid).trans (congrArg Decoded.ok (if_neg (by simp [hu])))
  | pidModbus i => exact decode_selPid (by simpa [WellFormed] using hwf) 0
  | pidOther i pid =>
    obtain ⟨hi, hp⟩ : i < 65536 ∧ pid ≠ 0 := by simpa [WellFormed] using hwf
    exact (decode_selPid hi pid).trans (congrArg Decoded.ok (if_neg (by simpa using hp)))

/-! ## Only encoded operations decode -/

/-- `i` is well-formed, and `w` is the word it is written as. -/
def IsWordOf (w : List Byte) (i : Instr) : Prop := WellFormed i = true ∧ encode i = w

theorem isWordOf_of_checked {w : List Byte} {i j : Instr} (he : encode j = w) (h : checked j = .ok i) :
    IsWordOf w i := by
  unfold checked at h
  split at h
  · cases h; exact ⟨‹_›, he⟩
  · cases h

theorem decodeFc_isWordOf (fc echo third : Byte) : IsWordOf [fc, selFc, echo, third] (decodeFc fc echo third) := by
  by_cases hecho : echo = 0
  · subst hecho
    cases hk : knownFc fc with
    | false => rw [decodeFc_unknown hk]; exact ⟨by simp [WellFormed, hk], rfl⟩
    | true => obtain rfl | rfl | rfl | rfl | rfl | rfl | rfl | rfl := (knownFc_iff fc).mp hk <;> exact ⟨rfl, rfl⟩
  · have hne : fc ^^^ echo ≠ fc := fun h => hecho (by simpa [h] using (xor_cancel_left fc echo).symm)
    have hdec : decodeFc fc echo third = .rlenExc fc (fc ^^^ echo) third := by
      simpa only [xor_cancel_left] using decodeFc_mismatch hne third
    rw [hdec]
    exact ⟨bne_iff_ne.mpr hne, by simp [encode]⟩

theorem decodeW_isWordOf {code : Byte} {ops : List Byte} {i : Instr} (h : decodeW code ops = .ok i) :
    IsWordOf (code :: selW :: ops) i := by
  cases ops with
  | cons b rest => cases h
  | nil =>
    unfold decodeW at h
    split_ifs at h <;> rename_i hcode <;> cases h <;> cases eq_of_beq hcode <;> exact ⟨rfl, rfl⟩

theorem decodeH_isWordOf {code sub il ih : Byte} {rest : List Byte} {i : Instr}
    (h : decodeH code sub (ofNat16 il ih) rest = .ok i) : IsWordOf (code :: selH :: sub :: il :: ih :: rest) i := by
  unfold decodeH at h
  cases rest with
  | nil =>
    dsimp only at h
    split_ifs at h <;> rename_i hcode
    all_goals
      obtain ⟨rfl, rfl⟩ : code = _ ∧ sub = _ := by simpa using hcode
      exact isWordOf_of_checked (by simp [encode, nat16_ofNat16]) h
  | cons lo more =>
    dsimp only at h
    split_ifs at h <;> rename_i hcode
    all_goals
      obtain ⟨rfl, rfl⟩ : code = _ ∧ sub = _ := by simpa using hcode
      split at h
      · obtain ⟨hr, -⟩ := counted_of_readCounted _ _ ‹_›
        exact isWordOf_of_checked (by simp [encode, nat16_ofNat16, hr]) h
      · cases h

theorem decodeCall_isWordOf {code : Byte} {ops : List Byte} {i : Instr} (h : decodeCall code ops = .ok i) :
    IsWordOf (code :: selCall :: ops) i := by
  unfold decodeCall at h
  split_ifs at h with h0 h1 h2 h3
  · obtain rfl := eq_of_beq h0
    split at h
    · obtain ⟨hb, -⟩ := counted_of_readCounted _ _ ‹_›
      exact isWordOf_of_checked (by simp [encode, hb]) h
    · cases h
  · obtain rfl := eq_of_beq h1
    split at h
    · obtain ⟨hb, -⟩ := counted_of_readCounted _ _ ‹_›
      exact isWordOf_of_checked (by simp [encode, hb]) h
    · cases h
  · obtain rfl := eq_of_beq h2
    split at h
    · split at h
      · obtain ⟨hb, -⟩ := counted_of_readCounted _ _ ‹_›
        exact isWordOf_of_checked (by simp [encode, nat16_ofNat16, hb]) h
      · cases h
    · cases h
  · obtain rfl := eq_of_beq h3
    split at h
    · exact isWordOf_of_checked (by simp [encode, nat16_ofNat16, bytesBe]) h
    · cases h

theorem decodeUid_isWordOf (uid il ih : Byte) : IsWordOf [uid, selUid, il, ih] (decodeUid uid (ofNat16 il ih)) := by
  have hi := ofNat16_lt il ih
  unfold decodeUid
  split <;> exact ⟨by simp_all [WellFormed], by simp [encode, nat16_ofNat16]⟩

theorem decodePid_isWordOf (code ph il ih : Byte) :
    IsWordOf [code, selPid, ph, il, ih] (decodePid (u16be ph code) (ofNat16 il ih)) := by
  have hi := ofNat16_lt il ih
  unfold decodePid
  split
  · obtain ⟨rfl, rfl⟩ := (u16be_eq_zero ph code).mp (eq_of_beq ‹_›)
    exact ⟨by simpa [WellFormed] using hi, by simp [encode, nat16_ofNat16]⟩
  · exact ⟨by simp_all [WellFormed], by simp [encode, nat16_ofNat16]⟩

/-- Settles O2, by the space that the word's second byte selects. -/
theorem decodedWordIsItsEncoding : Obligations.DecodedWordIsItsEncoding := by
  intro w i h
  unfold decode at h
  split at h
  · split_ifs at h with h0 h1 h2 h3 h4 h5
    · obtain rfl := eq_of_beq h0
      split at h
      · cases h; exact decodeFc_isWordOf ..
      · cases h
    · obtain rfl := eq_of_beq h1
      exact decodeW_isWordOf h
    · obtain rfl := eq_of_beq h2
      split at h
      · exact decodeH_isWordOf h
      · cases h
    · obtain rfl := eq_of_beq h3
      split at h
      · cases h; exact decodeUid_isWordOf ..
      · cases h
    · obtain rfl := eq_of_beq h4
      split at h
      · cases h; exact decodePid_isWordOf ..
      · cases h
    · obtain rfl := eq_of_beq h5
      exact decodeCall_isWordOf h
  · cases h

end Sys2Proof
end

section
/-! SUPPORT. What the operations of the classes do: the function-code classes infer the reply length (30_encoding R95),
the unit-id classes write `bc` (R96), the protocol-id classes accept the request or end the connection (R97). -/

namespace Sys2Proof.Machine

/-! ## The function-code classes -/

theorem rlen_unknown {fc : Byte} (h : knownFc fc = false) (third : Byte) : rlen fc fc third = 0 := by
  simp [knownFc] at h
  simp [rlen, h]

theorem inferred_of {s : State} (hs : s.w.state = .rdHdr) (tlen : BitVec 9) :
    s.inferred tlen = .next { s with w := { s.w with tlen := tlen } } := if_pos hs

/-- The operation of a function-code word infers `RLEN` of the codes it carries (30_encoding R95, 41 R148). -/
theorem exec_decodeFc (fc rfc third : Byte) (s : State) :
    exec (decodeFc fc (fc ^^^ rfc) third) s = s.inferred (rlen fc rfc third) := by
  by_cases hrfc : rfc = fc
  · subst hrfc
    have hxor : rfc ^^^ rfc = 0 := BitVec.xor_self
    rw [hxor]
    cases hk : knownFc rfc with
    | false => rw [decodeFc_unknown hk, rlen_unknown hk]; rfl
    | true => obtain rfl | rfl | rfl | rfl | rfl | rfl | rfl | rfl := (knownFc_iff rfc).mp hk <;> rfl
  · rw [decodeFc_mismatch hrfc, rlen, if_pos hrfc]; rfl

/-- Settles O4: the word's operation is the function-code map's. -/
theorem codeMapWordsInferLength : Obligations.CodeMapWordsInferLength := fun fc rfc third =>
  ⟨_, rfl, fun s hs => (exec_decodeFc fc rfc third s).trans (inferred_of hs _)⟩

/-! ## The unit-id and protocol-id classes -/

theorem classified_of {i : Nat} {s : State} {h : Handler} (hh : s.handlers[i]? = some h) (hs : h.state = .decode)
    (bc : Bool) : s.classified i bc = .next (s.setHandler i { h with bc := bc }) :=
  (withHandler_of _ hh).trans (if_pos hs)

theorem decodeUid_eq (uid : Byte) (i : Nat) :
    decodeUid uid i = if uid = 0x00 ∨ uid = 0xFF then .uidBcast i uid else .uidUnicast i uid := by
  simp [decodeUid, bcastUid]

/-- A protocol id other than 0 ends the connection (60_exceptions R253). -/
theorem exec_pidOther_closes {i : Nat} {s : State} {h : Handler} {p : ClientPort} (hh : s.handlers[i]? = some h)
    (hp : s.ports[i]? = some p) (hs : h.state = .recv) (pid : Half) :
    exec (.pidOther i pid) s = .next { s with
      handlers := s.handlers.set i { h with state := .closed },
      ports := s.ports.set i { p with inbound := [], sendAns := [] },
      trace := s.trace ++ [⟨s.now, .flag (.hdrErr (some .unsupportedProtocol))⟩,
        ⟨s.now, .event (.handler i) .unsupportedProtocol⟩, ⟨s.now, .cliClose i⟩] } := by
  refine (withHandler_of _ hh).trans ((if_pos hs).trans ?_)
  rw [raise_unsupportedProtocol, emit_closeConnection _ (by exact hh)]
  simp [State.cross, modify_eq_set _ hp]

/-- Settles O34, class by class. -/
theorem unitAndProtocolClasses : Obligations.UnitAndProtocolClasses := by
  refine ⟨fun s i h uid hh hs => ⟨classified_of hh hs true, classified_of hh hs false⟩,
    fun uid il ih => congrArg Decoded.ok (decodeUid_eq uid _), fun s i h p pid hh hp hs => ⟨?_, ?_⟩⟩
  · exact (withHandler_of _ hh).trans (if_pos hs)
  · exact exec_pidOther_closes hh hp hs pid

end Sys2Proof.Machine
end

section
/-! SUPPORT. The transaction of a broadcast: written, not read, not answered (30_encoding R96, 42 R172, 43 R205). -/

namespace Sys2Proof.Machine

section
variable {s : State} {x : Task}

/-- BW.WRITE of a broadcast that the device has written: the empty reply, and no window (42 R172). -/
theorem exec_bwWrite_broadcast {as : List IoResult} (hs : s.w.state = .write) (ht : s.w.task = some x)
    (hb : x.isBroadcast = true) (ha : s.ser.writeAns = .ok :: as) :
    exec .bwWrite s = .next { s with
      rxpend := if s.cfg.rxStale = .flush then [] else s.rxpend,
      ser := { s.ser with writeAns := as },
      trace := s.trace ++ [⟨s.now, .serWrite x.frame .ok⟩],
      w := { s.w with reply := [], state := .deliver, timer := s.w.timer.stop } } := by
  simp [exec, execBwWrite, hs, ht, ha, hb, flushStale_eq, State.setPending, State.setSerial, State.cross, State.finish,
    State.setWorker]

/-- BW.DELIVER of a held task (42 R176). -/
theorem exec_bwDeliver_of {h : Handler} (hs : s.w.state = .deliver) (ht : s.w.task = some x)
    (hh : s.handlers[x.src]? = some h) :
    exec .bwDeliver s = .next { s with
      handlers := s.handlers.set x.src { h with rslot := some s.w.reply },
      w := { s.w with task := none, timer := Timer.start s.cfg.tIfd, state := .quiet } } := by
  simp [exec, execBwDeliver, hs, ht, State.deliver, State.modifyHandler, State.setWorker, modify_eq_set _ hh]

/-- H.AWAIT and RTUDEC of a broadcast's reply (43 R205). -/
theorem perform_hAwait_broadcast {i : Nat} {h : Handler} {r : List Byte} (hh : s.handlers[i]? = some h)
    (hs : h.state = .await) (hr : h.rslot = some r) (hb : h.bc = true) :
    perform (.hAwait i) s = .next { s with handlers := s.handlers.set i { h with rslot := none, state := .recv } } := by
  have hawait : exec (.hAwait i) s = .next (s.setHandler i { h with rslot := none, state := .decode }) := by
    refine (withHandler_of _ hh).trans ?_
    simp only [hs, hr, if_true]
  refine (perform_hAwait hh hs hr hawait).trans ((withHandler_of _ (getElem?_set_of_some hh _)).trans ?_)
  simp [State.setHandler, hb]

variable {rest : List Item}

/-- The step that writes a broadcast opens no read window (42 R172). -/
theorem step_writes_broadcast {as : List IoResult} (hs : s.w.state = .write) (ht : s.w.task = some x)
    (hb : x.isBroadcast = true) (ha : s.ser.writeAns = .ok :: as) (hscript : s.script = .turn .worker :: rest) :
    ∃ t, step s = .next t ∧ t.w.state = .deliver ∧ t.w.task = some x ∧ t.handlers = s.handlers ∧
      t.trace = s.trace ++ [⟨s.now, .serWrite x.frame .ok⟩] ∧ t.script = rest :=
  ⟨_, (step_turn_worker hscript hs).trans (exec_bwWrite_broadcast (s := { s with script := rest }) hs ht hb ha),
    rfl, ht, rfl, rfl, rfl⟩

/-- The step that delivers crosses no port (42 R176). -/
theorem step_delivers {h : Handler} (hs : s.w.state = .deliver) (ht : s.w.task = some x)
    (hh : s.handlers[x.src]? = some h) (hscript : s.script = .turn .worker :: rest) :
    ∃ t, step s = .next t ∧ t.w.state = .quiet ∧ t.w.task = none ∧
      t.handlers[x.src]? = some { h with rslot := some s.w.reply } ∧ t.trace = s.trace ∧ t.script = rest :=
  ⟨_, (step_turn_worker hscript hs).trans (exec_bwDeliver_of (s := { s with script := rest }) hs ht hh),
    rfl, rfl, getElem?_set_of_some hh _, rfl, rfl⟩

/-- The step that takes a broadcast's reply makes its handler receive and crosses no port (43 R205). -/
theorem step_ends_broadcast {i : Nat} {h : Handler} {r : List Byte} (hh : s.handlers[i]? = some h)
    (hs : h.state = .await) (hr : h.rslot = some r) (hb : h.bc = true)
    (hscript : s.script = .turn (.handler i) :: rest) :
    ∃ t, step s = .next t ∧ t.w = s.w ∧ t.trace = s.trace ∧ ∃ h', t.handlers[i]? = some h' ∧ h'.state = .recv :=
  ⟨_, (step_scheduled hscript).trans ((issue_turn_handler (s := { s with script := rest }) hh
      (congrArg (HState.select i) hs)).trans (perform_hAwait_broadcast hh hs hr hb)),
    rfl, rfl, _, getElem?_set_of_some hh _, rfl⟩

end

/-- Settles O59, turn by turn: the write, the delivery of the empty reply, and the pass that takes it. -/
theorem broadcastRunsSilently : Obligations.BroadcastRunsSilently := by
  intro s x as rest hi hs ht hb ha hscript
  obtain ⟨h, hh, hawait, -, -, hbc⟩ := hi.owned x (by rw [tasks_of_held ht]; exact List.mem_cons_self)
  obtain ⟨t, hwrite, hs, ht, hht, htrace, hscript⟩ := step_writes_broadcast hs ht hb ha hscript
  obtain ⟨u, hdeliver, hus, hut, huh, hutrace, hscript⟩ := step_delivers hs ht (hht ▸ hh) hscript
  obtain ⟨v, hend, hvw, hvtrace, hvh⟩ := step_ends_broadcast huh hawait rfl (hbc ▸ hb) hscript
  refine ⟨v, ?_, by rw [hvtrace, hutrace, htrace], hvw ▸ hus, hvw ▸ hut, hvh⟩
  exact (run_succ_of_step (M := Sys2Proof.core) hwrite).trans
    ((run_succ_of_step (M := Sys2Proof.core) hdeliver).trans (run_succ_of_step (M := Sys2Proof.core) hend))

end Sys2Proof.Machine
end

section
/-! SUPPORT. The checksum (40_frame_codec_crc): its forms are one function, the residue of a frame under it, and its
two operations. -/

namespace Sys2Proof.Machine

/-! ## The general form with the default parameters (40 R121, R124) -/

theorem reverse_xor {n : Nat} (x y : BitVec n) : (x ^^^ y).reverse = x.reverse ^^^ y.reverse := by
  ext i hi
  simp only [BitVec.getElem_xor, BitVec.getElem_reverse, BitVec.getMsbD_xor]

theorem reverse_shiftLeft_one (acc : Half) : (acc <<< 1).reverse = acc.reverse >>> 1 := by
  ext i hi
  rw [BitVec.getElem_reverse, BitVec.getElem_ushiftRight, BitVec.getLsbD_reverse, BitVec.getMsbD_shiftLeft,
    Nat.add_comm]

/-- A shift to the left is a shift to the right of the reversed accumulator, by the reversed polynomial. -/
theorem reverse_crcShiftLeft (acc : Half) :
    (crcShiftLeft CrcParams.modbus.poly acc).reverse = crcShiftRight acc.reverse := by
  have hpoly : CrcParams.modbus.poly.reverse = 0xA001 := by decide
  have hbit : acc.reverse.getLsbD 0 = acc.getLsbD 15 := BitVec.getLsbD_reverse
  rw [crcShiftLeft, crcShiftRight, hbit, ← reverse_shiftLeft_one]
  split
  · rw [reverse_xor, hpoly]
  · rfl

theorem reverse_repeat8_crcShiftLeft (acc : Half) :
    (repeat8 (crcShiftLeft CrcParams.modbus.poly) acc).reverse = repeat8 crcShiftRight acc.reverse := by
  simp only [repeat8, reverse_crcShiftLeft]

/-- A reflected byte enters at the other end of the accumulator. -/
theorem reverse_setWidth_shiftLeft (b : Byte) : (b.reverse.setWidth 16 <<< 8).reverse = b.setWidth 16 := by
  ext i hi
  rw [BitVec.getElem_reverse, BitVec.getMsbD_shiftLeft, BitVec.getMsbD_setWidth, BitVec.getMsbD_reverse,
    BitVec.getElem_setWidth]
  simp

theorem reverse_crcGeneralByte (acc : Half) (b : Byte) :
    (crcGeneralByte CrcParams.modbus acc b).reverse = crcReflectedByte acc.reverse b := by
  have hrefin : (if CrcParams.modbus.refin then b.reverse else b) = b.reverse := rfl
  rw [crcGeneralByte, hrefin, reverse_repeat8_crcShiftLeft, reverse_xor, reverse_setWidth_shiftLeft, crcReflectedByte]

theorem crc16_modbus (b : List Byte) : crc16 CrcParams.modbus b = crc16Reflected b := by
  have hout : crc16 CrcParams.modbus b = (b.foldl (crcGeneralByte CrcParams.modbus) 0xFFFF).reverse := BitVec.xor_zero
  have hinit : (0xFFFF : Half).reverse = 0xFFFF := by decide
  rw [hout, ← List.foldl_hom BitVec.reverse fun acc b => (reverse_crcGeneralByte acc b).symm, hinit, crc16Reflected]

/-! ## The bit-serial and the byte-parallel form (40 R123) -/

/-- One shift takes in the lowest bit of what was added and leaves the rest for the shifts to come. -/
theorem crcShiftRight_xor (acc z : Half) :
    crcShiftRight (acc ^^^ z) = crcSerialBit acc (z.getLsbD 0) ^^^ (z >>> 1) := by
  simp only [crcShiftRight, crcSerialBit, BitVec.getLsbD_xor, BitVec.ushiftRight_xor_distrib]
  split
  · rw [BitVec.xor_assoc, BitVec.xor_comm (z >>> 1), BitVec.xor_assoc]
  · rfl

theorem repeat8_crcShiftRight_xor (acc z : Half) :
    repeat8 crcShiftRight (acc ^^^ z) = (bitsLsbFirst (z.setWidth 8)).foldl crcSerialBit acc ^^^ (z >>> 8) := by
  simp [repeat8, crcShiftRight_xor, bitsLsbFirst, List.range_succ, ← BitVec.shiftRight_add]

theorem setWidth_shiftRight_eight (b : Byte) : b.setWidth 16 >>> 8 = 0#16 := by
  ext i hi
  simp

theorem crcReflectedByte_eq_serial (acc : Half) (b : Byte) :
    crcReflectedByte acc b = (bitsLsbFirst b).foldl crcSerialBit acc := by
  rw [crcReflectedByte, repeat8_crcShiftRight_xor, setWidth_shiftRight_eight, BitVec.xor_zero,
    BitVec.setWidth_setWidth_of_le _ (by decide), BitVec.setWidth_eq]

theorem crc16Serial_eq (b : List Byte) : crc16Serial b = crc16Reflected b := by
  have hbyte : crcReflectedByte = fun acc b => (bitsLsbFirst b).foldl crcSerialBit acc :=
    funext₂ crcReflectedByte_eq_serial
  rw [crc16Serial, List.foldl_flatMap, crc16Reflected, hbyte]

/-- The table holds what the bits of a byte bring the accumulator to from 0. -/
theorem crcTable_eq_serial (j : Byte) : crcTable j = (bitsLsbFirst j).foldl crcSerialBit 0#16 := by
  rw [← crcReflectedByte_eq_serial, crcReflectedByte, BitVec.zero_xor, crcTable]

theorem crcTableByte_eq (acc : Half) (b : Byte) : crcTableByte acc b = crcReflectedByte acc b := by
  have hparts := repeat8_crcShiftRight_xor 0#16 (acc ^^^ b.setWidth 16)
  rw [BitVec.zero_xor, ← crcTable_eq_serial, BitVec.ushiftRight_xor_distrib, setWidth_shiftRight_eight,
    BitVec.xor_zero] at hparts
  rw [crcReflectedByte, hparts, crcTableByte, BitVec.xor_comm]

theorem crc16Parallel_eq (b : List Byte) : crc16Parallel b = crc16Reflected b := by
  have hbyte : crcTableByte = crcReflectedByte := funext₂ crcTableByte_eq
  rw [crc16Parallel, hbyte, crc16Reflected]

/-- Settles O23: reversing the general form gives the reflected one, and what eight shifts take in is a byte's bits. -/
theorem checksumFormsAgree : Obligations.ChecksumFormsAgree := fun b =>
  ⟨crc16_modbus b, crc16Serial_eq b, crc16Parallel_eq b⟩

/-! ## The residue (40 R126) -/

theorem shiftRight_shiftLeft_one {x : Half} (hx : x.getLsbD 0 = false) : x >>> 1 <<< 1 = x := by
  ext i hi
  cases i with
  | zero => simpa using hx.symm
  | succ i => simp [Nat.add_comm, BitVec.getLsbD_eq_getElem hi]

theorem shiftLeft_shiftRight_one {y : Half} (hy : y.getLsbD 15 = false) : y <<< 1 >>> 1 = y := by
  ext i hi
  by_cases hlast : i = 15
  · subst hlast
    simpa using hy.symm
  · have hi' : 1 + i < 16 := by omega
    simp [hi']

/-- A shift whose result has bit 15 clear has not added the polynomial, so it can be undone. -/
theorem crcShiftRight_eq_iff {x y : Half} (hy : y.getLsbD 15 = false) : crcShiftRight x = y ↔ x = y <<< 1 := by
  constructor
  · rintro rfl
    cases hx : x.getLsbD 0 with
    | true => simp [crcShiftRight, hx] at hy
    | false => rw [crcShiftRight, hx, if_neg Bool.false_ne_true, shiftRight_shiftLeft_one hx]
  · rintro rfl
    have hclear : (y <<< 1).getLsbD 0 = false := by simp
    rw [crcShiftRight, hclear, if_neg Bool.false_ne_true, shiftLeft_shiftRight_one hy]

/-- Shifts are undone while the bits that come down from the top are clear. -/
theorem iterate_crcShiftRight_eq_iff {y : Half} (x : Half) {n : Nat} (hy : ∀ k < n, (y <<< k).getLsbD 15 = false) :
    crcShiftRight^[n] x = y ↔ x = y <<< n := by
  induction n generalizing x with
  | zero => rw [Function.iterate_zero_apply, BitVec.shiftLeft_zero]
  | succ n ih =>
    rw [Function.iterate_succ_apply, ih _ fun k hk => hy k (by omega), crcShiftRight_eq_iff (hy n (by omega)),
      BitVec.shiftLeft_add]

theorem repeat8_crcShiftRight_eq_iff (x : Half) (b : Byte) :
    repeat8 crcShiftRight x = b.setWidth 16 ↔ x = b.setWidth 16 <<< 8 := by
  have hclear : ∀ k < 8, (b.setWidth 16 <<< k : Half).getLsbD 15 = false := by
    intro k hk
    have hhigh : b.getLsbD (15 - k) = false := BitVec.getLsbD_of_ge _ _ (by omega)
    simp [hhigh]
  exact iterate_crcShiftRight_eq_iff (n := 8) x hclear

theorem shiftLeft_xor_eq_u16be (hi lo : Byte) : (hi.setWidth 16 <<< 8) ^^^ lo.setWidth 16 = u16be hi lo := by
  ext i h
  by_cases hlow : i < 8
  · simp [u16be, hlow]
  · simp [u16be, BitVec.getLsbD_of_ge lo i (by omega)]

theorem eq_u16be_iff (v : Half) (hi lo : Byte) : v = u16be hi lo ↔ lo8 v = lo ∧ hi8 v = hi := by
  constructor
  · rintro rfl
    exact ⟨lo8_u16be hi lo, hi8_u16be hi lo⟩
  · rintro ⟨rfl, rfl⟩
    exact (u16be_hi8_lo8 v).symm

/-- A byte leaves the high half of the accumulator clear exactly when it is the low byte of what stood there; what
remains is then the high byte. -/
theorem crcReflectedByte_eq_iff (acc : Half) (lo hi : Byte) :
    crcReflectedByte acc lo = hi.setWidth 16 ↔ lo8 acc = lo ∧ hi8 acc = hi := by
  rw [crcReflectedByte, repeat8_crcShiftRight_eq_iff, ← BitVec.xor_left_inj (lo.setWidth 16), BitVec.xor_assoc,
    BitVec.xor_self, BitVec.xor_zero, shiftLeft_xor_eq_u16be, eq_u16be_iff]

theorem crcReflectedByte_eq_zero_iff (acc : Half) (b : Byte) : crcReflectedByte acc b = 0 ↔ acc = b.setWidth 16 :=
  (repeat8_crcShiftRight_eq_iff _ 0).trans BitVec.xor_eq_zero_iff

/-- The last two bytes bring the checksum to zero exactly when they are what the bytes before them brought it to. -/
theorem crc16Reflected_append_eq_zero_iff (body : List Byte) (lo hi : Byte) :
    crc16Reflected (body ++ [lo, hi]) = 0 ↔ lo8 (crc16Reflected body) = lo ∧ hi8 (crc16Reflected body) = hi := by
  have hsplit : crc16Reflected (body ++ [lo, hi]) = crcReflectedByte (crcReflectedByte (crc16Reflected body) lo) hi :=
    List.foldl_append
  rw [hsplit, crcReflectedByte_eq_zero_iff, crcReflectedByte_eq_iff]

/-- Settles O24, by undoing the shifts of the last two bytes. -/
theorem verifiedMeansZeroRemainder : Obligations.VerifiedMeansZeroRemainder := by
  intro f hf
  obtain ⟨body, lo, hi, rfl⟩ := exists_body f hf
  rw [crcVerify_append, decide_eq_true_iff, crc16_modbus, crc16_modbus]
  exact (crc16Reflected_append_eq_zero_iff body lo hi).symm

/-! ## The operations (40 R120, R126, R127) -/

/-- CRC16 writes the accumulator and nothing else (40 R120). -/
theorem exec_crc16 (b : List Byte) (s : State) :
    exec (.crc16 b) s = .next { s with codec := { acc := crc16 s.cfg.crc b } } := rfl

/-- CRCVERIFY of a body and two bytes compares the checksum of the body with them (40 R126). -/
theorem exec_crcVerify_append (body : List Byte) (lo hi : Byte) (s : State) :
    exec (.crcVerify (body ++ [lo, hi])) s = .next { s with
      codec := { acc := crc16 s.cfg.crc body },
      trace := s.trace ++ [⟨s.now, .flag (.crcOk
        (decide (lo8 (crc16 s.cfg.crc body) = lo ∧ hi8 (crc16 s.cfg.crc body) = hi)))⟩] } := by
  have hlen : ¬(body ++ [lo, hi]).length < 2 := by simp
  refine (if_neg hlen).trans ?_
  rw [crcVerify_append, State.runVerify, take_body]
  rfl

/-- Settles O25: under the default parameters the value written is the reflected form's. -/
theorem checksumIsAccumulated : Obligations.ChecksumIsAccumulated := fun b s =>
  ⟨exec_crc16 b s, fun hdefault => by rw [exec_crc16, hdefault, crc16_modbus]⟩

/-- Settles O26, by whether the frame holds two bytes. -/
theorem verifyComparesLastTwoBytes : Obligations.VerifyComparesLastTwoBytes :=
  ⟨exec_crcVerify_append, fun _ _ hshort => if_pos hshort⟩

/-- Settles O22: the two bytes compared are the ones appended. -/
theorem checksumRoundTrip : Obligations.ChecksumRoundTrip := by
  refine ⟨fun b s => ?_, ?_⟩
  · rw [exec_crcVerify_append, decide_eq_true ⟨rfl, rfl⟩]
  · exact (crcVerify_append CrcParams.modbus [] 0xFF 0xFF).trans (by decide)

end Sys2Proof.Machine
end

section
/-! SUPPORT. The Frame Codec's operations on a header and on a reply's first three bytes: the header parser
(41 R140 to R144) and the reply-length inference (41 R148 to R158). -/

namespace Sys2Proof.Machine

/-! ## The header parser -/

section
variable {i : Nat} {b : List Byte} {s : State} {h : Handler}

/-- HDRPARSE of bytes that the parser rejects ends the connection (41 R141, 60_exceptions R253). -/
theorem exec_hdrParse_of_error {p : ClientPort} {e : HdrErr} (hh : s.handlers[i]? = some h) (hp : s.ports[i]? = some p)
    (hs : h.state = .recv) (hparse : hdrParse b = .error e) :
    exec (.hdrParse i b) s = .next { s with
      handlers := s.handlers.set i { h with state := .closed },
      ports := s.ports.set i { p with inbound := [], sendAns := [] },
      trace := s.trace ++ [⟨s.now, .flag (.hdrErr (some e))⟩, ⟨s.now, .event (.handler i) e.kind⟩,
        ⟨s.now, .cliClose i⟩] } := by
  refine (withHandler_of _ hh).trans ((if_pos hs).trans ?_)
  dsimp only
  rw [hparse]
  dsimp only
  rw [raise_hdrErr, emit_closeConnection _ (by exact hh)]
  simp [State.cross, HdrResult.flag, modify_eq_set _ hp]

/-- HDRPARSE of bytes that the parser accepts stores what it gives (41 R143). -/
theorem exec_hdrParse_of_fields {tid pid len : Half} {uid : Byte} (hh : s.handlers[i]? = some h)
    (hs : h.state = .recv) (hparse : hdrParse b = .fields tid pid len uid) :
    exec (.hdrParse i b) s = .next { s with
      trace := s.trace ++ [⟨s.now, .flag (.hdrErr none)⟩],
      handlers := s.handlers.set i { h with tid := tid, pid := pid, len := len, uid := uid } } := by
  refine (withHandler_of _ hh).trans ((if_pos hs).trans ?_)
  dsimp only
  rw [hparse]
  rfl

end

/-- HDRPARSE uses its bytes only through what the parser gives. -/
theorem exec_hdrParse_congr {b b' : List Byte} (hparse : hdrParse b = hdrParse b') (i : Nat) (s : State) :
    exec (.hdrParse i b) s = exec (.hdrParse i b') s := by
  show execHdrParse i b s = execHdrParse i b' s
  rw [execHdrParse, execHdrParse, hparse]

/-- Settles O29, error by error. -/
theorem headerErrorsClose : Obligations.HeaderErrorsClose := by
  intro s i h p hh hp hs
  refine ⟨fun b hshort => ?_, fun t0 t1 p0 p1 l0 l1 u rest hpid => ?_, fun t0 t1 l0 l1 u rest hlen => ?_⟩
  · exact exec_hdrParse_of_error hh hp hs (hdrParse_short b hshort)
  · exact exec_hdrParse_of_error hh hp hs (hdrParse_protocol t0 t1 p0 p1 l0 l1 u rest hpid)
  · exact exec_hdrParse_of_error hh hp hs (hdrParse_length t0 t1 l0 l1 u rest hlen)

/-- Settles O27: the parser accepts the header. -/
theorem headerIsParsed : Obligations.HeaderIsParsed := fun _ _ _ t0 t1 l0 l1 u rest hh hs hlo hhi =>
  exec_hdrParse_of_fields hh hs (hdrParse_fields t0 t1 l0 l1 u rest hlo hhi)

/-- Settles O28: the parser's result names no byte of the rest. -/
theorem parserStopsAtByteSix : Obligations.ParserStopsAtByteSix := fun s i _ _ _ _ _ _ _ _ _ =>
  exec_hdrParse_congr rfl i s

/-! ## The reply-length inference -/

theorem readTypeLen_eq_ofNat (third : Byte) : readTypeLen third = BitVec.ofNat 9 (third.toNat + 2) := by
  rw [← readTypeLen_toNat, BitVec.ofNat_toNat, BitVec.setWidth_eq]

/-- Settles O30, code by code. -/
theorem writeTypeReplyLengths : Obligations.WriteTypeReplyLengths := fun _ _ hs =>
  have hinfer := inferred_of hs 5
  ⟨⟨hinfer, rfl⟩, ⟨hinfer, rfl⟩, ⟨hinfer, rfl⟩, ⟨hinfer, rfl⟩⟩

/-- Settles O31, class by class. -/
theorem otherReplyLengths : Obligations.OtherReplyLengths := by
  intro s fc rfc third hs
  rw [← readTypeLen_eq_ofNat]
  have hread := inferred_of hs (readTypeLen third)
  exact ⟨⟨hread, hread, hread, hread⟩, readTypeLen_toNat third, inferred_of hs 2, inferred_of hs 0⟩

end Sys2Proof.Machine
end

section
/-! SUPPORT. The Bus Worker's operations on the arguments the statements use them with: a window that opens with time
left, the whole next state of each operation (42 R171 to R177), and the transitions they make (R178). -/

namespace Sys2Proof.Machine

/-! ## Windows with time left -/

/-- A window whose time has not ended closes only by an error or by the count of `n` bytes (10_state R47). -/
theorem settle_timeLeft {s : State} {n : Nat} (ho : s.windowOpen = true) (hn : s.asked = n)
    (hleft : s.w.timer.left ≠ 0) :
    s.settle = { s with
      rxpend := if s.ser.rxFail = true ∨ n ≤ s.rxpend.length then s.rxpend.drop n else s.rxpend,
      ser := { s.ser with
        rxFail := false,
        readAns := if s.ser.rxFail = true then some .failed
          else if n ≤ s.rxpend.length then some (.got (s.rxpend.take n)) else none } } := by
  subst hn
  have hexp : s.w.timer.expired = false := Bool.eq_false_iff.mpr fun h => hleft ((Timer.expired_iff _).mp h).2
  have hnone := ((windowOpen_iff s).mp ho).2
  cases hfail : s.ser.rxFail with
  | true => rw [settle_ended (r := .failed) ho rfl (by simp [readEnds, hfail])]; simp
  | false =>
    by_cases hle : s.asked ≤ s.rxpend.length
    · rw [settle_ended (r := .got (s.rxpend.take s.asked)) ho rfl (by simp [readEnds, hfail, hle])]
      simp [hle]
    · rw [settle_waiting (readEnds_none.mpr ⟨hfail, Nat.not_le.mp hle, hexp⟩)]
      simp only [Bool.false_eq_true, hle, or_self, if_false]
      rw [← hfail, ← hnone]

/-- A window for `n` bytes opens with its whole time left (42 R173, 10_state R48). -/
theorem openWindow_eq {st : WState} {s : State} {n : Nat} (hts : s.cfg.tSer ≠ 0) (hst : st = .rdHdr ∨ st = .rdTrl)
    (hn : State.asked { s with w := { s.w with state := st } } = n) :
    s.openWindow st = .next { s with
      rxpend := if s.ser.rxFail = true ∨ n ≤ s.rxpend.length then s.rxpend.drop n else s.rxpend,
      ser := {
        writeAns := s.ser.writeAns, rxFail := false, tie := false,
        readAns := if s.ser.rxFail = true then some .failed
          else if n ≤ s.rxpend.length then some (.got (s.rxpend.take n)) else none },
      w := { s.w with state := st, timer := Timer.start s.cfg.tSer } } := by
  have hopen := (windowOpen_iff ((s.setWorker { s.w with state := st, timer := Timer.start s.cfg.tSer }).setSerial
    { s.ser with readAns := none, tie := false })).mpr ⟨hst, rfl⟩
  rw [openWindow_of hts, settle_timeLeft hopen hn hts]
  rfl

section
variable {s : State} {x : Task}

/-! ## BW.FETCH -/

/-- BW.FETCH takes the head of the queue (42 R171). -/
theorem exec_bwFetch_of {xs : List Task} (hs : s.w.state = .idle) (hq : s.q = x :: xs) :
    exec .bwFetch s = .next { s with q := xs, w := { s.w with task := some x, state := .write } } := by
  simp only [exec, execBwFetch, State.dequeue, hs, hq, if_true]
  rfl

theorem exec_bwFetch_waits (hw : s.w.state ≠ .idle ∨ s.q = []) : exec .bwFetch s = .next s := by
  obtain hs | hq := hw
  · exact exec_select_waits (st := .idle) hs
  · simp only [exec, execBwFetch, State.dequeue, hq, waits, ite_self]

/-- Settles O35, by whether a task waits. -/
theorem fetchTakesOldestTask : Obligations.FetchTakesOldestTask := fun _ =>
  ⟨fun _ _ => exec_bwFetch_of, exec_bwFetch_waits⟩

/-! ## BW.WRITE -/

section
variable {r : IoResult} {rs : List IoResult} (hs : s.w.state = .write) (ht : s.w.task = some x)
  (ha : s.ser.writeAns = r :: rs)
include hs ht ha

/-- BW.WRITE whose write the device has answered: what the answer and the broadcast flag make of it (42 R172, R173). -/
theorem exec_bwWrite_answered :
    exec .bwWrite s =
      let s1 := (s.flushStale.setSerial { s.ser with writeAns := rs }).cross (.serWrite x.frame r)
      if r = .fail then .next (s1.raise .serialWriteOrReadFailure .worker)
      else if x.isBroadcast then .next (s1.finish []) else s1.openWindow .rdHdr := by
  simp only [exec, execBwWrite, hs, ht, ha, if_true]
  cases r <;> rfl

/-- BW.WRITE that fails, or that has written a broadcast, ends with the empty reply and opens no window (42 R172). -/
theorem exec_bwWrite_ends (hend : r = .fail ∨ x.isBroadcast = true) :
    exec .bwWrite s = .next { s with
      rxpend := if s.cfg.rxStale = .flush then [] else s.rxpend,
      ser := { s.ser with writeAns := rs },
      trace := s.trace ++ [⟨s.now, .serWrite x.frame r⟩] ++
        (if r = .fail then [⟨s.now, .event .worker .serialWriteOrReadFailure⟩] else []),
      w := { s.w with reply := [], state := .deliver, timer := s.w.timer.stop } } := by
  cases r with
  | fail =>
    rw [exec_bwWrite_answered hs ht ha, flushStale_eq]
    rfl
  | ok => simpa using exec_bwWrite_broadcast hs ht (hend.resolve_left nofun) ha

end

/-- Settles O36, by how the write ends. -/
theorem writeFrameToBus : Obligations.WriteFrameToBus := by
  intro s x r rs hs ht ha
  have hopens (hr : r = .ok) (hb : x.isBroadcast = false) : exec .bwWrite s =
      ((s.flushStale.setSerial { s.ser with writeAns := rs }).cross (.serWrite x.frame .ok)).openWindow .rdHdr := by
    subst hr
    simpa [hb] using exec_bwWrite_answered hs ht ha
  refine ⟨exec_bwWrite_ends hs ht ha, fun hr hb hts => ?_, fun hr hb hts => ?_⟩ <;> rw [hopens hr hb, flushStale_eq]
  · exact openWindow_eq hts (.inl rfl) rfl
  · exact if_pos hts

/-! ## BW.RDHDR -/

section
variable {fc : Byte} (hs : s.w.state = .rdHdr) (hfc : s.taskFc = some fc)
include hs hfc

/-- BW.RDHDR with three bytes infers the length of the rest: with 0 the reply is empty, else the second window opens
(42 R174). -/
theorem exec_bwRdHdr_header {b0 b1 b2 : Byte} (ha : s.ser.readAns = some (.got [b0, b1, b2])) :
    exec .bwRdHdr s =
      let s1 : State := { s with
        ser := { s.ser with readAns := none },
        trace := s.trace ++ [⟨s.now, .serRead 3 [b0, b1, b2]⟩],
        w := { s.w with hdr := [b0, b1, b2], tlen := rlen fc b1 b2 } }
      if rlen fc b1 b2 = 0 then .next (s1.finish []) else s1.openWindow .rdTrl := by
  simp only [exec, execBwRdHdr, hs, hfc, serRead_of ha, if_true]
  rfl

/-- BW.RDHDR with another answer ends with the empty reply (42 R174, R180). -/
theorem exec_bwRdHdr_short {b : List Byte} (ha : s.ser.readAns = some (.got b)) (hb : b.length < 3) :
    exec .bwRdHdr s = .next { s with
      ser := { s.ser with readAns := none },
      trace := s.trace ++ [⟨s.now, .serRead 3 b⟩],
      w := { s.w with reply := [], state := .deliver, timer := s.w.timer.stop } } := by
  simp only [exec, execBwRdHdr, hs, hfc, serRead_of ha, if_true]
  split
  · simp at hb
  · rfl

theorem exec_bwRdHdr_failed (ha : s.ser.readAns = some .failed) :
    exec .bwRdHdr s = .next { s with
      ser := { s.ser with readAns := none },
      trace := s.trace ++ [⟨s.now, .serReadFail 3⟩, ⟨s.now, .event .worker .serialWriteOrReadFailure⟩],
      w := { s.w with reply := [], state := .deliver, timer := s.w.timer.stop } } := by
  simp only [exec, execBwRdHdr, hs, hfc, serRead_of ha, raise_serial, if_true]
  simp [State.emit, State.cross, State.finish, State.setWorker, State.setSerial, ReadResult.crossing]

end

/-- While its window is open a read has no answer, and the worker waits. -/
theorem exec_bwRdHdr_waits (ha : s.ser.readAns = none) : exec .bwRdHdr s = .next s := by
  cases hfc : s.taskFc <;> simp only [exec, execBwRdHdr, hfc, serRead_none ha, waits, ite_self]

theorem taskFc_of {fc : Byte} (ht : s.w.task = some x) (hfc : x.frame[1]? = some fc) : s.taskFc = some fc := by
  simp only [State.taskFc, ht, hfc]

/-- Settles O37, by the answer to the first read and the length that its bytes infer. -/
theorem readReplyHeader : Obligations.ReadReplyHeader := by
  intro s x fc hs ht hfc
  have hfc := taskFc_of ht hfc
  refine ⟨fun b0 b1 b2 ha => ?_, fun b => exec_bwRdHdr_short hs hfc, exec_bwRdHdr_failed hs hfc, exec_bwRdHdr_waits⟩
  rw [exec_bwRdHdr_header hs hfc ha]
  refine ⟨fun hz => ?_, fun hnz hts => ?_, fun hnz hts => ?_⟩
  · rw [hz]
    rfl
  · rw [if_neg hnz]
    exact openWindow_eq hts (.inr rfl) rfl
  · rw [if_neg hnz]
    exact if_pos hts

/-! ## BW.RDTRL -/

section
variable (hs : s.w.state = .rdTrl)
include hs

/-- BW.RDTRL with all the bytes it asked for makes the reply of header and trailer (42 R175). -/
theorem exec_bwRdTrl_joins {b : List Byte} (ha : s.ser.readAns = some (.got b)) (hb : s.w.tlen.toNat ≤ b.length) :
    exec .bwRdTrl s = .next { s with
      ser := { s.ser with readAns := none },
      trace := s.trace ++ [⟨s.now, .serRead s.w.tlen.toNat b⟩],
      w := { s.w with trl := b, reply := s.w.hdr ++ b, state := .deliver, timer := s.w.timer.stop } } := by
  simp only [exec, execBwRdTrl, hs, serRead_of ha, Nat.not_lt.mpr hb, if_true, if_false]
  rfl

theorem exec_bwRdTrl_short {b : List Byte} (ha : s.ser.readAns = some (.got b)) (hb : b.length < s.w.tlen.toNat) :
    exec .bwRdTrl s = .next { s with
      ser := { s.ser with readAns := none },
      trace := s.trace ++ [⟨s.now, .serRead s.w.tlen.toNat b⟩],
      w := { s.w with reply := [], state := .deliver, timer := s.w.timer.stop } } := by
  simp only [exec, execBwRdTrl, hs, serRead_of ha, hb, if_true]
  rfl

theorem exec_bwRdTrl_failed (ha : s.ser.readAns = some .failed) :
    exec .bwRdTrl s = .next { s with
      ser := { s.ser with readAns := none },
      trace := s.trace ++ [⟨s.now, .serReadFail s.w.tlen.toNat⟩, ⟨s.now, .event .worker .serialWriteOrReadFailure⟩],
      w := { s.w with reply := [], state := .deliver, timer := s.w.timer.stop } } := by
  simp only [exec, execBwRdTrl, hs, serRead_of ha, raise_serial, if_true]
  simp [State.emit, State.cross, State.finish, State.setWorker, State.setSerial, ReadResult.crossing]

end

theorem exec_bwRdTrl_waits (ha : s.ser.readAns = none) : exec .bwRdTrl s = .next s := by
  simp only [exec, execBwRdTrl, serRead_none ha, waits, ite_self]

/-- Settles O38, by the answer to the second read. -/
theorem readReplyTrailer : Obligations.ReadReplyTrailer := fun _ hs =>
  ⟨fun _ ha => ⟨exec_bwRdTrl_joins hs ha, exec_bwRdTrl_short hs ha⟩, exec_bwRdTrl_failed hs, exec_bwRdTrl_waits⟩

/-! ## BW.DELIVER and BW.QUIET -/

/-- Settles O39. -/
theorem deliverReply : Obligations.DeliverReply := fun _ _ _ => exec_bwDeliver_of

/-- BW.QUIET once the timer has expired (42 R177). -/
theorem exec_bwQuiet_of (hs : s.w.state = .quiet) (hrun : s.w.timer.running = true) (hleft : s.w.timer.left = 0) :
    exec .bwQuiet s = .next { s with w := { s.w with state := .idle, timer := s.w.timer.stop } } :=
  if_pos ⟨hs, (Timer.expired_iff _).mpr ⟨hrun, hleft⟩⟩

theorem exec_bwQuiet_waits (hleft : s.w.timer.left ≠ 0) : exec .bwQuiet s = .next s :=
  if_neg fun h => hleft ((Timer.expired_iff _).mp h.2).2

/-- Settles O40, by the time that is left. -/
theorem quietPeriodEnds : Obligations.QuietPeriodEnds := fun _ hs hrun => ⟨exec_bwQuiet_of hs hrun, exec_bwQuiet_waits⟩

end

/-! ## The transitions of the worker -/

theorem WMove.transition {s t : State} (m : WMove s t) : WTransition s.w.state t.w.state := by
  cases m with
  | wait => exact .stay _
  | fetched _ _ hs => rw [hs]; exact .fetch
  | writeDone _ _ _ _ _ hs => rw [hs]; exact .wrote
  | writeAwaits _ _ _ hs => rw [hs, settle_w]; exact .wroteAwaiting
  | inferred => exact .stay _
  | noReply _ _ _ hs =>
    obtain hs | hs := hs <;> rw [hs]
    · exact .noHeader
    · exact .trailer
  | header _ _ _ _ hs => rw [hs, settle_w]; exact .header
  | trailer _ hs => rw [hs]; exact .trailer
  | delivered _ hs => rw [hs]; exact .delivered
  | quietOver hs => rw [hs]; exact .quietOver

/-- The environment moves no sequencer; time moves only the worker's timer. -/
theorem EMove.workerState {s t : State} (m : EMove s t) : t.w.state = s.w.state := by
  cases m <;> simp

theorem CMove.w {s t : State} (m : CMove s t) : t.w = s.w := by
  cases m <;> rfl

/-- Settles O12, by whose move the step is: only the worker's own moves its state. -/
theorem workerTransitions : Obligations.WorkerTransitions := by
  intro s t e
  have stays (h : t.w.state = s.w.state) : WTransition s.w.state t.w.state := h ▸ .stay _
  obtain rfl | ⟨it, rest, hscript, m⟩ := step_moves e
  · exact .inl (stays rfl)
  · cases m with
    | handler _ _ m => exact .inl (stays (congrArg Worker.state m.sameBus.w))
    | worker _ m => exact .inl m.transition
    | codec _ m => exact .inl (stays (congrArg Worker.state m.w))
    | env _ m => exact .inl (stays m.workerState)
    | reset ms sent hit => exact .inr ⟨ms, sent, rest, hit ▸ hscript⟩

end Sys2Proof.Machine
end

section
/-! SUPPORT. A transaction that reads the bus, run from its first window to the response at the client: bytes that fill
an open window (10_state R47), the two reads (42 R174, R175), the delivery, and what the handler makes of the reply (43
R205, R210). -/

namespace Sys2Proof.Machine

/-! ## Runs -/

theorem run_one_of_step {s t : State} (e : step s = .next t) : Host.Core.run Sys2Proof.core 1 s = .next t :=
  run_succ_of_step (M := Sys2Proof.core) e

/-- A run of `n + k` steps is one of `k` steps from where the first `n` lead. -/
theorem run_add_of_run {n k : Nat} {s t : State} (e : Host.Core.run Sys2Proof.core n s = .next t) :
    Host.Core.run Sys2Proof.core (n + k) s = Host.Core.run Sys2Proof.core k t := by
  induction n generalizing s with
  | zero =>
    cases e
    rw [Nat.zero_add]
  | succ n ih =>
    rw [Nat.add_right_comm]
    cases hs : step s with
    | next u =>
      have hrun (m : Nat) := run_succ_of_step (M := Sys2Proof.core) (n := m) hs
      exact (hrun (n + k)).trans (ih ((hrun n).symm.trans e))
    | fault r => simp only [Host.Core.run, Sys2Proof.core, hs, reduceCtorEq] at e
    | refused r => simp only [Host.Core.run, Sys2Proof.core, hs, reduceCtorEq] at e

/-- Every run keeps the invariant. -/
theorem State.Inv.run {n : Nat} {s t : State} (hi : s.Inv) (e : Host.Core.run Sys2Proof.core n s = .next t) :
    t.Inv := by
  induction n generalizing s with
  | zero =>
    cases e
    exact hi
  | succ n ih =>
    cases hs : step s with
    | next u => exact ih (stepKeepsInvariant s u hi hs) ((run_succ_of_step (M := Sys2Proof.core) hs).symm.trans e)
    | fault r => simp only [Host.Core.run, Sys2Proof.core, hs, reduceCtorEq] at e
    | refused r => simp only [Host.Core.run, Sys2Proof.core, hs, reduceCtorEq] at e

/-! ## Bytes in an open window -/

section
variable {s : State} {rest : List Item} (hi : s.Inv) (ho : s.windowOpen = true)
include hi ho

/-- While a window is open nothing but answers to writes stands at the serial port. -/
theorem State.Inv.ser_of_open :
    s.ser = { writeAns := s.ser.writeAns, readAns := none, rxFail := false, tie := false } := by
  obtain ⟨-, -, hfail, htie⟩ := hi.window.opened ho
  have hnone := ((windowOpen_iff s).mp ho).2
  show SerialPort.mk s.ser.writeAns s.ser.readAns s.ser.rxFail s.ser.tie = _
  rw [hnone, hfail, htie]

/-- An open window takes the byte that arrives, and closes if that is the last one asked for (10_state R47). -/
theorem step_serByte_open {b : Byte} (hscript : s.script = .env (.serByte b) :: rest) :
    step s = .next { s with
      rxpend := if s.asked ≤ s.rxpend.length + 1 then [] else s.rxpend ++ [b],
      ser := { s.ser with
        readAns := if s.asked ≤ s.rxpend.length + 1 then some (.got (s.rxpend ++ [b])) else none },
      trace := s.trace ++ [⟨s.now, .serByte b⟩],
      script := rest } := by
  obtain ⟨hlt, hleft, hfail, htie⟩ := hi.window.opened ho
  refine (step_scheduled hscript).trans ((if_pos (.inl ho)).trans (congrArg Host.Outcome.next ?_))
  refine (settle_timeLeft (n := s.asked) (s := { s with
    rxpend := s.rxpend ++ [b], ser := { s.ser with tie := false }, trace := s.trace ++ [⟨s.now, .serByte b⟩],
    script := rest }) ho rfl hleft).trans ?_
  by_cases hlast : s.asked ≤ s.rxpend.length + 1
  · have hall : s.asked = s.rxpend.length + 1 := by omega
    simp [hfail, htie, hall]
  · simp [hfail, htie, hlast]

end

/-- The bytes that an open window lacks fill it, and close it with the last one (10_state R47). -/
theorem run_serBytes {bs : List Byte} {s : State} {rest : List Item} (hi : s.Inv) (ho : s.windowOpen = true)
    (hn : s.rxpend.length + bs.length = s.asked)
    (hscript : s.script = bs.map (fun b => Item.env (.serByte b)) ++ rest) :
    Host.Core.run Sys2Proof.core bs.length s = .next { s with
      rxpend := [],
      ser := { s.ser with readAns := some (.got (s.rxpend ++ bs)) },
      trace := s.trace ++ bs.map (fun b => ⟨s.now, .serByte b⟩),
      script := rest } := by
  induction bs generalizing s with
  | nil => exact absurd hn (hi.window.opened ho).1.ne
  | cons b bs ih =>
    have hstep := step_serByte_open hi ho hscript
    have hi' := stepKeepsInvariant _ _ hi hstep
    refine (run_succ_of_step (M := Sys2Proof.core) hstep).trans ?_
    rw [List.length_cons] at hn
    by_cases hlast : bs = []
    · subst hlast
      have hfull : s.asked ≤ s.rxpend.length + 1 := hn.ge
      simp only [if_pos hfull]
      rfl
    · have hpos := List.length_pos_iff.mpr hlast
      have hlacks : ¬s.asked ≤ s.rxpend.length + 1 := by omega
      simp only [if_neg hlacks] at hi' ⊢
      refine (ih hi' ((windowOpen_iff _).mpr ⟨((windowOpen_iff s).mp ho).1, rfl⟩) ?_ rfl).trans ?_
      · show (s.rxpend ++ [b]).length + bs.length = s.asked
        rw [List.length_append, List.length_singleton]
        omega
      · simp

/-! ## The two reads -/

/-- The first three bytes of a reply, and the turn that infers the rest and opens the second window (42 R174). -/
theorem run_readsHeader {s : State} {b0 b1 b2 fc : Byte} {rest : List Item} (hi : s.Inv) (hts : s.cfg.tSer ≠ 0)
    (hs : s.w.state = .rdHdr) (ha : s.ser.readAns = none) (hrx : s.rxpend = []) (hfc : s.taskFc = some fc)
    (hl : rlen fc b1 b2 ≠ 0)
    (hscript : s.script = [b0, b1, b2].map (fun b => Item.env (.serByte b)) ++ .turn .worker :: rest) :
    Host.Core.run Sys2Proof.core 4 s = .next { s with
      trace := s.trace ++ [b0, b1, b2].map (fun b => ⟨s.now, .serByte b⟩) ++ [⟨s.now, .serRead 3 [b0, b1, b2]⟩],
      w := { s.w with
        hdr := [b0, b1, b2], tlen := rlen fc b1 b2, state := .rdTrl, timer := Timer.start s.cfg.tSer },
      script := rest } := by
  have ho : s.windowOpen = true := (windowOpen_iff s).mpr ⟨.inl hs, ha⟩
  have hasked : s.asked = 3 := by simp only [State.asked, hs]
  have hbytes := run_serBytes hi ho (by rw [hrx, hasked]; rfl) hscript
  have hnz : ¬(rlen fc b1 b2).toNat ≤ 0 := fun h => hl (BitVec.eq_of_toNat_eq (Nat.le_zero.mp h))
  rw [hrx] at hbytes
  refine (run_add_of_run (k := 1) hbytes).trans (run_one_of_step ?_)
  refine Eq.trans (step_turn_worker rfl hs) (Eq.trans (exec_bwRdHdr_header ?_ ?_ rfl) ((if_neg hl).trans ?_))
  · exact hs
  · exact hfc
  refine Eq.trans (openWindow_eq (n := (rlen fc b1 b2).toNat) ?_ (.inr rfl) rfl) (congrArg Host.Outcome.next ?_)
  · exact hts
  rw [hi.ser_of_open ho]
  simp [hnz, hrx]

/-- The rest of a reply, and the turn that joins it to the header (42 R175). -/
theorem run_readsTrailer {s : State} {bs : List Byte} {rest : List Item} (hi : s.Inv) (hs : s.w.state = .rdTrl)
    (ha : s.ser.readAns = none) (hrx : s.rxpend = []) (hn : s.w.tlen.toNat = bs.length)
    (hscript : s.script = bs.map (fun b => Item.env (.serByte b)) ++ .turn .worker :: rest) :
    Host.Core.run Sys2Proof.core (bs.length + 1) s = .next { s with
      trace := s.trace ++ bs.map (fun b => ⟨s.now, .serByte b⟩) ++ [⟨s.now, .serRead bs.length bs⟩],
      w := { s.w with trl := bs, reply := s.w.hdr ++ bs, state := .deliver, timer := s.w.timer.stop },
      script := rest } := by
  have ho : s.windowOpen = true := (windowOpen_iff s).mpr ⟨.inr hs, ha⟩
  have hasked : s.asked = bs.length := by simp only [State.asked, hs, hn]
  have hbytes := run_serBytes hi ho (by rw [hrx, hasked]; simp) hscript
  rw [hrx] at hbytes
  refine (run_add_of_run (k := 1) hbytes).trans (run_one_of_step ?_)
  refine Eq.trans (step_turn_worker rfl hs) (Eq.trans (exec_bwRdTrl_joins ?_ rfl ?_) (congrArg Host.Outcome.next ?_))
  · exact hs
  · exact hn.le
  rw [hi.ser_of_open ho]
  simp [hn, hrx]

/-- The end of the first window before three bytes have come, and the turn that gives the reply up (42 R174). -/
theorem run_timesOut {s : State} {fc : Byte} {rest : List Item} (hi : s.Inv) (hs : s.w.state = .rdHdr)
    (ha : s.ser.readAns = none) (hfc : s.taskFc = some fc)
    (hscript : s.script = .env (.elapse s.w.timer.left.toNat) :: .turn .worker :: rest) :
    Host.Core.run Sys2Proof.core 2 s = .next { s with
      now := s.now + s.w.timer.left.toNat,
      rxpend := [],
      ser := { s.ser with readAns := none, tie := true },
      trace := s.trace ++ [⟨s.now + s.w.timer.left.toNat, .serRead 3 s.rxpend⟩],
      w := { s.w with reply := [], state := .deliver, timer := (s.w.timer.elapse s.w.timer.left.toNat).stop },
      script := rest } := by
  have ho : s.windowOpen = true := (windowOpen_iff s).mpr ⟨.inl hs, ha⟩
  have hasked : s.asked = 3 := by simp only [State.asked, hs]
  have hlt : s.rxpend.length < 3 := hasked ▸ (hi.window.opened ho).1
  have htime := (step_elapse hscript).trans (congrArg Host.Outcome.next (elapse_ends (hi.withScript _) ho le_rfl))
  refine (run_succ_of_step (M := Sys2Proof.core) htime).trans (run_one_of_step ?_)
  refine Eq.trans (step_turn_worker rfl hs)
    (Eq.trans (exec_bwRdHdr_short (fc := fc) ?_ ?_ rfl hlt) (congrArg Host.Outcome.next ?_))
  · exact hs
  · exact hfc
  · simp

/-! ## The handler and the reply -/

section
variable {i : Nat} {s : State} {h : Handler} {r : List Byte}

/-- H.AWAIT takes the reply, and RTUDEC follows on it (43 R204, R205). -/
theorem perform_hAwait_takes (hh : s.handlers[i]? = some h) (hs : h.state = .await) (hr : h.rslot = some r) :
    perform (.hAwait i) s = exec (.rtuDec ⟨i, r⟩) (s.setHandler i { h with rslot := none, state := .decode }) := by
  refine perform_hAwait hh hs hr ((withHandler_of _ hh).trans ?_)
  simp only [hs, hr, if_true]

/-- RTUDEC of a verified reply of 5 bytes or more makes the success response (43 R205, R207). -/
theorem exec_rtuDec_succeeds (hh : s.handlers[i]? = some h) (hs : h.state = .decode) (hb : h.bc = false)
    (hlen : 5 ≤ r.length) (hv : crcVerify s.cfg.crc r = true) :
    exec (.rtuDec ⟨i, r⟩) s =
      .next ((s.runVerify r).setHandler i { h with rsp := rspOkFrame h.tid h.pid r, state := .send }) := by
  have hne : replyEmpty r = false := List.isEmpty_eq_false_iff.mpr fun hnil => by simp [hnil] at hlen
  refine (withHandler_of (i := i) _ hh).trans ?_
  simp only [hs, hb, hne, Nat.not_lt.mpr hlen, hv, if_true, if_false, Bool.false_eq_true]

/-- RTUDEC of the empty reply raises `NoBusReply` (43 R205, R209). -/
theorem exec_rtuDec_empty (hh : s.handlers[i]? = some h) (hs : h.state = .decode) (hb : h.bc = false) :
    exec (.rtuDec ⟨i, []⟩) s = .next ((s.emit (.handler i) .noBusReply).synthesize i) := by
  refine (withHandler_of (i := i) _ hh).trans ?_
  simp only [hs, hb, replyEmpty, List.isEmpty_nil, raise_noBusReply, if_true, if_false, Bool.false_eq_true]

/-- H.SEND of a response that the client side takes (43 R210). -/
theorem exec_hSend_sent {p : ClientPort} {as : List IoResult} (hh : s.handlers[i]? = some h)
    (hp : s.ports[i]? = some p) (hs : h.state = .send) (ha : p.sendAns = .ok :: as) :
    exec (.hSend i) s = .next { s with
      handlers := s.handlers.set i { h with state := .recv },
      ports := s.ports.set i { p with sendAns := as },
      trace := s.trace ++ [⟨s.now, .cliSend i h.rsp .ok⟩] } := by
  refine (withPort_of _ hh hp).trans ?_
  simp only [hs, ha, if_true]
  rfl

theorem bytesBe_zero : bytesBe 0 = [0x00, 0x00] := rfl

/-- The success response to a checked reply is its header, its length and its body (43 R207, 30_encoding R81). -/
theorem rspOkFrame_append (tid : Half) (body : List Byte) (lo hi : Byte) (hlen : body.length < 65536) :
    rspOkFrame tid 0 (body ++ [lo, hi]) = [hi8 tid, lo8 tid, 0x00, 0x00, BitVec.ofNat 8 (body.length / 256),
      BitVec.ofNat 8 body.length] ++ body := by
  have hn : (body ++ [lo, hi]).length - 2 = body.length := by simp
  rw [rspOkFrame, take_body, hn, bytesBe_zero]
  simp only [bytesBe, hi8_ofNat _ hlen, lo8_ofNat]
  rfl

/-- What handler `i` with registers `h` makes of the reply in its slot, in one pass through `H_DECODE` (10_state R25):
the response `rsp`, and the error kinds `ks` at its event port. -/
def Handler.Responds (h : Handler) (p : CrcParams) (rsp : List Byte) (ks : List ErrKind) : Prop :=
  ∀ (i : Nat) (s : State), s.cfg.crc = p → s.handlers[i]? = some h → ∃ c, perform (.hAwait i) s = .next { s with
    handlers := s.handlers.set i { h with rslot := none, rsp := rsp, state := .send },
    codec := c,
    trace := s.trace ++ ks.map (fun k => ⟨s.now, .event (.handler i) k⟩) }

/-- A reply of a body of 3 bytes or more and its checksum is answered with the body (43 R207). -/
theorem Handler.responds_of_body {p : CrcParams} {body : List Byte} (hs : h.state = .await)
    (hr : h.rslot = some (body ++ bytesLe (crc16 p body))) (hb : h.bc = false) (hpid : h.pid = 0)
    (hlo : 3 ≤ body.length) (hhi : body.length < 65536) :
    h.Responds p ([hi8 h.tid, lo8 h.tid, 0x00, 0x00, BitVec.ofNat 8 (body.length / 256), BitVec.ofNat 8 body.length] ++
      body) [] := by
  rintro i s rfl hh
  have hh' := getElem?_set_of_some hh { h with rslot := none, state := .decode }
  have hv : crcVerify s.cfg.crc (body ++ bytesLe (crc16 s.cfg.crc body)) = true :=
    (crcVerify_append _ body _ _).trans (decide_eq_true ⟨rfl, rfl⟩)
  refine ⟨{ s.codec with acc := crc16 s.cfg.crc body }, (perform_hAwait_takes hh hs hr).trans
    ((exec_rtuDec_succeeds (s := s.setHandler i _) hh' rfl hb (by simp [bytesLe]; omega) hv).trans
      (congrArg Host.Outcome.next ?_))⟩
  rw [State.runVerify, bytesLe, take_body, hpid, rspOkFrame_append _ _ _ _ hhi]
  simp [State.setHandler, State.runCrc, State.setCodec]

/-- The empty reply is answered with the exception response (43 R209, 44 R240). -/
theorem Handler.responds_of_empty (p : CrcParams) (hs : h.state = .await) (hr : h.rslot = some []) (hb : h.bc = false)
    (hpid : h.pid = 0) :
    h.Responds p [hi8 h.tid, lo8 h.tid, 0x00, 0x00, 0x00, 0x03, h.uid, h.fc ||| 0x80, 0x0B] [.noBusReply] := by
  rintro i s - hh
  have hh' := getElem?_set_of_some hh { h with rslot := none, state := .decode }
  refine ⟨s.codec, (perform_hAwait_takes hh hs hr).trans
    ((exec_rtuDec_empty (s := s.setHandler i _) hh' rfl hb).trans (congrArg Host.Outcome.next ?_))⟩
  rw [emit_synthesize (s := s.setHandler i _) _ hh', excFrame, hpid, bytesBe_zero]
  simp [State.setHandler, bytesBe, excCode]

end

/-! ## From the delivery to the client -/

theorem step_turn_handler {s : State} {i : Nat} {h : Handler} {op : Instr} {rest : List Item}
    (hscript : s.script = .turn (.handler i) :: rest) (hh : s.handlers[i]? = some h)
    (hsel : h.state.select i = some op) : step s = perform op { s with script := rest } :=
  (step_scheduled hscript).trans (issue_turn_handler (s := { s with script := rest }) hh hsel)

section
variable {i : Nat} {s : State} {h : Handler} {p : ClientPort} {as : List IoResult} {rest : List Item}
  (hh : s.handlers[i]? = some h) (hp : s.ports[i]? = some p) (ha : p.sendAns = .ok :: as)
include hh hp ha

/-- The turn that sends the response (43 R210). -/
theorem run_sends (hs : h.state = .send) (hscript : s.script = .turn (.handler i) :: rest) :
    ∃ t : State, Host.Core.run Sys2Proof.core 1 s = .next t ∧
      t.trace = s.trace ++ [⟨s.now, .cliSend i h.rsp .ok⟩] ∧ t.script = rest ∧
      ∃ h', t.handlers[i]? = some h' ∧ h'.state = .recv :=
  ⟨_, run_one_of_step ((step_turn_handler hscript hh (congrArg (HState.select i) hs)).trans
      ((perform_alone rfl).trans (exec_hSend_sent (s := { s with script := rest }) hh hp hs ha))),
    rfl, rfl, _, getElem?_set_of_some hh _, rfl⟩

/-- The turns that make the response and send it (43 R205, R210). -/
theorem run_answers {rsp : List Byte} {ks : List ErrKind} (hs : h.state = .await)
    (hresp : h.Responds s.cfg.crc rsp ks)
    (hscript : s.script = .turn (.handler i) :: .turn (.handler i) :: rest) :
    ∃ t : State, Host.Core.run Sys2Proof.core 2 s = .next t ∧
      t.trace = s.trace ++ ks.map (fun k => ⟨s.now, .event (.handler i) k⟩) ++ [⟨s.now, .cliSend i rsp .ok⟩] ∧
      t.script = rest ∧ ∃ h', t.handlers[i]? = some h' ∧ h'.state = .recv := by
  obtain ⟨c, htake⟩ := hresp i { s with script := .turn (.handler i) :: rest } rfl hh
  have hstep := (step_turn_handler hscript hh (congrArg (HState.select i) hs)).trans htake
  rw [show Host.Core.run Sys2Proof.core 2 s = _ from run_succ_of_step (M := Sys2Proof.core) hstep]
  exact run_sends (h := { h with rslot := none, rsp := rsp, state := .send }) (getElem?_set_of_some hh _) hp ha rfl rfl

end

/-- After `n` steps that lead to a reply: the turns that deliver it, make the response of it and send that (42 R176, 43
R205, R210). -/
theorem run_responds {n : Nat} {s₀ s : State} {x : Task} {h : Handler} {p : ClientPort} {as : List IoResult}
    {rest : List Item} {rsp : List Byte} {ks : List ErrKind} (e : Host.Core.run Sys2Proof.core n s₀ = .next s)
    (hs : s.w.state = .deliver) (ht : s.w.task = some x) (hh : s.handlers[x.src]? = some h) (hawait : h.state = .await)
    (hresp : Handler.Responds { h with rslot := some s.w.reply } s.cfg.crc rsp ks) (hp : s.ports[x.src]? = some p)
    (ha : p.sendAns = .ok :: as)
    (hscript : s.script = .turn .worker :: .turn (.handler x.src) :: .turn (.handler x.src) :: rest) :
    ∃ t : State, Host.Core.run Sys2Proof.core (n + 3) s₀ = .next t ∧
      t.trace = s.trace ++ ks.map (fun k => ⟨s.now, .event (.handler x.src) k⟩) ++
        [⟨s.now, .cliSend x.src rsp .ok⟩] ∧
      t.script = rest ∧ ∃ h', t.handlers[x.src]? = some h' ∧ h'.state = .recv := by
  have hdeliver := (step_turn_worker hscript hs).trans (exec_bwDeliver_of (s := { s with script := _ }) hs ht hh)
  rw [run_add_of_run e,
    show Host.Core.run Sys2Proof.core 3 s = _ from run_succ_of_step (M := Sys2Proof.core) hdeliver]
  refine run_answers (h := { h with rslot := some s.w.reply }) (getElem?_set_of_some hh _) ?_ ha hawait ?_ rfl
  · exact hp
  · exact hresp

/-- The worker's task, of which a read is in progress, has a submitter who waits for a reply that is no broadcast's. -/
theorem State.Inv.awaiting {s : State} {x : Task} (hi : s.Inv) (hs : s.w.state = .rdHdr) (ht : s.w.task = some x) :
    ∃ h, s.handlers[x.src]? = some h ∧ h.state = .await ∧ h.pid = 0 ∧ h.bc = false ∧ x.frame[1]? = some h.fc := by
  obtain ⟨h, hh, hawait, -, ⟨-, -, hfc, -⟩, hbc⟩ := hi.owned x (by rw [tasks_of_held ht]; exact List.mem_cons_self)
  obtain ⟨⟨hpid, -, -⟩, -⟩ := (hi.handlers _ h hh).await hawait
  exact ⟨h, hh, hawait, hpid, hbc.symm.trans (hi.worker.hdr x ht hs), hfc⟩

/-- Settles O58: the window's time ends the read short, and the empty reply becomes the exception response. -/
theorem silentBusGivesException : Obligations.SilentBusGivesException := by
  rintro s i p x as rest hi hs ha ht rfl hp has hscript
  obtain ⟨h, hh, hawait, hpid, hbc, hfc⟩ := hi.awaiting hs ht
  have hread := run_timesOut hi hs ha (taskFc_of ht hfc) hscript
  have hresp := Handler.responds_of_empty (h := { h with rslot := some [] }) s.cfg.crc hawait rfl hbc hpid
  obtain ⟨t, hrun, htrace, -, hafter⟩ := run_responds hread rfl ht hh hawait hresp hp has rfl
  refine ⟨h, t, hh, hrun, ?_, hafter⟩
  rw [htrace]
  simp

/-- Settles O57: the reply's bytes make the two reads, and the joined reply verifies. -/
theorem goodReplyReachesClient : Obligations.GoodReplyReachesClient := by
  rintro s i p x b0 b1 b2 fc more as rest hi hts hs ha hrx ht rfl hfc hp has hlen trailer hscript
  obtain ⟨h, hh, hawait, hpid, hbc, -⟩ := hi.awaiting hs ht
  have hl : rlen fc b1 b2 ≠ 0 := fun h0 => by simp [h0] at hlen
  have hheader := run_readsHeader hi hts hs ha hrx (taskFc_of ht hfc) hl hscript
  have htlen : trailer.length = more.length + 2 := by simp [trailer]
  have htrailer := run_readsTrailer (hi.run hheader) rfl ha hrx (hlen.trans htlen.symm) rfl
  have hbody : more.length + 3 < 65536 := by
    have := (rlen fc b1 b2).isLt
    omega
  have hresp := Handler.responds_of_body (p := s.cfg.crc) (body := b0 :: b1 :: b2 :: more)
    (h := { h with rslot := some ([b0, b1, b2] ++ trailer) }) hawait rfl hbc hpid (by simp) hbody
  obtain ⟨t, hrun, htrace, hrest, hafter⟩ :=
    run_responds ((run_add_of_run hheader).trans htrailer) rfl ht hh hawait hresp hp has rfl
  refine ⟨h, t, hh, ?_, ?_, hrest, hafter⟩
  · rw [← hrun, htlen]
    congr 1
    omega
  · rw [htrace]
    simp [htlen]

end Sys2Proof.Machine
end

section
/-! SUPPORT. The Connection Handler's operations on the arguments the statements use them with: a connection opens and
closes (43 R200, R211), a read is accepted, rejected or refused (R201, R202), a request is encoded and submitted (R203,
R204), a reply is awaited and decoded (R204 to R209), a response is sent (R210). -/

namespace Sys2Proof.Machine

section
variable {i : Nat} {s : State} {h : Handler} {p : ClientPort}

/-! ## Connections -/

/-- H.OPEN of a closed handler takes the connection presented (43 R200). -/
theorem exec_hOpen_takes (hh : s.handlers[i]? = some h) (hp : s.ports[i]? = some p) (hs : h.state = .closed)
    (ho : p.openReq = true) :
    exec (.hOpen i) s = .next { s with
      handlers := s.handlers.set i { h with state := .recv },
      ports := s.ports.set i { p with openReq := false },
      trace := s.trace ++ [⟨s.now, .cliOpen i⟩] } :=
  (withPort_of _ hh hp).trans (if_pos ⟨hs, ho⟩)

theorem closeConnection_of (hh : s.handlers[i]? = some h) (hp : s.ports[i]? = some p) :
    s.closeConnection i = { s with
      handlers := s.handlers.set i { h with state := .closed },
      ports := s.ports.set i { p with inbound := [], sendAns := [] },
      trace := s.trace ++ [⟨s.now, .cliClose i⟩] } := by
  simp [State.closeConnection, State.cross, State.modifyHandler, State.modifyPort, modify_eq_set _ hh,
    modify_eq_set _ hp]

/-- H.CLOSE from the state its code names (43 R211). -/
theorem exec_hClose_closes {sending : Bool} (hh : s.handlers[i]? = some h) (hp : s.ports[i]? = some p)
    (hs : h.state = (if sending then .send else .recv)) :
    exec (.hClose i sending) s = .next { s with
      handlers := s.handlers.set i { h with state := .closed },
      ports := s.ports.set i { p with inbound := [], sendAns := [] },
      trace := s.trace ++ [⟨s.now, .cliClose i⟩] } :=
  (withHandler_of _ hh).trans ((if_pos hs).trans (congrArg Host.Outcome.next (closeConnection_of hh hp)))

/-! ## Reads -/

/-- A header that the parser accepts has its seven bytes (41 R141). -/
theorem seven_le_of_hdrParse {b : List Byte} {tid pid len : Half} {uid : Byte}
    (hparse : hdrParse b = .fields tid pid len uid) : 7 ≤ b.length := by
  by_contra hshort
  cases (hdrParse_short b (Nat.not_le.mp hshort)).symm.trans hparse

/-- Why H.RECV ends the connection on the read `b`: it is shorter than the handler's own test asks, the parser rejects
it, or its payload is short and `SHORT_REQ` is `close` (43 R201, R202, 60 R253). -/
inductive Rejected (c : Config) (b : List Byte) : ErrKind → Prop where
  | short (hlen : b.length < 6) : Rejected c b .tooShort
  | header {e : HdrErr} (hlen : 6 ≤ b.length) (hparse : hdrParse b = .error e) : Rejected c b e.kind
  | payload {tid pid len : Half} {uid : Byte} (hparse : hdrParse b = .fields tid pid len uid)
      (hlen : b.length < 6 + len.toNat) (hc : c.shortReq = .close) : Rejected c b .tooShort

/-- H.RECV on a read that it rejects stores the read and its count, and ends the connection (43 R201). -/
theorem exec_hRecv_rejects {b : List Byte} {rest : List (List Byte)} {k : ErrKind} (hh : s.handlers[i]? = some h)
    (hp : s.ports[i]? = some p) (hs : h.state = .recv) (hb : p.inbound = b :: rest) (hk : Rejected s.cfg b k) :
    exec (.hRecv i) s = .next { s with
      handlers := s.handlers.set i { h with req := b, n := b.length, state := .closed },
      ports := s.ports.set i { p with inbound := [], sendAns := [] },
      trace := s.trace ++ [⟨s.now, .cliRecv i b⟩, ⟨s.now, .event (.handler i) k⟩, ⟨s.now, .cliClose i⟩] } := by
  have hraise : exec (.hRecv i) s = .next (((((s.setPort i { p with inbound := rest }).setHandler i
      { h with req := b, n := b.length }).cross (.cliRecv i b)).emit (.handler i) k).closeConnection i) := by
    refine (withPort_of _ hh hp).trans ?_
    simp only [hs, hb, if_true]
    cases hk with
    | short hlen => rw [if_pos hlen]; rfl
    | header hlen hparse => rw [if_neg (Nat.not_lt.mpr hlen), hparse, ← raise_hdrErr]
    | payload hparse hlen hc =>
      have h7 := seven_le_of_hdrParse hparse
      rw [if_neg (by omega), hparse, hc]
      exact if_pos hlen
  rw [hraise, emit_closeConnection k (getElem?_set_of_some hh _)]
  simp [State.cross, State.setHandler, State.setPort]

/-- With `SHORT_REQ = refuse` H.RECV gives a read without its whole payload no meaning (43 R202). -/
theorem exec_hRecv_refuses {b : List Byte} {rest : List (List Byte)} {tid pid len : Half} {uid : Byte}
    (hh : s.handlers[i]? = some h) (hp : s.ports[i]? = some p) (hs : h.state = .recv) (hb : p.inbound = b :: rest)
    (hparse : hdrParse b = .fields tid pid len uid) (hlen : b.length < 6 + len.toNat)
    (hc : s.cfg.shortReq = .refuse) : exec (.hRecv i) s = .refused .shortRequest := by
  have h7 := seven_le_of_hdrParse hparse
  refine (withPort_of _ hh hp).trans ?_
  simp only [hs, hb, hparse, hc, if_true, if_pos hlen, if_neg (show ¬b.length < 6 by omega)]

/-! ## Replies -/

/-- H.AWAIT empties a slot that holds a reply (43 R204, 10_state R33). -/
theorem exec_hAwait_empties {r : List Byte} (hh : s.handlers[i]? = some h) (hs : h.state = .await)
    (hr : h.rslot = some r) :
    exec (.hAwait i) s = .next { s with handlers := s.handlers.set i { h with rslot := none, state := .decode } } := by
  refine (withHandler_of _ hh).trans ?_
  simp only [hs, hr, if_true]
  rfl

theorem exec_hAwait_waits_of_empty (hh : s.handlers[i]? = some h) (hr : h.rslot = none) :
    exec (.hAwait i) s = .next s := by
  refine (withHandler_of _ hh).trans ?_
  simp only [hr]
  exact ite_self _

/-- RTUDEC of a broadcast's reply: the handler receives again (43 R205). -/
theorem exec_rtuDec_broadcast (hh : s.handlers[i]? = some h) (hs : h.state = .decode) (hb : h.bc = true)
    (r : List Byte) :
    exec (.rtuDec ⟨i, r⟩) s = .next { s with handlers := s.handlers.set i { h with state := .recv } } :=
  (withHandler_of (i := i) _ hh).trans ((if_pos hs).trans (if_pos hb))

theorem replyEmpty_eq_false {r : List Byte} (hlen : 1 ≤ r.length) : replyEmpty r = false :=
  List.isEmpty_eq_false_iff.mpr (List.ne_nil_of_length_pos hlen)

/-- RTUDEC of a reply of 1 to 4 bytes raises `ShortOrInvalidBusReply` (43 R205, R208). -/
theorem exec_rtuDec_short {r : List Byte} (hh : s.handlers[i]? = some h) (hs : h.state = .decode) (hb : h.bc = false)
    (hlo : 1 ≤ r.length) (hhi : r.length < 5) :
    exec (.rtuDec ⟨i, r⟩) s = .next ((s.emit (.handler i) .shortOrInvalidBusReply).synthesize i) := by
  have hne := replyEmpty_eq_false hlo
  refine (withHandler_of (i := i) _ hh).trans ?_
  simp only [hs, hb, hne, hhi, raise_shortOrInvalidBusReply, if_true, if_false, Bool.false_eq_true]

/-- RTUDEC of a reply of 5 bytes or more that does not verify raises `ChecksumMismatch` (43 R205, R206). -/
theorem exec_rtuDec_corrupted {r : List Byte} (hh : s.handlers[i]? = some h) (hs : h.state = .decode)
    (hb : h.bc = false) (hlen : 5 ≤ r.length) (hv : crcVerify s.cfg.crc r = false) :
    exec (.rtuDec ⟨i, r⟩) s = .next (((s.runVerify r).emit (.handler i) .checksumMismatch).synthesize i) := by
  have hne : replyEmpty r = false := replyEmpty_eq_false (by omega)
  refine (withHandler_of (i := i) _ hh).trans ?_
  simp only [hs, hb, hne, Nat.not_lt.mpr hlen, hv, raise_checksumMismatch, if_true, if_false, Bool.false_eq_true]

/-- RSPOK of a verified reply writes the success response (43 R207). -/
theorem exec_rspOk_builds {r : List Byte} (hh : s.handlers[i]? = some h) (hs : h.state = .decode)
    (hlen : 5 ≤ r.length) (hv : crcVerify s.cfg.crc r = true) :
    exec (.rspOk i r) s = .next { s with handlers := s.handlers.set i { h with rsp := rspOkFrame h.tid h.pid r } } :=
  (withHandler_of _ hh).trans (if_pos ⟨hs, hlen, hv⟩)

/-- A body with its own checksum verifies (40 R126, R127). -/
theorem crcVerify_of_body (p : CrcParams) (body : List Byte) :
    crcVerify p (body ++ [lo8 (crc16 p body), hi8 (crc16 p body)]) = true :=
  (crcVerify_append p body _ _).trans (decide_eq_true ⟨rfl, rfl⟩)

/-- The success response holds the ids, the length of the body and the body, not its checksum (30_encoding R81). -/
theorem rspOkFrame_body (tid pid : Half) (body : List Byte) (lo hi : Byte) :
    rspOkFrame tid pid (body ++ [lo, hi]) = [hi8 tid, lo8 tid, hi8 pid, lo8 pid, hi8 (BitVec.ofNat 16 body.length),
      lo8 (BitVec.ofNat 16 body.length)] ++ body := by
  have hn : (body ++ [lo, hi]).length - 2 = body.length := by simp
  rw [rspOkFrame, take_body, hn]
  rfl

/-! ## Responses -/

/-- H.SEND of a response that the client side does not take ends the connection (43 R210, 60 R258). -/
theorem exec_hSend_failed {rs : List IoResult} (hh : s.handlers[i]? = some h) (hp : s.ports[i]? = some p)
    (hs : h.state = .send) (ha : p.sendAns = .fail :: rs) :
    exec (.hSend i) s = .next { s with
      handlers := s.handlers.set i { h with state := .closed },
      ports := s.ports.set i { p with inbound := [], sendAns := [] },
      trace := s.trace ++ [⟨s.now, .cliSend i h.rsp .fail⟩, ⟨s.now, .event (.handler i) .socketWriteFailure⟩,
        ⟨s.now, .cliClose i⟩] } := by
  refine (withPort_of _ hh hp).trans ?_
  simp only [hs, ha, if_true]
  rw [raise_socketWriteFailure, emit_closeConnection (h := h) _ (by exact hh)]
  simp [State.setPort, State.cross]

end

/-! ## The statements -/

/-- Settles O49, by the length and the checksum of the reply: each kind gives the exception response. -/
theorem badReplyGivesException : Obligations.BadReplyGivesException := by
  intro s i h r hh hs hb
  refine ⟨fun hnil => ?_, fun hlo hhi => ?_, fun body lo hi hbody hr hsum => ?_⟩
  · rw [hnil, exec_rtuDec_empty hh hs hb, emit_synthesize _ hh]
    rfl
  · rw [exec_rtuDec_short hh hs hb hlo hhi, emit_synthesize _ hh]
    rfl
  · have hv : crcVerify s.cfg.crc r = false := by
      rw [hr, crcVerify_append]
      exact decide_eq_false fun ⟨hlow, hhigh⟩ => hsum ⟨hlow.symm, hhigh.symm⟩
    rw [exec_rtuDec_corrupted hh hs hb (by simp [hr]; omega) hv, emit_synthesize (s := s.runVerify r) _ hh,
      State.runVerify, hr, take_body]
    rfl

/-- Settles O48, by the broadcast flag. -/
theorem goodReplyIsDecoded : Obligations.GoodReplyIsDecoded := by
  intro s i h r hh hs
  refine ⟨fun hb => exec_rtuDec_broadcast hh hs hb r, ?_⟩
  rintro body hb hlen rfl
  rw [exec_rtuDec_succeeds hh hs hb (by simp; omega) (crcVerify_of_body _ body), State.runVerify, take_body,
    rspOkFrame_body]
  rfl

/-- Settles O43: the read is too short, or the parser rejects it, in 60 R262's order. -/
theorem badRequestClosesConnection : Obligations.BadRequestClosesConnection := by
  intro s i h p b rest hh hp hs hb
  refine ⟨fun hlen => exec_hRecv_rejects hh hp hs hb (.short hlen), fun hlen => ?_,
    fun t0 t1 p0 p1 l0 l1 u pdu hread hpid => ?_, fun t0 t1 l0 l1 u pdu hread hlen => ?_⟩
  · exact exec_hRecv_rejects hh hp hs hb (.header (e := .malformedHeader) hlen.ge (hdrParse_short b (by omega)))
  · subst hread
    exact exec_hRecv_rejects hh hp hs hb
      (.header (e := .unsupportedProtocol) (by simp) (hdrParse_protocol t0 t1 p0 p1 l0 l1 u pdu hpid))
  · subst hread
    exact exec_hRecv_rejects hh hp hs hb
      (.header (e := .invalidLength) (by simp) (hdrParse_length t0 t1 l0 l1 u pdu hlen))

/-- Settles O33: the reply verifies, and its length is the body's. -/
theorem successResponseBytes : Obligations.SuccessResponseBytes := by
  intro s i h body hh hs hlo hhi
  rw [exec_rspOk_builds hh hs (by simp; omega) (crcVerify_of_body _ body), rspOkFrame_body,
    hi8_ofNat _ (by omega), lo8_ofNat]

/-- Settles O41. -/
theorem connectionOpensAndCloses : Obligations.ConnectionOpensAndCloses := fun _ _ _ _ hh hp =>
  ⟨exec_hOpen_takes hh hp, fun _ => exec_hClose_closes hh hp⟩

/-- Settles O42: the parser accepts the header, and the payload is there. -/
theorem requestIsAccepted : Obligations.RequestIsAccepted := by
  intro s i h p t0 t1 l0 l1 u pdu rest hh hp hs hb hlo hhi hlen
  refine exec_hRecv_accepts hh hp hs hb (hdrParse_fields t0 t1 l0 l1 u pdu hlo hhi) ?_
  simp
  omega

/-- Settles O44: the parser accepts the header, and the parameter decides about the missing payload. -/
theorem shortRequestByParameter : Obligations.ShortRequestByParameter := by
  intro s i h p t0 t1 l0 l1 u pdu rest hh hp hs hb hlo hhi hshort
  have hparse := hdrParse_fields t0 t1 l0 l1 u pdu hlo hhi
  have hlen : (t0 :: t1 :: 0 :: 0 :: l0 :: l1 :: u :: pdu).length <
      6 + (BitVec.ofNat 16 (l0.toNat * 256 + l1.toNat)).toNat := by
    simp
    omega
  exact ⟨exec_hRecv_refuses hh hp hs hb hparse hlen,
    fun hc => exec_hRecv_rejects hh hp hs hb (.payload hparse hlen hc)⟩

/-- Settles O45: the payload is the `len` bytes from the unit id on. -/
theorem requestIsEncoded : Obligations.RequestIsEncoded := by
  intro s i h m0 m1 m2 m3 m4 m5 u fc data extra hh hs hreq hlen
  have hpl : rtuPayload h.req h.len = some (u :: fc :: data) :=
    hreq ▸ rtuPayload_of_append m0 m1 m2 m3 m4 m5 (u :: fc :: data) extra h.len (by simpa using hlen)
  refine ⟨?_, congrArg (Option.map (rtuFrame s.cfg.crc)) hpl⟩
  rw [exec_rtuEnc_encodes hh hs (by rw [hreq]; rfl) hpl, isBroadcastUid_eq_decide]
  rfl

/-- Settles O46. -/
theorem taskIsSubmitted : Obligations.TaskIsSubmitted := by
  intro s i h m0 m1 m2 m3 m4 m5 payload extra hh hs hreq hlen
  exact exec_submit_appends hh hs (hreq ▸ rtuPayload_of_append m0 m1 m2 m3 m4 m5 payload extra h.len hlen)

/-- Settles O47, by what the slot holds. -/
theorem replyIsAwaited : Obligations.ReplyIsAwaited := fun _ _ _ hh hs =>
  ⟨fun _ => exec_hAwait_empties hh hs, exec_hAwait_waits_of_empty hh⟩

/-- Settles O50, by the client side's answer. -/
theorem responseIsSent : Obligations.ResponseIsSent := fun _ _ _ _ _ hh hp hs =>
  ⟨exec_hSend_sent hh hp hs, exec_hSend_failed hh hp hs⟩

end Sys2Proof.Machine
end

section
/-! SUPPORT. What every step keeps of the handlers: their sequencers make the transitions of 43 R213, two of them
through `H_DECODE` (10_state R25), and only a sending handler reaches its client, with its response (43 R210). -/

namespace Sys2Proof.Machine

/-! ## The transitions of the handlers -/

/-- From `s` to `t` every handler's sequencer makes a transition, or stays. -/
def State.HandlersMove (s t : State) : Prop :=
  ∀ (j : Nat) (h h' : Handler), s.handlers[j]? = some h → t.handlers[j]? = some h' → HTransition h.state h'.state

theorem State.handlersMove_of_eq {s t : State} (ht : t.handlers = s.handlers) : s.HandlersMove t := by
  intro j h h' hh hh'
  cases hh.symm.trans (ht ▸ hh')
  exact .stay _

/-- One handler's registers are written, and its sequencer makes a transition. -/
theorem State.handlersMove_of_set {i : Nat} {s t : State} {g g' : Handler} (hg : s.handlers[i]? = some g)
    (ht : t.handlers = s.handlers.set i g') (htr : HTransition g.state g'.state) : s.HandlersMove t := by
  intro j h h' hh hh'
  rw [ht] at hh'
  obtain ⟨rfl, rfl⟩ | ⟨-, hj⟩ := getElem?_set_cases hh'
  · cases hg.symm.trans hh
    exact htr
  · cases hh.symm.trans hj
    exact .stay _

/-- An operation that leads to no `H_DECODE` makes one transition of 43 R213. -/
theorem HMove.handlersMove {i : Nat} {k : HKind} {s t : State} (m : HMove i k s t) (hk : k ≠ .decodes) :
    s.HandlersMove t := by
  cases m with
  | wait => exact State.handlersMove_of_eq rfl
  | flagged => exact State.handlersMove_of_eq rfl
  | opened h p hh hp hs => exact State.handlersMove_of_set hh rfl (hs ▸ .opened)
  | rejected h p b rest e hh hp hs => exact State.handlersMove_of_set hh rfl (hs ▸ .rejected)
  | accepted _ _ _ _ _ _ _ _ _ _ _ _ _ _ hd => exact absurd hd hk
  | parsed h b tid pid len uid v hh => exact State.handlersMove_of_set hh rfl (.stay _)
  | fatal h e v hh hs => exact State.handlersMove_of_set hh rfl (hs ▸ .rejected)
  | classified h bc hh => exact State.handlersMove_of_set hh rfl (.stay _)
  | encoded h fc payload c hh => exact State.handlersMove_of_set hh rfl (.stay _)
  | submitted h frame hh hs => exact State.handlersMove_of_set hh rfl (hs ▸ .submitted)
  | answered _ _ _ _ _ hd => exact absurd hd hk
  | broadcastDone h hh hs => exact State.handlersMove_of_set hh rfl (hs ▸ .broadcastDone)
  | succeeded h r c hh hs => exact State.handlersMove_of_set hh rfl (hs ▸ .respond)
  | excepted h e c hh hs => exact State.handlersMove_of_set hh rfl (hs ▸ .respond)
  | built h rsp hh => exact State.handlersMove_of_set hh rfl (.stay _)
  | sent h p rs hh hp hs => exact State.handlersMove_of_set hh rfl (hs ▸ .sent)
  | sendFailed h p rs hh hp hs => exact State.handlersMove_of_set hh rfl (hs ▸ .sendFailed)
  | closed h hh hs =>
    refine State.handlersMove_of_set hh rfl ?_
    obtain hs | hs := hs <;> rw [hs]
    · exact .rejected
    · exact .sendFailed

/-- A pass through `H_DECODE` makes two transitions of 43 R213 at once (10_state R25). -/
theorem PMove.handlersMove {i : Nat} {s t : State} (m : PMove i s t) : s.HandlersMove t := by
  cases m with
  | alone k _ hk m => exact m.handlersMove hk
  | forwarded h p b rest tid pid len uid fc payload c hh hp hs =>
    exact State.handlersMove_of_set hh rfl (hs ▸ .accepted)
  | broadcastDone h r hh hs => exact State.handlersMove_of_set hh rfl (hs ▸ .answeredBroadcast)
  | succeeded h r c hh hs => exact State.handlersMove_of_set hh rfl (hs ▸ .answered)
  | excepted h r e c hh hs => exact State.handlersMove_of_set hh rfl (hs ▸ .answered)

/-- The worker writes reply slots, and no sequencer state of a handler. -/
theorem WMove.handlersMove {s t : State} (m : WMove s t) : s.HandlersMove t := by
  obtain heq | ⟨-, x, -, heq⟩ := m.handlers
  · exact State.handlersMove_of_eq heq
  · cases hg : s.handlers[x.src]? with
    | none => exact State.handlersMove_of_eq (heq.trans (List.modify_eq_self (List.getElem?_eq_none_iff.mp hg)))
    | some g => exact State.handlersMove_of_set hg (heq.trans (modify_eq_set _ hg)) (.stay _)

theorem CMove.handlers {s t : State} (m : CMove s t) : t.handlers = s.handlers := by
  cases m <;> rfl

theorem EMove.handlers {s t : State} (m : EMove s t) : t.handlers = s.handlers := by
  cases m <;> simp

/-- Settles O13, by whose move the step is. -/
theorem handlerTransitions : Obligations.HandlerTransitions := by
  intro s t i h h' e hh hh'
  obtain rfl | ⟨it, rest, hscript, m⟩ := step_moves e
  · exact .inl (State.handlersMove_of_eq rfl i h h' hh hh')
  · cases m with
    | handler _ _ m => exact .inl (m.handlersMove i h h' hh hh')
    | worker _ m => exact .inl (m.handlersMove i h h' hh hh')
    | codec _ m => exact .inl (State.handlersMove_of_eq m.handlers i h h' hh hh')
    | env _ m => exact .inl (State.handlersMove_of_eq m.handlers i h h' hh hh')
    | reset ms sent hit => exact .inr ⟨ms, sent, rest, hit ▸ hscript⟩

/-! ## What reaches a client -/

/-- What reaches a client from `s` to `t` is the whole response of its handler, which is sending in `s` (43 R210). -/
def State.SendsResponses (s t : State) : Prop :=
  ∃ new, t.trace = s.trace ++ new ∧ ∀ c ∈ new, ∀ i b r, c.ev = .cliSend i b r →
    ∃ h, s.handlers[i]? = some h ∧ h.state = .send ∧ b = h.rsp

theorem State.sendsResponses_of_trace {s t : State} (ht : t.trace = s.trace) : s.SendsResponses t :=
  ⟨[], by simpa using ht, nofun⟩

/-- Only H.SEND reaches the client, from `H_SEND`. -/
theorem HMove.sendsResponses {i : Nat} {k : HKind} {s t : State} (m : HMove i k s t) : s.SendsResponses t := by
  cases m with
  | sent h p rs hh hp hs => simp [State.SendsResponses, hh, hs]
  | sendFailed h p rs hh hp hs => simp [State.SendsResponses, hh, hs]
  | _ => simp [State.SendsResponses]

theorem PMove.sendsResponses {i : Nat} {s t : State} (m : PMove i s t) : s.SendsResponses t := by
  cases m with
  | alone k _ _ m => exact m.sendsResponses
  | _ => simp [State.SendsResponses]

theorem WMove.sendsResponses {s t : State} (m : WMove s t) : s.SendsResponses t := by
  cases m with
  | writeDone x r rs rx new hs ht ha hnew => obtain rfl | rfl := hnew <;> simp [State.SendsResponses]
  | noReply hdr tlen new hs hr hnew => obtain ⟨n, b, rfl⟩ | ⟨n, rfl⟩ := hnew <;> simp [State.SendsResponses]
  | _ => simp [State.SendsResponses]

theorem CMove.sendsResponses {s t : State} (m : CMove s t) : s.SendsResponses t := by
  cases m <;> simp [State.SendsResponses]

theorem EMove.sendsResponses {s t : State} (m : EMove s t) : s.SendsResponses t := by
  cases m <;> simp [State.SendsResponses]

/-- A reset leaves at most the part of a frame on the bus, and reaches no client. -/
theorem resetEngine_sendsResponses (ms sent : Nat) (s : State) : s.SendsResponses (resetEngine ms sent s) := by
  show ∃ new, (s.cutWrite sent).trace = s.trace ++ new ∧ _
  obtain h | ⟨x, -, -, h⟩ := cutWrite_cases sent s <;> simp [h]

theorem IMove.sendsResponses {it : Item} {s t : State} (m : IMove it s t) : s.SendsResponses t := by
  cases m with
  | handler i _ m => exact m.sendsResponses
  | worker _ m => exact m.sendsResponses
  | codec _ m => exact m.sendsResponses
  | env _ m => exact m.sendsResponses
  | reset ms sent => exact resetEngine_sendsResponses ms sent s

theorem step_sendsResponses {s t : State} (e : step s = .next t) : s.SendsResponses t := by
  obtain rfl | ⟨it, rest, -, m⟩ := step_moves e
  · exact State.sendsResponses_of_trace rfl
  · exact m.sendsResponses

/-- Settles O20: the handler that sends is in `H_SEND`, where the invariant has no broadcast. -/
theorem broadcastIsNeverAnswered : Obligations.BroadcastIsNeverAnswered := by
  intro s t new hi e htrace c hc i b r hev
  obtain ⟨new', htrace', hnew⟩ := step_sendsResponses e
  obtain rfl : new = new' := List.append_cancel_left (htrace.symm.trans htrace')
  obtain ⟨h, hh, hs, hrsp⟩ := hnew c hc i b r hev
  obtain ⟨-, huid, -⟩ := (hi.handlers i h hh).send hs
  have hunicast : ¬(h.uid = 0x00 ∨ h.uid = 0xFF) := fun hb => by simp [(isBroadcastUid_iff _).mpr hb] at huid
  exact ⟨h, hh, hs, hrsp, fun h0 => hunicast (.inl h0), fun hff => hunicast (.inr hff)⟩

end Sys2Proof.Machine
end

section
/-! SUPPORT. What EXCBUILD writes: the exception response of 44 R240, byte by byte. -/

namespace Sys2Proof.Machine

/-- The bytes of the exception response: the echoed ids, the length 3, the unit id, the function code with bit 7 set and
the exception code (30_encoding R82). -/
theorem excFrame_bytes (tid pid : Half) (uid fc code : Byte) :
    excFrame tid pid uid fc code = [hi8 tid, lo8 tid, hi8 pid, lo8 pid, 0x00, 0x03, uid, fc ||| 0x80, code] := rfl

/-- EXCBUILD writes the exception response into the response register of its handler, and nothing else (log 18). -/
theorem exec_excBuild_builds {s : State} {i : Nat} {h : Handler} (hh : s.handlers[i]? = some h) (hs : h.state = .decode)
    (tid pid : Half) (uid fc code : Byte) :
    exec (.excBuild i tid pid uid fc code) s =
      .next { s with handlers := s.handlers.set i { h with rsp := excFrame tid pid uid fc code } } :=
  (withHandler_of _ hh).trans (if_pos hs)

/-- Settles O32, from what EXCBUILD writes and the bytes of the exception response. -/
theorem exceptionResponseBytes : Obligations.ExceptionResponseBytes := by
  refine ⟨fun s i h tid pid uid fc code hh hs => ?_, ?_, ?_⟩
  · rw [exec_excBuild_builds hh hs, excFrame_bytes]
  · decide
  · decide

end Sys2Proof.Machine
end

section
/-! SUPPORT. A byte that arrives outside an open window or ties with the end of one (10_state R50, 60 R263, 70 R302), and
what a reset leaves (70 R292). -/

namespace Sys2Proof.Machine

/-! ## Bytes that no open window takes -/

/-- The `SerRead` in progress asks for 3 bytes in the first window and for `W.tlen` in the second (42 R174, R175). -/
theorem asked_of_reading {s : State} (hs : s.w.state = .rdHdr ∨ s.w.state = .rdTrl) :
    s.asked = if s.w.state = .rdHdr then 3 else s.w.tlen.toNat := by
  obtain hs | hs := hs <;> simp [State.asked, hs]

section
variable {s : State} {b : Byte} {rest : List Item}

section
variable (hclosed : s.windowOpen = false) (hscript : s.script = .env (.serByte b) :: rest)
include hclosed hscript

/-- A value of `RX_STALE` that keeps bytes leaves one that no window takes pending (10_state R50). -/
theorem step_serByte_pends (hc : s.cfg.rxStale ≠ .refuse) :
    step s = .next { s with
      rxpend := s.rxpend ++ [b], ser := { s.ser with tie := false }, trace := s.trace ++ [⟨s.now, .serByte b⟩],
      script := rest } :=
  (step_scheduled hscript).trans ((if_pos (.inr hc)).trans (congrArg Host.Outcome.next (settle_closed hclosed)))

/-- With `RX_STALE = refuse` a byte that no window takes is lost where it ties with the end of one, and gives the run no
meaning anywhere else (70 R302, log 24). -/
theorem step_serByte_refuse (hc : s.cfg.rxStale = .refuse) :
    step s = if s.ser.tie = true then
      .next { s with
        ser := { s.ser with tie := false }, trace := s.trace ++ [⟨s.now, .serByte b⟩], script := rest }
      else .refused .staleSerialByte :=
  (step_scheduled hscript).trans (if_neg fun h => h.elim (Bool.eq_false_iff.mp hclosed) (· hc))

/-- Whatever `RX_STALE` is, a byte that ties with the end of a window and is too late ends no run, and leaves the answer
of the read (60 R263). -/
theorem step_serByte_tooLate (ht : s.ser.tie = true) :
    ∃ t, step s = .next t ∧ t.ser.readAns = s.ser.readAns := by
  by_cases hc : s.cfg.rxStale = .refuse
  · exact ⟨_, (step_serByte_refuse hclosed hscript hc).trans (if_pos ht), rfl⟩
  · exact ⟨_, step_serByte_pends hclosed hscript hc, rfl⟩

end

section
variable (hscript : s.script = .env (.tiedByte b) :: rest)
include hscript

/-- A byte that ties with the end of a window and is in time is the last one of its read (60 R263). -/
theorem step_tiedByte_joins {bs : List Byte} (ht : s.ser.tie = true) (ha : s.ser.readAns = some (.got bs)) :
    step s = .next { s with
      ser := { s.ser with readAns := some (.got (bs ++ [b])), tie := false },
      trace := s.trace ++ [⟨s.now, .serByte b⟩], script := rest } := by
  refine (step_scheduled hscript).trans ?_
  simp only [issue, applyEnv, arriveInTime, ht, ha]
  rfl

/-- Where nothing ties, or no read has returned bytes, being in time makes no difference (60 R263). -/
theorem step_tiedByte_eq_serByte (h : s.ser.tie = false ∨ ∀ bs, s.ser.readAns ≠ some (.got bs)) :
    step s = step { s with script := .env (.serByte b) :: rest } := by
  refine (step_scheduled hscript).trans ?_
  simp only [issue, applyEnv, arriveInTime]
  split
  · next bs ht ha => exact h.elim (fun h => by simp [h] at ht) fun h => absurd ha (h bs)
  · rfl

end

end

/-! ## The two outcomes of a tie -/

section
variable {s : State} {b : Byte} {rest : List Item} (hi : s.Inv) (ho : s.windowOpen = true)
include hi ho

/-- The end of its time closes a window on the bytes that had come; a byte may still tie with it (10_state R47, 60
R263). -/
theorem step_elapse_ties (hscript : s.script = .env (.elapse s.w.timer.left.toNat) :: rest) :
    ∃ t : State, step s = .next t ∧ t.ser.readAns = some (.got s.rxpend) ∧ t.ser.tie = true ∧ t.script = rest := by
  refine ⟨_, step_elapse hscript, ?_⟩
  rw [elapse_ends (hi.withScript rest) ho le_rfl]
  exact ⟨rfl, decide_eq_true rfl, rfl⟩

/-- A byte that ties with the end of a window and is too late is not in the read. -/
theorem run_tie_tooLate
    (hscript : s.script = .env (.elapse s.w.timer.left.toNat) :: .env (.serByte b) :: rest) :
    ∃ t : State, Host.Core.run Sys2Proof.core 2 s = .next t ∧ t.ser.readAns = some (.got s.rxpend) := by
  obtain ⟨t, htime, ha, htie, hbyte⟩ := step_elapse_ties hi ho hscript
  obtain ⟨u, hlate, hu⟩ := step_serByte_tooLate (windowOpen_eq_false (by simp [ha])) hbyte htie
  exact ⟨u, (run_succ_of_step (M := Sys2Proof.core) htime).trans (run_one_of_step hlate), hu.trans ha⟩

/-- A byte that ties with the end of a window and is in time is the read's last. -/
theorem run_tie_inTime
    (hscript : s.script = .env (.elapse s.w.timer.left.toNat) :: .env (.tiedByte b) :: rest) :
    ∃ t : State, Host.Core.run Sys2Proof.core 2 s = .next t ∧ t.ser.readAns = some (.got (s.rxpend ++ [b])) := by
  obtain ⟨t, htime, ha, htie, hbyte⟩ := step_elapse_ties hi ho hscript
  have hjoined := run_one_of_step (step_tiedByte_joins hbyte htie ha)
  exact ⟨_, (run_succ_of_step (M := Sys2Proof.core) htime).trans hjoined, rfl⟩

end

/-- Settles O52: by whether a window is open, then by `RX_STALE` and the tie; and the two runs of a tie. -/
theorem serialByteArrives : Obligations.SerialByteArrives := by
  intro s b rest hi isOpen n trace
  have hopen (h : isOpen) : s.windowOpen = true := (windowOpen_iff s).mpr h
  have hclosed (h : ¬isOpen) : s.windowOpen = false := Bool.eq_false_iff.mpr fun ho => h ((windowOpen_iff s).mp ho)
  have hasked (h : isOpen) : s.asked = n := asked_of_reading h.1
  refine ⟨fun hs => ⟨fun ho hlacks => ?_, fun ho hlast => ?_, fun ho hc ht => ?_, fun ho hc ht => ?_,
      fun ho hc => step_serByte_pends (hclosed ho) hs hc⟩,
    fun hs => ⟨fun bs ht ha => step_tiedByte_joins hs ht ha, step_tiedByte_eq_serByte hs⟩,
    fun ho _ => ⟨run_tie_tooLate hi (hopen ho), run_tie_inTime hi (hopen ho)⟩⟩
  · rw [step_serByte_open hi (hopen ho) hs, hasked ho, if_neg (Nat.not_le.mpr hlacks),
      if_neg (Nat.not_le.mpr hlacks), ← ho.2]
  · rw [step_serByte_open hi (hopen ho) hs, hasked ho, if_pos hlast, if_pos hlast]
  · exact (step_serByte_refuse (hclosed ho) hs hc).trans (if_neg (by simp [ht]))
  · exact (step_serByte_refuse (hclosed ho) hs hc).trans (if_pos ht)

/-! ## Reset -/

/-- A reset in the middle of a write leaves what was sent on the bus (70 R292). -/
theorem cutWrite_of_sent {s : State} {x : Task} {sent : Nat} (hs : s.w.state = .write) (ht : s.w.task = some x)
    (hsent : 0 < sent) : s.cutWrite sent = s.cross (.serCut (x.frame.take sent)) := by
  simp only [State.cutWrite, ht]
  exact if_pos ⟨hs, hsent⟩

/-- A reset while nothing of a frame has been sent leaves nothing on the bus (70 R292). -/
theorem cutWrite_of_unsent {s : State} {sent : Nat} (h : s.w.state ≠ .write ∨ s.w.task = none ∨ sent = 0) :
    s.cutWrite sent = s := by
  unfold State.cutWrite
  split
  · next x ht => exact if_neg fun ⟨hs, hsent⟩ => h.elim (· hs) fun h => h.elim (by simp [ht]) hsent.ne'
  · rfl

/-- A reset gives the start state; the clock, the record and the schedule go on (70 R292, log 16). -/
theorem step_reset {s : State} {ms sent : Nat} {rest : List Item} (hscript : s.script = .env (.reset ms sent) :: rest) :
    step s = .next { State.start s.cfg with
      now := s.now + ms, trace := (s.cutWrite sent).trace, script := rest } :=
  (step_scheduled hscript).trans (by rw [← cutWrite_trace_script sent rest s]; rfl)

/-- Settles O55, by whether the reset cuts a write off. -/
theorem resetReturnsToStart : Obligations.ResetReturnsToStart := fun _ _ _ _ hscript =>
  ⟨fun _ hs ht hsent => by rw [step_reset hscript, cutWrite_of_sent hs ht hsent]; rfl,
    fun h => by rw [step_reset hscript, cutWrite_of_unsent h]⟩

end Sys2Proof.Machine
end
